-- ==== Sys2Proof/Word.lean ====
section
/-! DEFINITION. The value types of ESPC: bytes, integer fields, packet handles, and the offsets-and-handle records
that the operations take and give (00_scope.md R10, R11; 10_state.md R26). -/

namespace Sys2Proof

/-- A byte is 8 bits (00_scope.md R10). -/
abbrev Byte := BitVec 8

/-- A 16-bit integer field (the outer IPv4 total length, 30_encoding.md R85). -/
abbrev U16 := BitVec 16

/-- A 32-bit integer field (`SPI`, `SEQ`, IPv4 addresses, 30_encoding.md R81, R85). -/
abbrev U32 := BitVec 32

/-- A packet handle: names one packet buffer of the external provider (00_scope.md R11). The spec gives it no width. -/
abbrev Handle := Nat

/-- A header or trailer view: the pair of a handle and a byte offset (40_wire_codec.md R120). It holds no copy. -/
structure View where
  h : Handle
  off : Nat
deriving DecidableEq, Repr

/-- A data view `(h, off, n)`: `n` bytes of packet `h` from offset `off` (41_crypto_contexts.md R150,
44_collaborators_lifecycle.md R245). -/
structure Region where
  h : Handle
  off : Nat
  n : Nat
deriving DecidableEq, Repr

/-- A slot descriptor: the four buffer views of one in-flight packet, as a handle and naturals (10_state.md R26,
30_encoding.md R86). The IV view has length 16 and the auth-destination view length 12. -/
structure Slot where
  pkt : Handle
  ctOff : Nat
  ctLen : Nat
  ivOff : Nat
  auOff : Nat
  auLen : Nat
  adOff : Nat
deriving DecidableEq, Repr

end Sys2Proof
end

