-- ==== Sys2Proof/Config.lean ====
section
/-! DEFINITION. The constants of the source (00_scope.md R8), the derived constants (R9), and the parameters the spec
leaves open (R9, 10_state.md R39), each a constant WITHOUT A BODY: a claim holds whatever they are. -/

namespace Sys2Proof.Config

/-- `VECTOR`: the capacity of the batch and the width of the multi-buffer backend (R8). -/
@[simp, reducible] def vector : Nat := 8
/-- `ESP_HDR_LEN` (R8). -/
@[simp, reducible] def espHdrLen : Nat := 24
/-- `ESP_TRL_LEN` (R8). -/
@[simp, reducible] def espTrlLen : Nat := 14
/-- `AUTH_LEN` (R8). -/
@[simp, reducible] def authLen : Nat := 12
/-- `DIGEST_LEN` (R8). -/
@[simp, reducible] def digestLen : Nat := 20
/-- `IV_LEN` (R8). -/
@[simp, reducible] def ivLen : Nat := 16
/-- `BLOCK` (R8). -/
@[simp, reducible] def block : Nat := 16
/-- `ENC_KEY_LEN` (R8). -/
@[simp, reducible] def encKeyLen : Nat := 16
/-- `AUTH_KEY_LEN` (R8). -/
@[simp, reducible] def authKeyLen : Nat := 20
/-- `ESP_PROTO`: the IPv4 protocol number of ESP (R8). -/
@[simp, reducible] def espProto : Byte := 50#8
/-- `SPI_FIXED` (R8). -/
@[simp, reducible] def spiFixed : U32 := 1234#32
/-- `ETHER_LEN` (R8). -/
@[simp, reducible] def etherLen : Nat := 14
/-- `OUTER_IP_LEN` (R9, D3): 20, which the spec marks as general knowledge (93 G1; entry 18). -/
@[simp, reducible] def outerIpLen : Nat := 20
/-- `TRL_TAIL`: the trailer bytes inside the ciphertext region (R9, D5). -/
@[simp, reducible] def trlTail : Nat := 2
/-- `HEAD_GROW` (R9). -/
@[simp, reducible] def headGrow : Nat := 44
/-- `ESP_OFF` (R9). -/
@[simp, reducible] def espOff : Nat := 34
/-- `CT_OFF` (R9). -/
@[simp, reducible] def ctOff : Nat := 58
/-- `MIN_ESP_FRAME` (R9, D13). -/
@[simp, reducible] def minEspFrame : Nat := 72
/-- `VIHL` of the outer header: version 4, five words (42_encapsulation.md R185; the spec marks it as general
knowledge, 93 G2; entry 18). -/
@[simp, reducible] def outerVihl : Byte := 0x45#8

/-- `PAD_FILL(i) = i`, the value of the i-th padding byte, `i = 1..15` (R9, D6). A parameter of the spec, at the value
the spec gives it (entry 19). -/
def padFill (i : Nat) : Byte := BitVec.ofNat 8 i

/-- What the provider fixes of `MAX_LEN`: how far it lies above 1607. No body (entry 5). -/
opaque maxLenAbove : Fin 63929

/-- `MAX_LEN`, the greatest length of a packet buffer: OPEN, with `MAX_LEN <= 65535` and the recommended
`MAX_LEN >= 1607` (R9, D19; entry 5). -/
def maxLen : Nat := maxLenAbove.val + 1607

/-- How many instances there are beyond the first. No body (entry 4). -/
opaque furtherWorkers : Nat

/-- `N_WORKERS >= 1`: OPEN (R9, D28; entry 4). -/
def nWorkers : Nat := furtherWorkers + 1

/-- `draw(FILL)`: the k-th byte that the buffer growths of instance `worker` newly expose. No body: any values
(44_collaborators_lifecycle.md R247; entry 6). -/
opaque fillByte : (worker k : Nat) → Byte

/-- The permutation of the `n`-byte strings that AES-128-CBC encryption is, for one key and one IV. No body: the
cipher is a parameter, of which only properties (a) to (c) of 41_crypto_contexts.md R155 are assumed, and the type
says them (entry 7). Used only where `n` is a multiple of 16. -/
opaque aesCbc (key iv : List Byte) (n : Nat) : Equiv.Perm (Fin n → Byte)

/-- The 20-byte HMAC-SHA1 digest of a byte string. No body (R155 (d); entry 7). -/
opaque hmacDigest (key data : List Byte) : Fin 20 → Byte

/-- `AES_CBC_ENC(key, iv, data)` (R155). -/
def aesCbcEnc (key iv data : List Byte) : List Byte :=
  List.ofFn (aesCbc key iv data.length data.get)

/-- `AES_CBC_DEC(key, iv, data)`, the inverse (R155 (c)). -/
def aesCbcDec (key iv data : List Byte) : List Byte :=
  List.ofFn ((aesCbc key iv data.length).symm data.get)

/-- `HMAC_SHA1(key, data)`, exactly 20 bytes (R155 (d)). -/
def hmacSha1 (key data : List Byte) : List Byte := List.ofFn (hmacDigest key data)

end Sys2Proof.Config
end

