-- ==== Sys2Proof/Syntax.lean ====
section
/-! DEFINITION. The operations of ESPC as syntax: one constructor for each of the 45 rows of the operation map
(30_encoding.md R100), with the operands its rule gives it. -/

namespace Sys2Proof

/-- The closed set of ESPC operations (30_encoding.md R100). Integer operands have the width of their field; byte
strings of a fixed length are lists whose length `Instr.wellFormed` checks. -/
inductive Instr where
  /-- `INIT` (44_collaborators_lifecycle.md R259): offered keys, tunnel endpoints, and the environment's `PRIM_OK`. -/
  | init (enc auth : List Byte) (src dst : U32) (primOk : Bool)
  /-- `CLONE from=w'` (R260). -/
  | clone (w' : Nat)
  /-- `DESTROY` (R261). -/
  | destroy
  /-- `HDR.VIEW (h, off)` (40_wire_codec.md R121). -/
  | hdrView (h : Handle) (off : Nat)
  /-- `HDR.RD.SPI (hv)` (R122). -/
  | hdrRdSpi (hv : View)
  /-- `HDR.WR.SPI (hv, v)` (R123). -/
  | hdrWrSpi (hv : View) (v : U32)
  /-- `HDR.RD.SEQ (hv)` (R124). -/
  | hdrRdSeq (hv : View)
  /-- `HDR.WR.SEQ (hv, v)` (R125). -/
  | hdrWrSeq (hv : View) (v : U32)
  /-- `HDR.RD.IV (hv)` (R126). -/
  | hdrRdIv (hv : View)
  /-- `HDR.WR.IV (hv, iv)` (R127). -/
  | hdrWrIv (hv : View) (iv : List Byte)
  /-- `TRL.VIEW (h, off)` (R128). -/
  | trlView (h : Handle) (off : Nat)
  /-- `TRL.RD.PADLEN (tv)` (R129). -/
  | trlRdPadlen (tv : View)
  /-- `TRL.WR.PADLEN (tv, v)` (R130). -/
  | trlWrPadlen (tv : View) (v : Byte)
  /-- `TRL.RD.NEXT (tv)` (R131). -/
  | trlRdNext (tv : View)
  /-- `TRL.WR.NEXT (tv, v)` (R132). -/
  | trlWrNext (tv : View) (v : Byte)
  /-- `TRL.RD.AUTH (tv)` (R133). -/
  | trlRdAuth (tv : View)
  /-- `TRL.WR.AUTH (tv, a)` (R134). -/
  | trlWrAuth (tv : View) (a : List Byte)
  /-- `SC.ENC (iv, (h, off, n))` (41_crypto_contexts.md R151). -/
  | scEnc (iv : List Byte) (d : Region)
  /-- `SC.DEC (iv, (h, off, n))` (R152). -/
  | scDec (iv : List Byte) (d : Region)
  /-- `SC.AUTH ((h, off, n))` (R153). -/
  | scAuth (d : Region)
  /-- `VC.REG (s)` (R157). -/
  | vcReg (sl : Slot)
  /-- `VC.ENCRYPT (count)` (R158). -/
  | vcEncrypt (count : Nat)
  /-- `VC.AUTH (count)` (R159). -/
  | vcAuth (count : Nat)
  /-- `VC.FLUSH` (R160). -/
  | vcFlush
  /-- `MB.ENC (key, (iv_0..iv_7), (x_0..x_7))` (R161). -/
  | mbEnc (key : List Byte) (ivs xs : List (List Byte))
  /-- `MB.HMAC (key, (a_0..a_7))` (R162). -/
  | mbHmac (key : List Byte) (lanes : List (List Byte))
  /-- `ENC.PUSH h iv=<iv>` (42_encapsulation.md R194). -/
  | encPush (h : Handle) (iv : List Byte)
  /-- `ENC.END` (R195). -/
  | encEnd
  /-- `DEC h` (43_decapsulation.md R221). -/
  | dec (h : Handle)
  /-- `BUF.GROWHEAD (h, n)` (44_collaborators_lifecycle.md R241). -/
  | bufGrowHead (h : Handle) (n : Nat)
  /-- `BUF.GROWTAIL (h, n)` (R242). -/
  | bufGrowTail (h : Handle) (n : Nat)
  /-- `BUF.SHRINKHEAD (h, n)` (R243). -/
  | bufShrinkHead (h : Handle) (n : Nat)
  /-- `BUF.SHRINKTAIL (h, n)` (R244). -/
  | bufShrinkTail (h : Handle) (n : Nat)
  /-- `BUF.RANGE (h, off, n)` (R245). -/
  | bufRange (h : Handle) (off n : Nat)
  /-- `BUF.LEN (h)` (R246). -/
  | bufLen (h : Handle)
  /-- `IP4.RD.VIHL (h, base)` (R249). -/
  | ip4RdVihl (h : Handle) (base : Nat)
  /-- `IP4.WR.VIHL (h, base, v)` (R250). -/
  | ip4WrVihl (h : Handle) (base : Nat) (v : Byte)
  /-- `IP4.RD.TOTLEN (h, base)` (R251). -/
  | ip4RdTotlen (h : Handle) (base : Nat)
  /-- `IP4.WR.TOTLEN (h, base, v)` (R252). -/
  | ip4WrTotlen (h : Handle) (base : Nat) (v : U16)
  /-- `IP4.RD.PROTO (h, base)` (R253). -/
  | ip4RdProto (h : Handle) (base : Nat)
  /-- `IP4.WR.PROTO (h, base, v)` (R254). -/
  | ip4WrProto (h : Handle) (base : Nat) (v : Byte)
  /-- `IP4.RD.SRC (h, base)` (R255). -/
  | ip4RdSrc (h : Handle) (base : Nat)
  /-- `IP4.WR.SRC (h, base, v)` (R256). -/
  | ip4WrSrc (h : Handle) (base : Nat) (v : U32)
  /-- `IP4.RD.DST (h, base)` (R257). -/
  | ip4RdDst (h : Handle) (base : Nat)
  /-- `IP4.WR.DST (h, base, v)` (R258). -/
  | ip4WrDst (h : Handle) (base : Nat) (v : U32)
deriving DecidableEq, Repr

end Sys2Proof
end

