-- ==== Sys2Proof/WellFormed.lean ====
section
/-! DEFINITION. Which terms of `Instr` are operations of ESPC: every byte-string operand of a fixed length has that
length (the operand types `byte[16]`, `byte[12]`, `byte[20]`, `byte[16*k]` of 40_wire_codec.md R127, R134 and
41_crypto_contexts.md R151, R152, R155, R161, R162; 42_encapsulation.md R187). Integer operands have their width by type;
offsets, lengths and counts are naturals (30_encoding.md R96) and any of them may be offered. -/

namespace Sys2Proof

/-- The operand is a `byte[16]` (an IV, "exactly 16 bytes", or an encryption key). -/
def isBytes16 (l : List Byte) : Bool := l.length == 16

/-- The operand is a `byte[12]` (the `auth` field). -/
def isBytes12 (l : List Byte) : Bool := l.length == 12

/-- The operand is a `byte[20]` (an authentication key). -/
def isBytes20 (l : List Byte) : Bool := l.length == 20

/-- The operand is a `byte[16*k]` (41_crypto_contexts.md R155). -/
def isBlocks (l : List Byte) : Bool := l.length % 16 == 0

/-- Every operand has the type its rule gives it. The keys of `INIT` are offered byte strings of any length (R259);
a multi-buffer call with other than 8 lanes is well formed and a contract violation (93 U12). -/
def Instr.wellFormed : Instr → Bool
  | .init _ _ _ _ _ => true
  | .clone _ => true
  | .destroy => true
  | .hdrView _ _ => true
  | .hdrRdSpi _ => true
  | .hdrWrSpi _ _ => true
  | .hdrRdSeq _ => true
  | .hdrWrSeq _ _ => true
  | .hdrRdIv _ => true
  | .hdrWrIv _ iv => isBytes16 iv
  | .trlView _ _ => true
  | .trlRdPadlen _ => true
  | .trlWrPadlen _ _ => true
  | .trlRdNext _ => true
  | .trlWrNext _ _ => true
  | .trlRdAuth _ => true
  | .trlWrAuth _ a => isBytes12 a
  | .scEnc iv _ => isBytes16 iv
  | .scDec iv _ => isBytes16 iv
  | .scAuth _ => true
  | .vcReg _ => true
  | .vcEncrypt _ => true
  | .vcAuth _ => true
  | .vcFlush => true
  | .mbEnc key ivs xs => isBytes16 key && ivs.all isBytes16 && xs.all isBlocks
  | .mbHmac key _ => isBytes20 key
  | .encPush _ iv => isBytes16 iv
  | .encEnd => true
  | .dec _ => true
  | .bufGrowHead _ _ => true
  | .bufGrowTail _ _ => true
  | .bufShrinkHead _ _ => true
  | .bufShrinkTail _ _ => true
  | .bufRange _ _ _ => true
  | .bufLen _ => true
  | .ip4RdVihl _ _ => true
  | .ip4WrVihl _ _ _ => true
  | .ip4RdTotlen _ _ => true
  | .ip4WrTotlen _ _ _ => true
  | .ip4RdProto _ _ => true
  | .ip4WrProto _ _ _ => true
  | .ip4RdSrc _ _ => true
  | .ip4WrSrc _ _ _ => true
  | .ip4RdDst _ _ => true
  | .ip4WrDst _ _ _ => true

end Sys2Proof
end

