-- ==== Sys2Proof/Decode.lean ====
section
/-! DEFINITION. The command word and its operands: the operation map as a table (30_encoding.md R100), the decoder
(total: it reads a command as one operation or rejects it by name) and, after it, the encoder.

A command is an 8-bit word, `bits[7:4]` the family and `bits[3:0]` the operation (R87). "Operands (handles, offsets, keys,
values) travel beside the word as abstract arguments" (R87): the model gives them as a list of typed arguments (entry 1). -/

namespace Sys2Proof

/-- The class of an operation (30_encoding.md R100): `H` accepted on the host command port, `I` internal
micro-operation, `X` a call out to a collaborator. -/
inductive OpClass where
  | H
  | I
  | X
deriving DecidableEq, Repr

/-- The types of abstract arguments; `bytes n` and `lanes n` carry the length their zero value has. -/
inductive ArgKind where
  | handle
  | nat
  | u8
  | u16
  | u32
  | flag
  | bytes (n : Nat)
  | view
  | region
  | slot
  | lanes (n : Nat)
deriving DecidableEq, Repr

/-- One abstract argument, travelling beside the command word (R87). -/
inductive Arg where
  | handle (h : Handle)
  | nat (n : Nat)
  | u8 (v : Byte)
  | u16 (v : U16)
  | u32 (v : U32)
  | flag (b : Bool)
  | bytes (l : List Byte)
  | view (v : View)
  | region (r : Region)
  | slot (sl : Slot)
  | lanes (ls : List (List Byte))
deriving DecidableEq, Repr

/-- A command: the 8-bit word and the arguments beside it (R87). -/
structure Command where
  word : Byte
  args : List Arg
deriving DecidableEq, Repr

/-- The names of the 45 rows of the operation map. -/
inductive Op where
  | init
  | clone
  | destroy
  | hdrView
  | hdrRdSpi
  | hdrWrSpi
  | hdrRdSeq
  | hdrWrSeq
  | hdrRdIv
  | hdrWrIv
  | trlView
  | trlRdPadlen
  | trlWrPadlen
  | trlRdNext
  | trlWrNext
  | trlRdAuth
  | trlWrAuth
  | scEnc
  | scDec
  | scAuth
  | vcReg
  | vcEncrypt
  | vcAuth
  | vcFlush
  | mbEnc
  | mbHmac
  | encPush
  | encEnd
  | dec
  | bufGrowHead
  | bufGrowTail
  | bufShrinkHead
  | bufShrinkTail
  | bufRange
  | bufLen
  | ip4RdVihl
  | ip4WrVihl
  | ip4RdTotlen
  | ip4WrTotlen
  | ip4RdProto
  | ip4WrProto
  | ip4RdSrc
  | ip4WrSrc
  | ip4RdDst
  | ip4WrDst
deriving DecidableEq, Repr

/-- One row of the operation map. -/
structure OpRow where
  code : Byte
  cls : OpClass
  mnemonic : String
  kinds : List ArgKind
deriving DecidableEq, Repr

/-- The operation map, row by row as 30_encoding.md R100 lists it, with the operand list of the row's rule. -/
def Op.row : Op → OpRow
  | .init => ⟨0x00#8, .H, "INIT", [.bytes 16, .bytes 20, .u32, .u32, .flag]⟩
  | .clone => ⟨0x01#8, .H, "CLONE", [.nat]⟩
  | .destroy => ⟨0x02#8, .H, "DESTROY", []⟩
  | .hdrView => ⟨0x10#8, .I, "HDR.VIEW", [.handle, .nat]⟩
  | .hdrRdSpi => ⟨0x11#8, .I, "HDR.RD.SPI", [.view]⟩
  | .hdrWrSpi => ⟨0x12#8, .I, "HDR.WR.SPI", [.view, .u32]⟩
  | .hdrRdSeq => ⟨0x13#8, .I, "HDR.RD.SEQ", [.view]⟩
  | .hdrWrSeq => ⟨0x14#8, .I, "HDR.WR.SEQ", [.view, .u32]⟩
  | .hdrRdIv => ⟨0x15#8, .I, "HDR.RD.IV", [.view]⟩
  | .hdrWrIv => ⟨0x16#8, .I, "HDR.WR.IV", [.view, .bytes 16]⟩
  | .trlView => ⟨0x20#8, .I, "TRL.VIEW", [.handle, .nat]⟩
  | .trlRdPadlen => ⟨0x21#8, .I, "TRL.RD.PADLEN", [.view]⟩
  | .trlWrPadlen => ⟨0x22#8, .I, "TRL.WR.PADLEN", [.view, .u8]⟩
  | .trlRdNext => ⟨0x23#8, .I, "TRL.RD.NEXT", [.view]⟩
  | .trlWrNext => ⟨0x24#8, .I, "TRL.WR.NEXT", [.view, .u8]⟩
  | .trlRdAuth => ⟨0x25#8, .I, "TRL.RD.AUTH", [.view]⟩
  | .trlWrAuth => ⟨0x26#8, .I, "TRL.WR.AUTH", [.view, .bytes 12]⟩
  | .scEnc => ⟨0x30#8, .I, "SC.ENC", [.bytes 16, .region]⟩
  | .scDec => ⟨0x31#8, .I, "SC.DEC", [.bytes 16, .region]⟩
  | .scAuth => ⟨0x32#8, .I, "SC.AUTH", [.region]⟩
  | .vcReg => ⟨0x40#8, .I, "VC.REG", [.slot]⟩
  | .vcEncrypt => ⟨0x41#8, .I, "VC.ENCRYPT", [.nat]⟩
  | .vcAuth => ⟨0x42#8, .I, "VC.AUTH", [.nat]⟩
  | .vcFlush => ⟨0x43#8, .I, "VC.FLUSH", []⟩
  | .mbEnc => ⟨0x48#8, .X, "MB.ENC", [.bytes 16, .lanes 16, .lanes 0]⟩
  | .mbHmac => ⟨0x49#8, .X, "MB.HMAC", [.bytes 20, .lanes 0]⟩
  | .encPush => ⟨0x50#8, .H, "ENC.PUSH", [.handle, .bytes 16]⟩
  | .encEnd => ⟨0x51#8, .H, "ENC.END", []⟩
  | .dec => ⟨0x60#8, .H, "DEC", [.handle]⟩
  | .bufGrowHead => ⟨0x70#8, .X, "BUF.GROWHEAD", [.handle, .nat]⟩
  | .bufGrowTail => ⟨0x71#8, .X, "BUF.GROWTAIL", [.handle, .nat]⟩
  | .bufShrinkHead => ⟨0x72#8, .X, "BUF.SHRINKHEAD", [.handle, .nat]⟩
  | .bufShrinkTail => ⟨0x73#8, .X, "BUF.SHRINKTAIL", [.handle, .nat]⟩
  | .bufRange => ⟨0x74#8, .X, "BUF.RANGE", [.handle, .nat, .nat]⟩
  | .bufLen => ⟨0x75#8, .X, "BUF.LEN", [.handle]⟩
  | .ip4RdVihl => ⟨0x80#8, .X, "IP4.RD.VIHL", [.handle, .nat]⟩
  | .ip4WrVihl => ⟨0x81#8, .X, "IP4.WR.VIHL", [.handle, .nat, .u8]⟩
  | .ip4RdTotlen => ⟨0x82#8, .X, "IP4.RD.TOTLEN", [.handle, .nat]⟩
  | .ip4WrTotlen => ⟨0x83#8, .X, "IP4.WR.TOTLEN", [.handle, .nat, .u16]⟩
  | .ip4RdProto => ⟨0x84#8, .X, "IP4.RD.PROTO", [.handle, .nat]⟩
  | .ip4WrProto => ⟨0x85#8, .X, "IP4.WR.PROTO", [.handle, .nat, .u8]⟩
  | .ip4RdSrc => ⟨0x86#8, .X, "IP4.RD.SRC", [.handle, .nat]⟩
  | .ip4WrSrc => ⟨0x87#8, .X, "IP4.WR.SRC", [.handle, .nat, .u32]⟩
  | .ip4RdDst => ⟨0x88#8, .X, "IP4.RD.DST", [.handle, .nat]⟩
  | .ip4WrDst => ⟨0x89#8, .X, "IP4.WR.DST", [.handle, .nat, .u32]⟩

/-- Every operation, in the order of the table. -/
def Op.all : List Op :=
  [.init, .clone, .destroy, .hdrView, .hdrRdSpi, .hdrWrSpi, .hdrRdSeq, .hdrWrSeq, .hdrRdIv,
   .hdrWrIv, .trlView, .trlRdPadlen, .trlWrPadlen, .trlRdNext, .trlWrNext, .trlRdAuth, .trlWrAuth, .scEnc,
   .scDec, .scAuth, .vcReg, .vcEncrypt, .vcAuth, .vcFlush, .mbEnc, .mbHmac, .encPush,
   .encEnd, .dec, .bufGrowHead, .bufGrowTail, .bufShrinkHead, .bufShrinkTail, .bufRange, .bufLen, .ip4RdVihl,
   .ip4WrVihl, .ip4RdTotlen, .ip4WrTotlen, .ip4RdProto, .ip4WrProto, .ip4RdSrc, .ip4WrSrc, .ip4RdDst, .ip4WrDst]

/-- Which operation an instruction is. -/
def Instr.op : Instr → Op
  | .init _ _ _ _ _ => .init
  | .clone _ => .clone
  | .destroy => .destroy
  | .hdrView _ _ => .hdrView
  | .hdrRdSpi _ => .hdrRdSpi
  | .hdrWrSpi _ _ => .hdrWrSpi
  | .hdrRdSeq _ => .hdrRdSeq
  | .hdrWrSeq _ _ => .hdrWrSeq
  | .hdrRdIv _ => .hdrRdIv
  | .hdrWrIv _ _ => .hdrWrIv
  | .trlView _ _ => .trlView
  | .trlRdPadlen _ => .trlRdPadlen
  | .trlWrPadlen _ _ => .trlWrPadlen
  | .trlRdNext _ => .trlRdNext
  | .trlWrNext _ _ => .trlWrNext
  | .trlRdAuth _ => .trlRdAuth
  | .trlWrAuth _ _ => .trlWrAuth
  | .scEnc _ _ => .scEnc
  | .scDec _ _ => .scDec
  | .scAuth _ => .scAuth
  | .vcReg _ => .vcReg
  | .vcEncrypt _ => .vcEncrypt
  | .vcAuth _ => .vcAuth
  | .vcFlush => .vcFlush
  | .mbEnc _ _ _ => .mbEnc
  | .mbHmac _ _ => .mbHmac
  | .encPush _ _ => .encPush
  | .encEnd => .encEnd
  | .dec _ => .dec
  | .bufGrowHead _ _ => .bufGrowHead
  | .bufGrowTail _ _ => .bufGrowTail
  | .bufShrinkHead _ _ => .bufShrinkHead
  | .bufShrinkTail _ _ => .bufShrinkTail
  | .bufRange _ _ _ => .bufRange
  | .bufLen _ => .bufLen
  | .ip4RdVihl _ _ => .ip4RdVihl
  | .ip4WrVihl _ _ _ => .ip4WrVihl
  | .ip4RdTotlen _ _ => .ip4RdTotlen
  | .ip4WrTotlen _ _ _ => .ip4WrTotlen
  | .ip4RdProto _ _ => .ip4RdProto
  | .ip4WrProto _ _ _ => .ip4WrProto
  | .ip4RdSrc _ _ => .ip4RdSrc
  | .ip4WrSrc _ _ _ => .ip4WrSrc
  | .ip4RdDst _ _ => .ip4RdDst
  | .ip4WrDst _ _ _ => .ip4WrDst

/-- The class of an instruction (R100). -/
def Instr.cls (i : Instr) : OpClass := i.op.row.cls

/-- The mnemonic of an instruction (R97, R100). -/
def Instr.mnemonic (i : Instr) : String := i.op.row.mnemonic

/-- Why a command is not an operation of ESPC. -/
inductive DecodeError where
  /-- The code is not listed in R100: reserved (R95). -/
  | reservedCode (word : Byte)
  /-- The arguments beside the word are not those the operation's rule lists. -/
  | operandShape (mnemonic : String)
  /-- A byte-string argument has not the length its type `byte[n]` says. -/
  | operandLength (mnemonic : String)
deriving DecidableEq, Repr

/-- The operation whose code is the word, if any (R100; every other code is reserved, R95). -/
def opOf (w : Byte) : Option Op := Op.all.find? (fun o => o.row.code == w)

/-- Reads the arguments the operation's rule lists, in its order. -/
def decodeArgs (op : Op) (args : List Arg) : Option Instr :=
  match op with
  | .init => match args with | [.bytes k, .bytes a, .u32 s, .u32 t, .flag p] => some (.init k a s t p) | _ => none
  | .clone => match args with | [.nat w'] => some (.clone w') | _ => none
  | .destroy => match args with | [] => some .destroy | _ => none
  | .hdrView => match args with | [.handle h, .nat off] => some (.hdrView h off) | _ => none
  | .hdrRdSpi => match args with | [.view v] => some (.hdrRdSpi v) | _ => none
  | .hdrWrSpi => match args with | [.view v, .u32 x] => some (.hdrWrSpi v x) | _ => none
  | .hdrRdSeq => match args with | [.view v] => some (.hdrRdSeq v) | _ => none
  | .hdrWrSeq => match args with | [.view v, .u32 x] => some (.hdrWrSeq v x) | _ => none
  | .hdrRdIv => match args with | [.view v] => some (.hdrRdIv v) | _ => none
  | .hdrWrIv => match args with | [.view v, .bytes b] => some (.hdrWrIv v b) | _ => none
  | .trlView => match args with | [.handle h, .nat off] => some (.trlView h off) | _ => none
  | .trlRdPadlen => match args with | [.view v] => some (.trlRdPadlen v) | _ => none
  | .trlWrPadlen => match args with | [.view v, .u8 x] => some (.trlWrPadlen v x) | _ => none
  | .trlRdNext => match args with | [.view v] => some (.trlRdNext v) | _ => none
  | .trlWrNext => match args with | [.view v, .u8 x] => some (.trlWrNext v x) | _ => none
  | .trlRdAuth => match args with | [.view v] => some (.trlRdAuth v) | _ => none
  | .trlWrAuth => match args with | [.view v, .bytes b] => some (.trlWrAuth v b) | _ => none
  | .scEnc => match args with | [.bytes b, .region d] => some (.scEnc b d) | _ => none
  | .scDec => match args with | [.bytes b, .region d] => some (.scDec b d) | _ => none
  | .scAuth => match args with | [.region d] => some (.scAuth d) | _ => none
  | .vcReg => match args with | [.slot sl] => some (.vcReg sl) | _ => none
  | .vcEncrypt => match args with | [.nat n] => some (.vcEncrypt n) | _ => none
  | .vcAuth => match args with | [.nat n] => some (.vcAuth n) | _ => none
  | .vcFlush => match args with | [] => some .vcFlush | _ => none
  | .mbEnc => match args with | [.bytes k, .lanes ls, .lanes xs] => some (.mbEnc k ls xs) | _ => none
  | .mbHmac => match args with | [.bytes k, .lanes ls] => some (.mbHmac k ls) | _ => none
  | .encPush => match args with | [.handle h, .bytes b] => some (.encPush h b) | _ => none
  | .encEnd => match args with | [] => some .encEnd | _ => none
  | .dec => match args with | [.handle h] => some (.dec h) | _ => none
  | .bufGrowHead => match args with | [.handle h, .nat n] => some (.bufGrowHead h n) | _ => none
  | .bufGrowTail => match args with | [.handle h, .nat n] => some (.bufGrowTail h n) | _ => none
  | .bufShrinkHead => match args with | [.handle h, .nat n] => some (.bufShrinkHead h n) | _ => none
  | .bufShrinkTail => match args with | [.handle h, .nat n] => some (.bufShrinkTail h n) | _ => none
  | .bufRange => match args with | [.handle h, .nat off, .nat n] => some (.bufRange h off n) | _ => none
  | .bufLen => match args with | [.handle h] => some (.bufLen h) | _ => none
  | .ip4RdVihl => match args with | [.handle h, .nat off] => some (.ip4RdVihl h off) | _ => none
  | .ip4WrVihl => match args with | [.handle h, .nat off, .u8 x] => some (.ip4WrVihl h off x) | _ => none
  | .ip4RdTotlen => match args with | [.handle h, .nat off] => some (.ip4RdTotlen h off) | _ => none
  | .ip4WrTotlen => match args with | [.handle h, .nat off, .u16 x] => some (.ip4WrTotlen h off x) | _ => none
  | .ip4RdProto => match args with | [.handle h, .nat off] => some (.ip4RdProto h off) | _ => none
  | .ip4WrProto => match args with | [.handle h, .nat off, .u8 x] => some (.ip4WrProto h off x) | _ => none
  | .ip4RdSrc => match args with | [.handle h, .nat off] => some (.ip4RdSrc h off) | _ => none
  | .ip4WrSrc => match args with | [.handle h, .nat off, .u32 x] => some (.ip4WrSrc h off x) | _ => none
  | .ip4RdDst => match args with | [.handle h, .nat off] => some (.ip4RdDst h off) | _ => none
  | .ip4WrDst => match args with | [.handle h, .nat off, .u32 x] => some (.ip4WrDst h off x) | _ => none

/-- The decoder: total on every word and every argument list, rejecting by name. -/
def decode (c : Command) : Except DecodeError Instr :=
  match opOf c.word with
  | none => .error (.reservedCode c.word)
  | some op =>
    match decodeArgs op c.args with
    | none => .error (.operandShape op.row.mnemonic)
    | some i => if i.wellFormed then .ok i else .error (.operandLength op.row.mnemonic)

/-- The zero value of an argument of each type; a multi-buffer call has exactly 8 lanes (41_crypto_contexts.md R161). -/
def ArgKind.zero : ArgKind → Arg
  | .handle => .handle 0
  | .nat => .nat 0
  | .u8 => .u8 0
  | .u16 => .u16 0
  | .u32 => .u32 0
  | .flag => .flag false
  | .bytes n => .bytes (List.replicate n 0)
  | .view => .view ⟨0, 0⟩
  | .region => .region ⟨0, 0, 0⟩
  | .slot => .slot ⟨0, 0, 0, 0, 0, 0, 0⟩
  | .lanes n => .lanes (List.replicate 8 (List.replicate n 0))

/-- The command with the given word and every argument of its operation zero (no argument where the code is
reserved). -/
def Command.ofWord (w : Byte) : Command :=
  match opOf w with
  | none => ⟨w, []⟩
  | some op => ⟨w, op.row.kinds.map ArgKind.zero⟩

/-- The instruction the decoder reads from a table word of `nbits` bits (always 8, R87), its arguments all zero. -/
def decodeTableWord (nbits w : Nat) : Option Instr :=
  if nbits = 8 ∧ w < 256 then
    match decode (Command.ofWord (BitVec.ofNat 8 w)) with
    | .ok i => some i
    | .error _ => none
  else none

/-- The arguments of an instruction, in the order its rule lists them. -/
def Instr.args : Instr → List Arg
  | .init k a s t p => [.bytes k, .bytes a, .u32 s, .u32 t, .flag p]
  | .clone w' => [.nat w']
  | .destroy => []
  | .hdrView h off => [.handle h, .nat off]
  | .hdrRdSpi v => [.view v]
  | .hdrWrSpi v x => [.view v, .u32 x]
  | .hdrRdSeq v => [.view v]
  | .hdrWrSeq v x => [.view v, .u32 x]
  | .hdrRdIv v => [.view v]
  | .hdrWrIv v b => [.view v, .bytes b]
  | .trlView h off => [.handle h, .nat off]
  | .trlRdPadlen v => [.view v]
  | .trlWrPadlen v x => [.view v, .u8 x]
  | .trlRdNext v => [.view v]
  | .trlWrNext v x => [.view v, .u8 x]
  | .trlRdAuth v => [.view v]
  | .trlWrAuth v b => [.view v, .bytes b]
  | .scEnc b d => [.bytes b, .region d]
  | .scDec b d => [.bytes b, .region d]
  | .scAuth d => [.region d]
  | .vcReg sl => [.slot sl]
  | .vcEncrypt n => [.nat n]
  | .vcAuth n => [.nat n]
  | .vcFlush => []
  | .mbEnc k ls xs => [.bytes k, .lanes ls, .lanes xs]
  | .mbHmac k ls => [.bytes k, .lanes ls]
  | .encPush h b => [.handle h, .bytes b]
  | .encEnd => []
  | .dec h => [.handle h]
  | .bufGrowHead h n => [.handle h, .nat n]
  | .bufGrowTail h n => [.handle h, .nat n]
  | .bufShrinkHead h n => [.handle h, .nat n]
  | .bufShrinkTail h n => [.handle h, .nat n]
  | .bufRange h off n => [.handle h, .nat off, .nat n]
  | .bufLen h => [.handle h]
  | .ip4RdVihl h off => [.handle h, .nat off]
  | .ip4WrVihl h off x => [.handle h, .nat off, .u8 x]
  | .ip4RdTotlen h off => [.handle h, .nat off]
  | .ip4WrTotlen h off x => [.handle h, .nat off, .u16 x]
  | .ip4RdProto h off => [.handle h, .nat off]
  | .ip4WrProto h off x => [.handle h, .nat off, .u8 x]
  | .ip4RdSrc h off => [.handle h, .nat off]
  | .ip4WrSrc h off x => [.handle h, .nat off, .u32 x]
  | .ip4RdDst h off => [.handle h, .nat off]
  | .ip4WrDst h off x => [.handle h, .nat off, .u32 x]

/-- The encoder: the command word of the instruction's row and its arguments. -/
def encode (i : Instr) : Command := ⟨i.op.row.code, i.args⟩

end Sys2Proof
end

