-- ==== Sys2Proof/Machine/State.lean ====
section
/-! DEFINITION. The state of the machine: `N_WORKERS` ESPC tuples and the packet store (10_state.md R20, R32), the
reasons a step can stop, and the state after reset (R38). -/

namespace Sys2Proof.Machine

/-- `PHASE` (10_state.md R21). -/
inductive Phase where
  | unconstructed
  | ready
  | halted
deriving DecidableEq, Repr

/-- `ENC_STATE`: the step of encapsulation being performed (10_state.md R27). -/
inductive EncState where
  | idle
  | receivePlain
  | growBuffer
  | stampOuterHeader
  | stampEspHeaderTrailer
  | accumulateInBatch
  | flushVector
  | done
deriving DecidableEq, Repr

/-- `DEC_STATE`: the step of decapsulation being performed (10_state.md R28). -/
inductive DecState where
  | idle
  | receiveEsp
  | lookupSa
  | verifyMac
  | dropPacket
  | decrypt
  | stripHeaders
  | done
deriving DecidableEq, Repr

/-- The five per-packet drop reasons (60_exceptions.md R270). -/
inductive DropReason where
  | shortBuffer
  | invalidBlockLength
  | unknownSpi
  | authenticationFailed
  | malformedTrailer
deriving DecidableEq, Repr

/-- What a command returns to the worker (10_state.md R35, 60_exceptions.md R270, R278): `Ok` or `Drop(reason)` with the
handle it concerns, or the fatal `ConstructionError`. -/
inductive Verdict where
  | ok (h : Handle)
  | drop (e : DropReason) (h : Handle)
  | constructionError
deriving DecidableEq, Repr

/-- The events of `TRACE` (10_state.md R37, 30_encoding.md R99). -/
inductive Event where
  | mbEnc
  | mbHmac
  | scEnc (h : Handle)
  | scDec (h : Handle)
  | scAuth (h : Handle)
deriving DecidableEq, Repr

/-- The result an operation gives its caller: nothing, a view, a range, an integer field, a length, a byte string, or
one byte string a lane (40_wire_codec.md R121 to R133, 41_crypto_contexts.md R153, R161, R162,
44_collaborators_lifecycle.md R245 to R257). -/
inductive Value where
  | none
  | headerView (v : View)
  | trailerView (v : View)
  | range (r : Region)
  | u8 (v : Byte)
  | u16 (v : U16)
  | u32 (v : U32)
  | length (n : Nat)
  | bytes (l : List Byte)
  | lanes (ls : List (List Byte))
deriving DecidableEq, Repr

/-- One ESPC tuple (10_state.md R20). The last three fields are the model's own (entries 6, 9). -/
structure Espc where
  /-- `PHASE` (R21). -/
  phase : Phase
  /-- `SA.id` (R22). -/
  saId : U32
  /-- `SA.encKey` (R22). -/
  encKey : Vector Byte 16
  /-- `SA.authKey` (R22). -/
  authKey : Vector Byte 20
  /-- `TUN_SRC` (R23). -/
  tunSrc : U32
  /-- `TUN_DST` (R23). -/
  tunDst : U32
  /-- `COUNT` (R24). -/
  count : Nat
  /-- `SLOT[0..7]` (R25); entry `i` is meaningful only while `i < COUNT`. -/
  slots : Vector Slot 8
  /-- `ENC_STATE` (R27). -/
  encState : EncState
  /-- `DEC_STATE` (R28). -/
  decState : DecState
  /-- `OUT` (R36). -/
  out : List Handle
  /-- `TRACE` (R37). -/
  trace : List Event
  /-- The verdicts returned, in order (R35; 70_reset_and_hazards.md R324). The model's own record of an output. -/
  verdicts : List Verdict
  /-- The result of the last operation that gives one. The model's own record of an output. -/
  result : Value
  /-- How many `FILL` bytes the growths of this instance have drawn (44_collaborators_lifecycle.md R247; entry 6). Each
  instance counts its own, so no instance's commands show in another's packets (60_exceptions.md R283). -/
  draws : Nat
deriving DecidableEq, Repr

/-- The packet store `B`: a partial map from handles to byte sequences (10_state.md R32), as a list of pairs in one
canonical form: handles strictly rising. An unlisted handle names no packet, and its bytes do not exist. -/
structure Memory where
  packets : List (Handle × List Byte)
deriving DecidableEq, Repr

/-- Where a command word is presented: on the host command port (44_collaborators_lifecycle.md R262), or on the
model's port for operations performed by themselves, "for unit tests" (30_encoding.md R100; entry 3). -/
inductive Port where
  | host
  | internal
deriving DecidableEq, Repr

/-- What the outside does next: a command on a port of one instance, or, between commands, the owner of a packet
buffer supplies or changes it (`put`) or takes it away (`free`) (20_memory.md R60, 70_reset_and_hazards.md R314; entry
17). -/
inductive Input where
  | command (worker : Nat) (port : Port) (c : Command)
  | put (h : Handle) (b : List Byte)
  | free (h : Handle)
deriving DecidableEq, Repr

/-- The whole machine: the ESPC tuples and the packet store (10_state.md R20), and two fields of the model's own. -/
structure State where
  /-- The ESPC tuples, by worker index (60_exceptions.md R283). -/
  workers : List Espc
  /-- The packet store `B` (10_state.md R32). -/
  mem : Memory
  /-- The instance whose command is being executed (60_exceptions.md R283; entry 4). -/
  active : Nat
  /-- What the host has issued and is not yet served (70_reset_and_hazards.md R324; entry 2). -/
  inputs : List Input
deriving DecidableEq, Repr

/-- The model-level faults (60_exceptions.md R285): the run has no result, so a proof must show they do not happen. -/
inductive Fault where
  /-- A view or access outside the packet's bytes. Raised by every operation that reads or writes packet bytes, builds a
  view or a range, or accesses an IPv4 field (R67, R135, R245, R248). Safe: the spec gives such an access no value. -/
  | codecBounds
  /-- `count > VECTOR`, a registration into a full batch or of a region that is not a multiple of 16, a slot read at
  `i >= COUNT`, a multi-buffer call without exactly 8 lanes, a buffer primitive outside its `require`. Raised by the
  vector context and the buffer provider (R157, R158, R165, R241 to R244, R318; 93 U1, U12). Safe: the spec gives such a
  use no value. -/
  | contractViolation
deriving DecidableEq, Repr

/-- The refusals: nothing changes, no verdict is produced, and the run is marked refused (30_encoding.md R95). -/
inductive Refusal where
  /-- The operation has no meaning in the model yet. Raised by `exec`. Safe: nothing is claimed of it. -/
  | notModelled (mnemonic : String)
  /-- A reserved code, or arguments that are not the operation's. Raised by `step` (R95, D31). Safe. -/
  | undecodable (e : DecodeError)
  /-- A code of class `I` or `X` presented on the host port. Raised by `step` (R95). Safe. -/
  | notAHostCommand (mnemonic : String)
  /-- A byte-string operand of a fixed-length type has another length (R127). Raised by the operations with such an
  operand, for terms that are not well formed. Safe. -/
  | malformedOperand
  /-- The command is not accepted in this `PHASE`. Raised by every command but by none of the codec, buffer and IPv4
  operations (10_state.md R21, D32). Safe. -/
  | wrongPhase
  /-- The command names an instance `w >= N_WORKERS`. Raised by every operation. Safe: there is no such instance. -/
  | noSuchWorker
  /-- A handle that names no packet. Raised by every operation that takes a handle, and by `free` (D33, 93 U9). Safe. -/
  | unknownHandle
  /-- The handle is in flight. Raised by `ENC.PUSH` and `DEC` (70_reset_and_hazards.md R316, D23) and, for a packet in flight
  on any instance, by the host's `put` and `free` (R314, 93 U4). Safe. -/
  | inFlight
  /-- The host offers a buffer longer than `MAX_LEN`. Raised by `put` (10_state.md R32). Safe: there is no such buffer. -/
  | bufferTooLong
deriving DecidableEq, Repr

/-- The outcome of a step of this machine. -/
abbrev Outcome := Host.Outcome State Fault Refusal

/-- The content of a slot nothing has registered; never read, since `COUNT = 0` (10_state.md R25, R38; entry 8). -/
def blankSlot : Slot := ⟨0, 0, 0, 0, 0, 0, 0⟩

/-- A tuple right after creation, before `INIT` or `CLONE` (10_state.md R38, first column). The `SA` and tunnel
registers, "unspecified" there, hold zero (entry 8). -/
def Espc.created : Espc where
  phase := .unconstructed
  saId := 0
  encKey := Vector.replicate 16 0
  authKey := Vector.replicate 20 0
  tunSrc := 0
  tunDst := 0
  count := 0
  slots := Vector.replicate 8 blankSlot
  encState := .idle
  decState := .idle
  out := []
  trace := []
  verdicts := []
  result := .none
  draws := 0

/-- The machine right after reset: `N_WORKERS` created tuples (10_state.md R38), no packet listed (entry 10), nothing
issued by the host. -/
def State.reset : State where
  workers := List.replicate Config.nWorkers Espc.created
  mem := ⟨[]⟩
  active := 0
  inputs := []

end Sys2Proof.Machine
end

