-- ==== Sys2Proof/Machine/Operands.lean ====
section
/-! DEFINITION. Assembling operands: byte strings and the integers in them (00_scope.md R11, 30_encoding.md R88), the
regions of a frame computed from its length (R89), padding (R90) and the outer total length (R92). -/

namespace Sys2Proof.Machine

/-- `b[off : off+n]` (00_scope.md R11). -/
def slice (b : List Byte) (off n : Nat) : List Byte := (b.drop off).take n

/-- `b` with the bytes from `off` on replaced by `v`, no other byte and not the length changed (R11 `MemWrite`). -/
def splice (b : List Byte) (off : Nat) (v : List Byte) : List Byte :=
  b.take off ++ v ++ b.drop (off + v.length)

/-- `be16(b)` (R11). -/
def be16 (b : List Byte) : U16 :=
  BitVec.ofNat 16 (2 ^ 8 * (b.getD 0 0).toNat + (b.getD 1 0).toNat)

/-- `to_be16(v)` (R11): most significant byte first. -/
def toBe16 (v : U16) : List Byte :=
  [BitVec.ofNat 8 (v.toNat / 2 ^ 8), BitVec.ofNat 8 v.toNat]

/-- `be32(b) = b[0]*2^24 + b[1]*2^16 + b[2]*2^8 + b[3]` (R11). The powers stand first, so that the kernel, which
unfolds a product by its second factor, never counts up to `2^24`. -/
def be32 (b : List Byte) : U32 :=
  BitVec.ofNat 32 (2 ^ 24 * (b.getD 0 0).toNat + 2 ^ 16 * (b.getD 1 0).toNat + 2 ^ 8 * (b.getD 2 0).toNat
    + (b.getD 3 0).toNat)

/-- `to_be32(v)` (R11): most significant byte first. -/
def toBe32 (v : U32) : List Byte :=
  [BitVec.ofNat 8 (v.toNat / 2 ^ 24), BitVec.ofNat 8 (v.toNat / 2 ^ 16), BitVec.ofNat 8 (v.toNat / 2 ^ 8),
    BitVec.ofNat 8 v.toNat]

/-- The one byte of a 1-byte read, as `zext_8` (R11, 30_encoding.md R88). -/
def byte1 (b : List Byte) : Byte := b.getD 0 0

/-- `pad := (16 - (PAYLEN mod 16)) mod 16` with `PAYLEN = L + TRL_TAIL` (30_encoding.md R90). -/
def padLength (l : Nat) : Nat := (16 - (l + Config.trlTail) % 16) % 16

/-- `LEN1 = L + pad + 72`, the length of the grown frame (42_encapsulation.md R182). -/
def grownLength (l : Nat) : Nat := l + padLength l + 72

/-- `TOTLEN := LEN - ETHER_LEN` as the 16-bit field holds it (30_encoding.md R92). -/
def totalLength (len : Nat) : U16 := BitVec.ofNat 16 (len - Config.etherLen)

/-- The padding bytes `PAD_FILL(1) ++ .. ++ PAD_FILL(pad)` (42_encapsulation.md R188, R196). -/
def paddingBytes (pad : Nat) : List Byte := (List.range pad).map (fun i => Config.padFill (i + 1))

/-- The ciphertext region of a frame of length `len`: `[58, len-12)` (30_encoding.md R89). -/
def ctRegion (h : Handle) (len : Nat) : Region := ⟨h, Config.ctOff, len - 70⟩

/-- The auth-covered region of a frame of length `len`: `[34, len-12)` (30_encoding.md R89). -/
def authRegion (h : Handle) (len : Nat) : Region := ⟨h, Config.espOff, len - 46⟩

/-- The slot registered for a frame of final length `len` (42_encapsulation.md R191, 10_state.md R26). -/
def slotOf (h : Handle) (len : Nat) : Slot where
  pkt := h
  ctOff := Config.ctOff
  ctLen := len - 70
  ivOff := Config.espOff + 8
  auOff := Config.espOff
  auLen := len - 46
  adOff := len - Config.authLen

end Sys2Proof.Machine
end

