-- ==== Sys2Proof/Machine/Flags.lean ====
section
/-! DEFINITION. The conditions of ESPC. It has no stored condition codes: each is computed and consumed inside one
command (10_state.md R29). And the edges of the two state machines (42_encapsulation.md R180, 43_decapsulation.md R210). -/

namespace Sys2Proof.Machine

/-- `BatchFull := (COUNT = VECTOR)` (10_state.md R29). -/
def batchFull (x : Espc) : Bool := x.count == Config.vector

/-- The first half of `Eligible`: room for an Ethernet header and a minimum IPv4 header (42_encapsulation.md R182). -/
def longEnough (len0 : Nat) : Bool := decide (Config.etherLen + Config.outerIpLen ≤ len0)

/-- `Eligible` (R182): long enough, and the grown frame fits `MAX_LEN`. -/
def eligible (len0 : Nat) : Bool :=
  longEnough len0 && decide (grownLength (len0 - Config.etherLen) ≤ Config.maxLen)

/-- `SaFound`: the one-entry SA table lookup (43_decapsulation.md R214, 10_state.md R22). -/
def saFound (x : Espc) (spi : U32) : Bool := spi == x.saId

/-- `MacOk`: the first 12 bytes of the digest equal the stored `auth`, all of them (R215, R225). -/
def macOk (digest stored : List Byte) : Bool := digest.take Config.authLen == stored

/-- `BlockOk`: a positive multiple of the block size (R217). -/
def blockOk (ctLen : Nat) : Bool := decide (0 < ctLen) && ctLen % Config.block == 0

/-- `TrailerOk`: the strip stays inside the ciphertext region (R219). -/
def trailerOk (padLen ctLen : Nat) : Bool := decide (padLen + Config.trlTail ≤ ctLen)

/-- The edges of `ENC_STATE` (42_encapsulation.md R180): "the only edges there are". -/
def encEdge : EncState → EncState → Bool
  | .idle, .receivePlain => true
  | .receivePlain, .growBuffer => true
  | .receivePlain, .idle => true
  | .growBuffer, .stampOuterHeader => true
  | .stampOuterHeader, .stampEspHeaderTrailer => true
  | .stampEspHeaderTrailer, .accumulateInBatch => true
  | .accumulateInBatch, .flushVector => true
  | .accumulateInBatch, .done => true
  | .flushVector, .done => true
  | .done, .idle => true
  | _, _ => false

/-- The edges of `DEC_STATE` (43_decapsulation.md R210). -/
def decEdge : DecState → DecState → Bool
  | .idle, .receiveEsp => true
  | .receiveEsp, .lookupSa => true
  | .receiveEsp, .dropPacket => true
  | .lookupSa, .verifyMac => true
  | .lookupSa, .dropPacket => true
  | .verifyMac, .decrypt => true
  | .verifyMac, .dropPacket => true
  | .decrypt, .stripHeaders => true
  | .decrypt, .dropPacket => true
  | .stripHeaders, .done => true
  | .stripHeaders, .dropPacket => true
  | .dropPacket, .idle => true
  | .done, .idle => true
  | _, _ => false

end Sys2Proof.Machine
end

