-- ==== Sys2Proof/Machine/Ops.lean ====
section
/-! DEFINITION. The named operations over the packet store and the registers, and the ways a command ends: in a
verdict `Ok`, in a drop (ESPC's exceptions, 60_exceptions.md R275), in the fatal construction error (R278), in a model-level
fault (R285) or in a refusal (30_encoding.md R95).

A command runs on a `Ctx`: the tuple of the one instance it was issued to, that instance's index, and the packet
store. So "a command on instance w reads and writes only instance w and the packets it names" (10_state.md R41) holds by
construction; `CLONE` alone looks at a second tuple. -/

namespace Sys2Proof.Machine

/-! ## The packet store -/

/-- The bytes listed for a handle. -/
def lookup : List (Handle × List Byte) → Handle → Option (List Byte)
  | [], _ => none
  | (k, b) :: t, h => if h = k then some b else lookup t h

/-- Lists bytes for a handle, in the place its number has. -/
def insert : List (Handle × List Byte) → Handle → List Byte → List (Handle × List Byte)
  | [], h, b => [(h, b)]
  | (k, a) :: t, h, b =>
    if h < k then (h, b) :: (k, a) :: t else if h = k then (h, b) :: t else (k, a) :: insert t h b

/-- Unlists a handle. -/
def remove : List (Handle × List Byte) → Handle → List (Handle × List Byte)
  | [], _ => []
  | (k, a) :: t, h => if h = k then remove t h else (k, a) :: remove t h

/-- Handles strictly rising. -/
def rising : List (Handle × List Byte) → Bool
  | [] => true
  | [_] => true
  | (k, _) :: (l, b) :: t => decide (k < l) && rising ((l, b) :: t)

/-- `B[h]`, if `h` names a packet (00_scope.md R11). What an unlisted handle reads as is: no packet (entry 10). -/
def Memory.get (m : Memory) (h : Handle) : Option (List Byte) := lookup m.packets h

/-- `B[h] := b`. -/
def Memory.put (m : Memory) (h : Handle) (b : List Byte) : Memory := ⟨insert m.packets h b⟩

/-- The provider takes the packet away. -/
def Memory.erase (m : Memory) (h : Handle) : Memory := ⟨remove m.packets h⟩

/-- The canonical form of the store: handles strictly rising, so equal stores are equal data. -/
def Memory.wf (m : Memory) : Bool := rising m.packets

/-- Every packet is 0..`MAX_LEN` bytes long (10_state.md R32). -/
def Memory.bounded (m : Memory) : Bool := m.packets.all (fun p => decide (p.2.length ≤ Config.maxLen))

/-- One byte of the store: the byte at offset `off` of packet `h`, if both exist (20_memory.md R50). -/
def Memory.byteAt (m : Memory) (h : Handle) (off : Nat) : Option Byte := (m.get h).bind (fun b => b[off]?)

/-! ## Running a command on one instance -/

/-- What a command works on: the tuple of its instance, the packet store, and the index of that instance, which names
its `FILL` draws and which no operation changes. -/
structure Ctx where
  inst : Espc
  mem : Memory
  worker : Nat
deriving DecidableEq, Repr

/-- How a command ends before its last line. -/
inductive Stop where
  /-- A model-level fault (60_exceptions.md R285). -/
  | fault (f : Fault)
  /-- The command is refused (30_encoding.md R95). -/
  | refused (r : Refusal)
  /-- `raise E(h)`: the command stops here with verdict `Drop(E)`; what it wrote stays written (R275). -/
  | raised (e : DropReason) (h : Handle) (c : Ctx)
deriving DecidableEq, Repr

/-- The two state machines, or neither, as the one a command drives. -/
inductive Pipeline where
  | encap
  | decap
  | none
deriving DecidableEq, Repr

/-- `ENC_STATE <- S` (00_scope.md R11). -/
def Ctx.setEnc (c : Ctx) (st : EncState) : Ctx := { c with inst := { c.inst with encState := st } }

/-- `DEC_STATE <- S`. -/
def Ctx.setDec (c : Ctx) (st : DecState) : Ctx := { c with inst := { c.inst with decState := st } }

/-- `trace(ev)` (R11). -/
def Ctx.traced (c : Ctx) (ev : Event) : Ctx := { c with inst := { c.inst with trace := c.inst.trace ++ [ev] } }

/-- `emit(h)` for each handle of a list, in order (R11, 10_state.md R36). -/
def Ctx.emitted (c : Ctx) (hs : List Handle) : Ctx := { c with inst := { c.inst with out := c.inst.out ++ hs } }

/-- The command's verdict (10_state.md R35; entry 9). -/
def Ctx.reported (c : Ctx) (v : Verdict) : Ctx :=
  { c with inst := { c.inst with verdicts := c.inst.verdicts ++ [v] } }

/-- The operation's result (entry 9). -/
def Ctx.answered (c : Ctx) (v : Value) : Ctx := { c with inst := { c.inst with result := v } }

/-- The packet store after an operation on it. -/
def Ctx.withMem (c : Ctx) (m : Memory) : Ctx := { c with mem := m }

/-- `raise E(h)`: the ENTRY into ESPC's exception, one shared operation (60_exceptions.md R275). "Nothing is saved and
nothing is vectored": the state machine of the command passes through `DropPacket` (decapsulation) or goes straight
back (encapsulation) to `Idle`, and the command returns `Drop(E)` for packet `h`. An operation performed by itself drives
neither (entry 23). -/
def takeDrop (p : Pipeline) (e : DropReason) (h : Handle) (c : Ctx) : Ctx :=
  match p with
  | .encap => (c.setEnc .idle).reported (.drop e h)
  | .decap => ((c.setDec .dropPacket).reported (.drop e h)).setDec .idle
  | .none => c.reported (.drop e h)

/-- There is no return from a drop (60_exceptions.md R281): the command that raises nothing ends in `Done`, with verdict
`Ok`, and `Idle` (42_encapsulation.md R193, 43_decapsulation.md R221). -/
def finishOk (p : Pipeline) (h : Handle) (c : Ctx) : Ctx :=
  match p with
  | .encap => ((c.setEnc .done).reported (.ok h)).setEnc .idle
  | .decap => ((c.setDec .done).reported (.ok h)).setDec .idle
  | .none => c.reported (.ok h)

/-- `fatal ConstructionError`: `PHASE <- Halted`; no recovery and no return (60_exceptions.md R278; entry 24). -/
def takeFatal (c : Ctx) : Ctx :=
  { c with inst := { c.inst with phase := .halted } }.reported .constructionError

/-- The numeric codes of the verdicts (60_exceptions.md R270). -/
def Verdict.code : Verdict → Nat
  | .ok _ => 0
  | .drop .shortBuffer _ => 1
  | .drop .invalidBlockLength _ => 2
  | .drop .unknownSpi _ => 3
  | .drop .authenticationFailed _ => 4
  | .drop .malformedTrailer _ => 5
  | .constructionError => 255

/-- The context of the command being executed: the active instance's tuple, if there is such an instance. -/
def State.ctx? (s : State) : Option Ctx := s.workers[s.active]?.map (fun x => ⟨x, s.mem, s.active⟩)

/-- The machine after a command has left `c` in its context. -/
def State.withCtx (s : State) (c : Ctx) : State :=
  { s with workers := s.workers.set s.active c.inst, mem := c.mem }

/-- Runs a command on the active instance. -/
def runOn (p : Pipeline) (s : State) (f : Ctx → Except Stop Ctx) : Outcome :=
  match s.ctx? with
  | none => .refused .noSuchWorker
  | some c =>
    match f c with
    | .ok c' => .next (s.withCtx c')
    | .error (.raised e h c') => .next (s.withCtx (takeDrop p e h c'))
    | .error (.fault x) => .fault x
    | .error (.refused r) => .refused r

/-- An operation that gives a result and changes nothing. -/
def answering {α : Type} (val : α → Value) (f : Ctx → Except Stop α) (c : Ctx) : Except Stop Ctx := do
  let v ← f c
  .ok (c.answered (val v))

/-! ## Preconditions -/

/-- `PHASE = Ready`, else refused (10_state.md R21, D32; entry 12). -/
def Ctx.requireReady (c : Ctx) : Except Stop Unit :=
  if c.inst.phase = .ready then .ok () else .error (.refused .wrongPhase)

/-- The handle names a packet, else refused (D33, 93 U9; entry 11); the packet's bytes. -/
def Ctx.buffer (c : Ctx) (h : Handle) : Except Stop (List Byte) :=
  match c.mem.get h with
  | some b => .ok b
  | none => .error (.refused .unknownHandle)

/-- The occupied slots, `SLOT[0 .. COUNT-1]` (10_state.md R25). -/
def Espc.batch (x : Espc) : List Slot := x.slots.toList.take x.count

/-- `h` is in flight: the `pkt` of an occupied slot (10_state.md R34). -/
def Espc.inFlight (x : Espc) (h : Handle) : Bool := x.batch.any (fun sl => sl.pkt == h)

/-- `h` is not in flight on this instance, else refused (70_reset_and_hazards.md R316; entry 20). -/
def Ctx.requireNotInFlight (c : Ctx) (h : Handle) : Except Stop Unit :=
  if c.inst.inFlight h then .error (.refused .inFlight) else .ok ()

/-- A contract condition of the vector context or the buffer provider (60_exceptions.md R285). -/
def requireContract (b : Bool) : Except Stop Unit :=
  if b then .ok () else .error (.fault .contractViolation)

/-- A bound of a view or range (60_exceptions.md R285). -/
def requireBounds (b : Bool) : Except Stop Unit :=
  if b then .ok () else .error (.fault .codecBounds)

/-- A byte-string operand has the length of its type (40_wire_codec.md R127; entry 16). -/
def requireOperand (b : Bool) : Except Stop Unit :=
  if b then .ok () else .error (.refused .malformedOperand)

/-! ## Packet bytes -/

/-- `LEN(h)` (00_scope.md R11). -/
def Ctx.len (c : Ctx) (h : Handle) : Except Stop Nat := do
  let b ← c.buffer h
  .ok b.length

/-- `MemRead(h, off, n)`; requires `off + n <= LEN(h)` (00_scope.md R11, 20_memory.md R67). -/
def Ctx.memRead (c : Ctx) (h : Handle) (off n : Nat) : Except Stop (List Byte) := do
  let b ← c.buffer h
  requireBounds (decide (off + n ≤ b.length))
  .ok (slice b off n)

/-- `MemWrite(h, off, n, v)`, `n` the length of `v`; requires `off + n <= LEN(h)` (00_scope.md R11, 20_memory.md R67). -/
def Ctx.memWrite (c : Ctx) (h : Handle) (off : Nat) (v : List Byte) : Except Stop Ctx := do
  let b ← c.buffer h
  requireBounds (decide (off + v.length ≤ b.length))
  .ok (c.withMem (c.mem.put h (splice b off v)))

/-- `n` reads, one after the other. -/
def Ctx.readAll (c : Ctx) : List Region → Except Stop (List (List Byte))
  | [] => .ok []
  | r :: t => do
    let x ← c.memRead r.h r.off r.n
    let xs ← c.readAll t
    .ok (x :: xs)

/-- `n` writes, one after the other, each at the start of its region. -/
def Ctx.writeAll (c : Ctx) : List (Region × List Byte) → Except Stop Ctx
  | [] => .ok c
  | (r, v) :: t => do
    let c ← c.memWrite r.h r.off v
    c.writeAll t

/-- The `n` bytes of an instance's `FILL` draws from its draw `d` on (44_collaborators_lifecycle.md R247; entry 6). -/
def fillBytes (worker d n : Nat) : List Byte := (List.range n).map (fun i => Config.fillByte worker (d + i))

/-- `draw(FILL, n)`: the bytes drawn next (R247). -/
def Ctx.fill (c : Ctx) (n : Nat) : List Byte := fillBytes c.worker c.inst.draws n

/-- The context after `n` more bytes have been drawn. -/
def Ctx.drawn (c : Ctx) (n : Nat) : Ctx := { c with inst := { c.inst with draws := c.inst.draws + n } }

end Sys2Proof.Machine
end

