-- ==== Sys2Proof/Machine/Buffer.lean ====
section
/-! DEFINITION. The packet buffer provider, class X (44_collaborators_lifecycle.md R240 to R247): each meaning is the
least the pipelines rely on. None changes an ESPC register (R240); the result of `BUF.RANGE` and `BUF.LEN` is the
model's own output (entry 9). Outside a `require` the fault is `ContractViolation` (R241 to R244; entry 14). -/

namespace Sys2Proof.Machine

/-- `growHead(n)`: `n` new bytes at offset 14, behind the Ethernet header (R241). -/
def Ctx.growHead (c : Ctx) (h : Handle) (n : Nat) : Except Stop Ctx := do
  let b ← c.buffer h
  requireContract (decide (Config.etherLen ≤ b.length ∧ b.length + n ≤ Config.maxLen))
  .ok ((c.withMem (c.mem.put h (b.take Config.etherLen ++ c.fill n ++ b.drop Config.etherLen))).drawn n)

/-- `growTail(n)`: `n` new bytes at the end (R242). -/
def Ctx.growTail (c : Ctx) (h : Handle) (n : Nat) : Except Stop Ctx := do
  let b ← c.buffer h
  requireContract (decide (b.length + n ≤ Config.maxLen))
  .ok ((c.withMem (c.mem.put h (b ++ c.fill n))).drawn n)

/-- `shrinkHead(n)`: the `n` bytes behind the Ethernet header go (R243). -/
def Ctx.shrinkHead (c : Ctx) (h : Handle) (n : Nat) : Except Stop Ctx := do
  let b ← c.buffer h
  requireContract (decide (Config.etherLen + n ≤ b.length))
  .ok (c.withMem (c.mem.put h (b.take Config.etherLen ++ b.drop (Config.etherLen + n))))

/-- `shrinkTail(n)`: the last `n` bytes go (R244). -/
def Ctx.shrinkTail (c : Ctx) (h : Handle) (n : Nat) : Except Stop Ctx := do
  let b ← c.buffer h
  requireContract (decide (n ≤ b.length))
  .ok (c.withMem (c.mem.put h (b.take (b.length - n))))

/-- `byteRangeAt(off, n)`: the view, nothing read (R245). -/
def Ctx.byteRangeAt (c : Ctx) (h : Handle) (off n : Nat) : Except Stop Region := do
  let b ← c.buffer h
  requireBounds (decide (off + n ≤ b.length))
  .ok ⟨h, off, n⟩

/-- `BUF.GROWHEAD (h, n)` (R241). -/
def execBufGrowHead (h : Handle) (n : Nat) (s : State) : Outcome := runOn .none s (fun c => c.growHead h n)

/-- `BUF.GROWTAIL (h, n)` (R242). -/
def execBufGrowTail (h : Handle) (n : Nat) (s : State) : Outcome := runOn .none s (fun c => c.growTail h n)

/-- `BUF.SHRINKHEAD (h, n)` (R243). -/
def execBufShrinkHead (h : Handle) (n : Nat) (s : State) : Outcome := runOn .none s (fun c => c.shrinkHead h n)

/-- `BUF.SHRINKTAIL (h, n)` (R244). -/
def execBufShrinkTail (h : Handle) (n : Nat) (s : State) : Outcome := runOn .none s (fun c => c.shrinkTail h n)

/-- `BUF.RANGE (h, off, n) -> view` (R245). -/
def execBufRange (h : Handle) (off n : Nat) (s : State) : Outcome :=
  runOn .none s (answering .range (fun c => c.byteRangeAt h off n))

/-- `BUF.LEN (h) -> Nat` (R246). -/
def execBufLen (h : Handle) (s : State) : Outcome := runOn .none s (answering .length (fun c => c.len h))

end Sys2Proof.Machine
end

