-- ==== Sys2Proof/Machine/Scalar.lean ====
section
/-! DEFINITION. The Scalar Crypto Context, class I (41_crypto_contexts.md R150 to R154). It is keyed by `SA.encKey` and
`SA.authKey` and carries no state between calls (10_state.md R30): each call is a function of the keys and its
arguments. Performed by itself it needs an SA, so `PHASE = Ready` (entry 12). -/

namespace Sys2Proof.Machine

/-- `encryptBlock(iv, region)`: in place, a whole number of blocks or `InvalidBlockLength` (R151). -/
def Ctx.scEnc (c : Ctx) (iv : List Byte) (d : Region) : Except Stop Ctx :=
  if d.n % Config.block = 0 then do
    let x ← c.memRead d.h d.off d.n
    let c ← c.memWrite d.h d.off (Config.aesCbcEnc c.inst.encKey.toList iv x)
    .ok (c.traced (.scEnc d.h))
  else .error (.raised .invalidBlockLength d.h c)

/-- `decryptBlock(iv, region)`: in place, a whole number of blocks or `InvalidBlockLength` (R152). -/
def Ctx.scDec (c : Ctx) (iv : List Byte) (d : Region) : Except Stop Ctx :=
  if d.n % Config.block = 0 then do
    let x ← c.memRead d.h d.off d.n
    let c ← c.memWrite d.h d.off (Config.aesCbcDec c.inst.encKey.toList iv x)
    .ok (c.traced (.scDec d.h))
  else .error (.raised .invalidBlockLength d.h c)

/-- `authenticate(region)`: the full 20-byte digest; packet bytes are only read (R153). -/
def Ctx.scAuth (c : Ctx) (d : Region) : Except Stop (List Byte × Ctx) := do
  let x ← c.memRead d.h d.off d.n
  .ok (Config.hmacSha1 c.inst.authKey.toList x, c.traced (.scAuth d.h))

/-- `SC.ENC (iv, (h, off, n))` (R151). -/
def execScEnc (iv : List Byte) (d : Region) (s : State) : Outcome :=
  runOn .none s (fun c => do
    requireOperand (isBytes16 iv)
    c.requireReady
    c.scEnc iv d)

/-- `SC.DEC (iv, (h, off, n))` (R152). -/
def execScDec (iv : List Byte) (d : Region) (s : State) : Outcome :=
  runOn .none s (fun c => do
    requireOperand (isBytes16 iv)
    c.requireReady
    c.scDec iv d)

/-- `SC.AUTH ((h, off, n)) -> byte[20]` (R153). -/
def execScAuth (d : Region) (s : State) : Outcome :=
  runOn .none s (fun c => do
    c.requireReady
    let r ← c.scAuth d
    .ok (r.2.answered (.bytes r.1)))

end Sys2Proof.Machine
end

