-- ==== Sys2Proof/Machine/WireCodec.lean ====
section
/-! DEFINITION. The Wire Codec, class I: views of the ESP header and trailer and a read and a write for each of the six
fields (40_wire_codec.md). Each access goes to the packet's bytes at once (R120) and touches no byte outside its field
(R136); its bound is the caller's, and outside it the model-level fault `CodecBounds` (R135). -/

namespace Sys2Proof.Machine

/-! ## The codec as the pipelines use it -/

/-- `HDR.VIEW (h, off)`: 24 bytes of format `HDR`; nothing is read (R121). -/
def Ctx.hdrView (c : Ctx) (h : Handle) (off : Nat) : Except Stop View := do
  let b ← c.buffer h
  requireBounds (decide (off + Config.espHdrLen ≤ b.length))
  .ok ⟨h, off⟩

/-- `TRL.VIEW (h, off)`: 14 bytes of format `TRL`; nothing is read (R128). -/
def Ctx.trlView (c : Ctx) (h : Handle) (off : Nat) : Except Stop View := do
  let b ← c.buffer h
  requireBounds (decide (off + Config.espTrlLen ≤ b.length))
  .ok ⟨h, off⟩

/-- Reads a big-endian 32-bit field at relative offset `k` of a view (30_encoding.md R88). -/
def Ctx.readU32 (c : Ctx) (v : View) (k : Nat) : Except Stop U32 := do
  let b ← c.memRead v.h (v.off + k) 4
  .ok (be32 b)

/-- Reads a one-byte field at relative offset `k` of a view (R88). -/
def Ctx.readU8 (c : Ctx) (v : View) (k : Nat) : Except Stop Byte := do
  let b ← c.memRead v.h (v.off + k) 1
  .ok (byte1 b)

/-- The `SPI` field, bytes 0..3 of a header view (R122). -/
def Ctx.hdrRdSpi (c : Ctx) (hv : View) : Except Stop U32 := c.readU32 hv 0

/-- Writes `SPI` (R123). -/
def Ctx.hdrWrSpi (c : Ctx) (hv : View) (v : U32) : Except Stop Ctx := c.memWrite hv.h (hv.off + 0) (toBe32 v)

/-- The `SEQ` field, bytes 4..7 (R124). -/
def Ctx.hdrRdSeq (c : Ctx) (hv : View) : Except Stop U32 := c.readU32 hv 4

/-- Writes `SEQ` (R125). -/
def Ctx.hdrWrSeq (c : Ctx) (hv : View) (v : U32) : Except Stop Ctx := c.memWrite hv.h (hv.off + 4) (toBe32 v)

/-- The `IV` field, bytes 8..23, a byte string (R126). -/
def Ctx.hdrRdIv (c : Ctx) (hv : View) : Except Stop (List Byte) := c.memRead hv.h (hv.off + 8) Config.ivLen

/-- Writes `IV` (R127). -/
def Ctx.hdrWrIv (c : Ctx) (hv : View) (iv : List Byte) : Except Stop Ctx := c.memWrite hv.h (hv.off + 8) iv

/-- The `paddingLen` field, byte 0 of a trailer view (R129). -/
def Ctx.trlRdPadlen (c : Ctx) (tv : View) : Except Stop Byte := c.readU8 tv 0

/-- Writes `paddingLen` (R130). -/
def Ctx.trlWrPadlen (c : Ctx) (tv : View) (v : Byte) : Except Stop Ctx := c.memWrite tv.h (tv.off + 0) [v]

/-- The `nextProtocol` field, byte 1 (R131). -/
def Ctx.trlRdNext (c : Ctx) (tv : View) : Except Stop Byte := c.readU8 tv 1

/-- Writes `nextProtocol` (R132). -/
def Ctx.trlWrNext (c : Ctx) (tv : View) (v : Byte) : Except Stop Ctx := c.memWrite tv.h (tv.off + 1) [v]

/-- The `auth` field, bytes 2..13, a byte string (R133). -/
def Ctx.trlRdAuth (c : Ctx) (tv : View) : Except Stop (List Byte) := c.memRead tv.h (tv.off + 2) Config.authLen

/-- Writes `auth` (R134). -/
def Ctx.trlWrAuth (c : Ctx) (tv : View) (a : List Byte) : Except Stop Ctx := c.memWrite tv.h (tv.off + 2) a

/-! ## The operations -/

/-- `HDR.VIEW (h, off) -> hv` (R121). -/
def execHdrView (h : Handle) (off : Nat) (s : State) : Outcome :=
  runOn .none s (answering .headerView (fun c => c.hdrView h off))

/-- `HDR.RD.SPI (hv) -> u32` (R122). -/
def execHdrRdSpi (hv : View) (s : State) : Outcome := runOn .none s (answering .u32 (fun c => c.hdrRdSpi hv))

/-- `HDR.WR.SPI (hv, v)` (R123). -/
def execHdrWrSpi (hv : View) (v : U32) (s : State) : Outcome := runOn .none s (fun c => c.hdrWrSpi hv v)

/-- `HDR.RD.SEQ (hv) -> u32` (R124). -/
def execHdrRdSeq (hv : View) (s : State) : Outcome := runOn .none s (answering .u32 (fun c => c.hdrRdSeq hv))

/-- `HDR.WR.SEQ (hv, v)` (R125). -/
def execHdrWrSeq (hv : View) (v : U32) (s : State) : Outcome := runOn .none s (fun c => c.hdrWrSeq hv v)

/-- `HDR.RD.IV (hv) -> byte[16]` (R126). -/
def execHdrRdIv (hv : View) (s : State) : Outcome := runOn .none s (answering .bytes (fun c => c.hdrRdIv hv))

/-- `HDR.WR.IV (hv, iv)`: an `iv` of another length than 16 cannot be written (R127). -/
def execHdrWrIv (hv : View) (iv : List Byte) (s : State) : Outcome :=
  runOn .none s (fun c => do
    requireOperand (isBytes16 iv)
    c.hdrWrIv hv iv)

/-- `TRL.VIEW (h, off) -> tv` (R128). -/
def execTrlView (h : Handle) (off : Nat) (s : State) : Outcome :=
  runOn .none s (answering .trailerView (fun c => c.trlView h off))

/-- `TRL.RD.PADLEN (tv) -> u8` (R129). -/
def execTrlRdPadlen (tv : View) (s : State) : Outcome := runOn .none s (answering .u8 (fun c => c.trlRdPadlen tv))

/-- `TRL.WR.PADLEN (tv, v)` (R130). -/
def execTrlWrPadlen (tv : View) (v : Byte) (s : State) : Outcome := runOn .none s (fun c => c.trlWrPadlen tv v)

/-- `TRL.RD.NEXT (tv) -> u8` (R131). -/
def execTrlRdNext (tv : View) (s : State) : Outcome := runOn .none s (answering .u8 (fun c => c.trlRdNext tv))

/-- `TRL.WR.NEXT (tv, v)` (R132). -/
def execTrlWrNext (tv : View) (v : Byte) (s : State) : Outcome := runOn .none s (fun c => c.trlWrNext tv v)

/-- `TRL.RD.AUTH (tv) -> byte[12]` (R133). -/
def execTrlRdAuth (tv : View) (s : State) : Outcome := runOn .none s (answering .bytes (fun c => c.trlRdAuth tv))

/-- `TRL.WR.AUTH (tv, a)`, `a` of exactly 12 bytes (R134). -/
def execTrlWrAuth (tv : View) (a : List Byte) (s : State) : Outcome :=
  runOn .none s (fun c => do
    requireOperand (isBytes12 a)
    c.trlWrAuth tv a)

end Sys2Proof.Machine
end

