-- ==== Sys2Proof/Machine/Decap.lean ====
section
/-! DEFINITION. The Decapsulation Pipeline (43_decapsulation.md): `DEC`, one stage for each state of `DEC_STATE`
(R210). It uses the scalar context only and never the batch. Each stage is entered in its state and leaves along one
edge of R210, or raises a drop. -/

namespace Sys2Proof.Machine

/-- What `ReceiveESP` hands on: the two views and the frame's length (R213). -/
structure EspViews where
  hv : View
  tv : View
  len : Nat
deriving DecidableEq, Repr

/-- `ReceiveESP`: the length check, then the two views; no field is read yet (R212, R213). -/
def stageReceiveEsp (h : Handle) (c : Ctx) : Except Stop (EspViews × Ctx) := do
  let len ← c.len h
  if len < Config.minEspFrame then .error (.raised .shortBuffer h c) else do
    let hv ← c.hdrView h Config.espOff
    let tv ← c.trlView h (len - Config.espTrlLen)
    .ok (⟨hv, tv, len⟩, c.setDec .lookupSa)

/-- `LookupSA`: the SPI of the header against the one-entry SA table (R214). -/
def stageLookupSa (h : Handle) (v : EspViews) (c : Ctx) : Except Stop Ctx := do
  let spi ← c.hdrRdSpi v.hv
  if saFound c.inst spi then .ok (c.setDec .verifyMac) else .error (.raised .unknownSpi h c)

/-- `VerifyMAC`: the digest recomputed over the auth-covered region, its first 12 bytes compared with the stored `auth`;
fail closed (R215, R216). -/
def stageVerifyMac (h : Handle) (v : EspViews) (c : Ctx) : Except Stop Ctx := do
  let r ← c.scAuth (authRegion h v.len)
  let stored ← r.2.trlRdAuth v.tv
  if macOk r.1 stored then .ok (r.2.setDec .decrypt) else .error (.raised .authenticationFailed h r.2)

/-- `Decrypt`: the block-length check on entry, then the ciphertext region decrypted in place with the header's IV
(R217, R218). -/
def stageDecrypt (h : Handle) (v : EspViews) (c : Ctx) : Except Stop Ctx :=
  if blockOk (v.len - 70) then do
    let iv ← c.hdrRdIv v.hv
    let c ← c.scDec iv (ctRegion h v.len)
    .ok (c.setDec .stripHeaders)
  else .error (.raised .invalidBlockLength h c)

/-- `StripHeaders`: `paddingLen`, now plaintext, must fit; then the outer header and ESP header go from behind the
Ethernet header and padding and trailer from the end (R219). -/
def stageStripHeaders (h : Handle) (v : EspViews) (c : Ctx) : Except Stop Ctx := do
  let p ← c.trlRdPadlen v.tv
  if trailerOk p.toNat (v.len - 70) then do
    let c ← c.shrinkHead h Config.headGrow
    c.shrinkTail h (p.toNat + Config.espTrlLen)
  else .error (.raised .malformedTrailer h c)

/-- The whole of `DEC` after its preconditions (R221). -/
def Ctx.decapsulate (c : Ctx) (h : Handle) : Except Stop Ctx := do
  let c := c.setDec .receiveEsp
  let r ← stageReceiveEsp h c
  let c ← stageLookupSa h r.1 r.2
  let c ← stageVerifyMac h r.1 c
  let c ← stageDecrypt h r.1 c
  let c ← stageStripHeaders h r.1 c
  .ok (finishOk .decap h c)

/-- `DEC h` (R221): refused unless `PHASE = Ready`, `h` names a packet, and `h` is not in flight. -/
def execDec (h : Handle) (s : State) : Outcome :=
  runOn .decap s (fun c => do
    c.requireReady
    let _ ← c.buffer h
    c.requireNotInFlight h
    c.decapsulate h)

end Sys2Proof.Machine
end

