-- ==== Sys2Proof/Machine/Batch.lean ====
section
/-! DEFINITION. The Vector Crypto Context, class I: the batch accumulator and the flush controller, and the two calls of
the multi-buffer backend, class X (41_crypto_contexts.md R156 to R167). Dispatch is by batch size alone: the full-width
backend if and only if `count = VECTOR` (R167). -/

namespace Sys2Proof

/-- The ciphertext-region view of a slot (10_state.md R26). -/
def Slot.ct (sl : Slot) : Region := ⟨sl.pkt, sl.ctOff, sl.ctLen⟩
/-- The IV view of a slot, 16 bytes. -/
def Slot.iv (sl : Slot) : Region := ⟨sl.pkt, sl.ivOff, Config.ivLen⟩
/-- The auth-covered view of a slot. -/
def Slot.au (sl : Slot) : Region := ⟨sl.pkt, sl.auOff, sl.auLen⟩
/-- The auth-destination view of a slot, 12 bytes. -/
def Slot.ad (sl : Slot) : Region := ⟨sl.pkt, sl.adOff, Config.authLen⟩

end Sys2Proof

namespace Sys2Proof.Machine

/-- `SLOT[0 .. n-1]`; a slot at `i >= COUNT` is `Invalid` and reading it is a fault (10_state.md R25,
70_reset_and_hazards.md R318; entry 13). -/
def Ctx.readSlots (c : Ctx) (n : Nat) : Except Stop (List Slot) := do
  requireContract (decide (n ≤ c.inst.count))
  .ok (c.inst.slots.toList.take n)

/-- `VC.REG (s)` (R157). -/
def Ctx.vcReg (c : Ctx) (sl : Slot) : Except Stop Ctx := do
  requireContract (decide (c.inst.count < Config.vector))
  requireContract (sl.ctLen % Config.block == 0)
  .ok { c with inst := { c.inst with
    slots := c.inst.slots.setIfInBounds c.inst.count sl
    count := c.inst.count + 1 } }

/-- `MB.ENC`: exactly 8 lanes of whole blocks, each lane the cipher of its own key, IV and data (R161, R155; 93 U12; entry 15). -/
def Ctx.mbEnc (c : Ctx) (key : List Byte) (ivs xs : List (List Byte)) : Except Stop (List (List Byte) × Ctx) := do
  requireContract (ivs.length == Config.vector && xs.length == Config.vector && xs.all isBlocks)
  .ok (List.zipWith (Config.aesCbcEnc key) ivs xs, c.traced .mbEnc)

/-- `MB.HMAC`: exactly 8 lanes, each digest that of its own lane alone (R162; 93 U12; entry 15). -/
def Ctx.mbHmac (c : Ctx) (key : List Byte) (lanes : List (List Byte)) : Except Stop (List (List Byte) × Ctx) := do
  requireContract (lanes.length == Config.vector)
  .ok (lanes.map (Config.hmacSha1 key), c.traced .mbHmac)

/-- The scalar fallback of `Encrypt`: slot after slot, in increasing index (R158). -/
def Ctx.scEncAll (c : Ctx) : List (Slot × List Byte) → Except Stop Ctx
  | [] => .ok c
  | (sl, iv) :: t => do
    let c ← c.scEnc iv sl.ct
    c.scEncAll t

/-- The scalar fallback of `Authenticate`: slot after slot, in increasing index (R159). -/
def Ctx.scAuthAll (c : Ctx) : List Slot → Except Stop (List (List Byte) × Ctx)
  | [] => .ok ([], c)
  | sl :: t => do
    let r ← c.scAuth sl.au
    let rs ← r.2.scAuthAll t
    .ok (r.1 :: rs.1, rs.2)

/-- `Encrypt(plain[], dest[], iv[], count)` (R158, R164, R165). -/
def Ctx.vcEncrypt (c : Ctx) (n : Nat) : Except Stop Ctx :=
  if n = 0 then .ok c else do
    requireContract (decide (n ≤ Config.vector))
    let sls ← c.readSlots n
    let ivs ← c.readAll (sls.map Slot.iv)
    if n = Config.vector then do
      let xs ← c.readAll (sls.map Slot.ct)
      let r ← c.mbEnc c.inst.encKey.toList ivs xs
      r.2.writeAll ((sls.map Slot.ct).zip r.1)
    else c.scEncAll (sls.zip ivs)

/-- Each digest truncated to its first 12 bytes (R166). -/
def truncated (ds : List (List Byte)) : List (List Byte) := ds.map (fun d => d.take Config.authLen)

/-- `Authenticate(data[], dest[], count)` (R159, R164, R165). -/
def Ctx.vcAuth (c : Ctx) (n : Nat) : Except Stop Ctx :=
  if n = 0 then .ok c else do
    requireContract (decide (n ≤ Config.vector))
    let sls ← c.readSlots n
    let r ← if n = Config.vector then do
        let xs ← c.readAll (sls.map Slot.au)
        c.mbHmac c.inst.authKey.toList xs
      else c.scAuthAll sls
    r.2.writeAll ((sls.map Slot.ad).zip (truncated r.1))

/-- The flush: `Encrypt` then `Authenticate` over the whole batch, the handles emitted in slot order, the batch empty
(R160, 20_memory.md R61, R63). -/
def Ctx.vcFlush (c : Ctx) : Except Stop Ctx := do
  let n := c.inst.count
  let c ← c.vcEncrypt n
  let c ← c.vcAuth n
  let c := c.emitted (c.inst.batch.map Slot.pkt)
  .ok { c with inst := { c.inst with count := 0 } }

/-- `VC.REG (s)` (R157). -/
def execVcReg (sl : Slot) (s : State) : Outcome :=
  runOn .none s (fun c => do
    c.requireReady
    c.vcReg sl)

/-- `VC.ENCRYPT (count)` (R158). -/
def execVcEncrypt (n : Nat) (s : State) : Outcome :=
  runOn .none s (fun c => do
    c.requireReady
    c.vcEncrypt n)

/-- `VC.AUTH (count)` (R159). -/
def execVcAuth (n : Nat) (s : State) : Outcome :=
  runOn .none s (fun c => do
    c.requireReady
    c.vcAuth n)

/-- `VC.FLUSH` (R160). -/
def execVcFlush (s : State) : Outcome :=
  runOn .none s (fun c => do
    c.requireReady
    c.vcFlush)

/-- `MB.ENC (key, (iv_0..iv_7), (x_0..x_7)) -> (y_0..y_7)` (R161). -/
def execMbEnc (key : List Byte) (ivs xs : List (List Byte)) (s : State) : Outcome :=
  runOn .none s (fun c => do
    requireOperand (isBytes16 key && ivs.all isBytes16)
    let r ← c.mbEnc key ivs xs
    .ok (r.2.answered (.lanes r.1)))

/-- `MB.HMAC (key, (a_0..a_7)) -> (d_0..d_7)` (R162). -/
def execMbHmac (key : List Byte) (lanes : List (List Byte)) (s : State) : Outcome :=
  runOn .none s (fun c => do
    requireOperand (isBytes20 key)
    let r ← c.mbHmac key lanes
    .ok (r.2.answered (.lanes r.1)))

end Sys2Proof.Machine
end

