-- ==== Sys2Proof/Machine/Ipv4.lean ====
section
/-! DEFINITION. The IPv4 header accessor, class X (44_collaborators_lifecycle.md R248 to R258). Every operation requires
`base + 20 <= LEN(h)`, else the fault `CodecBounds`; none changes an ESPC register (R248). Field offsets as
30_encoding.md R85 gives them. -/

namespace Sys2Proof.Machine

/-- Reads the `n` bytes of the field at offset `k` of the IPv4 header at `base` (R248). -/
def Ctx.ip4Read (c : Ctx) (h : Handle) (base k n : Nat) : Except Stop (List Byte) := do
  let b ← c.buffer h
  requireBounds (decide (base + Config.outerIpLen ≤ b.length))
  c.memRead h (base + k) n

/-- Writes the field at offset `k` of the IPv4 header at `base` (R248). -/
def Ctx.ip4Write (c : Ctx) (h : Handle) (base k : Nat) (v : List Byte) : Except Stop Ctx := do
  let b ← c.buffer h
  requireBounds (decide (base + Config.outerIpLen ≤ b.length))
  c.memWrite h (base + k) v

/-- Version and header length, at +0 (R249). -/
def Ctx.ip4RdVihl (c : Ctx) (h : Handle) (base : Nat) : Except Stop Byte := do
  let b ← c.ip4Read h base 0 1
  .ok (byte1 b)

/-- Sets version and header length (R250). -/
def Ctx.ip4WrVihl (c : Ctx) (h : Handle) (base : Nat) (v : Byte) : Except Stop Ctx := c.ip4Write h base 0 [v]

/-- Total length, at +2..3, big-endian (R251). -/
def Ctx.ip4RdTotlen (c : Ctx) (h : Handle) (base : Nat) : Except Stop U16 := do
  let b ← c.ip4Read h base 2 2
  .ok (be16 b)

/-- Sets the total length (R252). -/
def Ctx.ip4WrTotlen (c : Ctx) (h : Handle) (base : Nat) (v : U16) : Except Stop Ctx := c.ip4Write h base 2 (toBe16 v)

/-- Protocol, at +9 (R253). -/
def Ctx.ip4RdProto (c : Ctx) (h : Handle) (base : Nat) : Except Stop Byte := do
  let b ← c.ip4Read h base 9 1
  .ok (byte1 b)

/-- Sets the protocol (R254). -/
def Ctx.ip4WrProto (c : Ctx) (h : Handle) (base : Nat) (v : Byte) : Except Stop Ctx := c.ip4Write h base 9 [v]

/-- Source address, at +12..15, big-endian (R255). -/
def Ctx.ip4RdSrc (c : Ctx) (h : Handle) (base : Nat) : Except Stop U32 := do
  let b ← c.ip4Read h base 12 4
  .ok (be32 b)

/-- Sets the source address (R256). -/
def Ctx.ip4WrSrc (c : Ctx) (h : Handle) (base : Nat) (v : U32) : Except Stop Ctx := c.ip4Write h base 12 (toBe32 v)

/-- Destination address, at +16..19, big-endian (R257). -/
def Ctx.ip4RdDst (c : Ctx) (h : Handle) (base : Nat) : Except Stop U32 := do
  let b ← c.ip4Read h base 16 4
  .ok (be32 b)

/-- Sets the destination address (R258). -/
def Ctx.ip4WrDst (c : Ctx) (h : Handle) (base : Nat) (v : U32) : Except Stop Ctx := c.ip4Write h base 16 (toBe32 v)

/-- `IP4.RD.VIHL (h, base) -> u8` (R249). -/
def execIp4RdVihl (h : Handle) (base : Nat) (s : State) : Outcome :=
  runOn .none s (answering .u8 (fun c => c.ip4RdVihl h base))

/-- `IP4.WR.VIHL (h, base, v)` (R250). -/
def execIp4WrVihl (h : Handle) (base : Nat) (v : Byte) (s : State) : Outcome :=
  runOn .none s (fun c => c.ip4WrVihl h base v)

/-- `IP4.RD.TOTLEN (h, base) -> u16` (R251). -/
def execIp4RdTotlen (h : Handle) (base : Nat) (s : State) : Outcome :=
  runOn .none s (answering .u16 (fun c => c.ip4RdTotlen h base))

/-- `IP4.WR.TOTLEN (h, base, v)` (R252). -/
def execIp4WrTotlen (h : Handle) (base : Nat) (v : U16) (s : State) : Outcome :=
  runOn .none s (fun c => c.ip4WrTotlen h base v)

/-- `IP4.RD.PROTO (h, base) -> u8` (R253). -/
def execIp4RdProto (h : Handle) (base : Nat) (s : State) : Outcome :=
  runOn .none s (answering .u8 (fun c => c.ip4RdProto h base))

/-- `IP4.WR.PROTO (h, base, v)` (R254). -/
def execIp4WrProto (h : Handle) (base : Nat) (v : Byte) (s : State) : Outcome :=
  runOn .none s (fun c => c.ip4WrProto h base v)

/-- `IP4.RD.SRC (h, base) -> u32` (R255). -/
def execIp4RdSrc (h : Handle) (base : Nat) (s : State) : Outcome :=
  runOn .none s (answering .u32 (fun c => c.ip4RdSrc h base))

/-- `IP4.WR.SRC (h, base, v)` (R256). -/
def execIp4WrSrc (h : Handle) (base : Nat) (v : U32) (s : State) : Outcome :=
  runOn .none s (fun c => c.ip4WrSrc h base v)

/-- `IP4.RD.DST (h, base) -> u32` (R257). -/
def execIp4RdDst (h : Handle) (base : Nat) (s : State) : Outcome :=
  runOn .none s (answering .u32 (fun c => c.ip4RdDst h base))

/-- `IP4.WR.DST (h, base, v)` (R258). -/
def execIp4WrDst (h : Handle) (base : Nat) (v : U32) (s : State) : Outcome :=
  runOn .none s (fun c => c.ip4WrDst h base v)

end Sys2Proof.Machine
end

