-- ==== Sys2Proof/Machine/Encap.lean ====
section
/-! DEFINITION. The Encapsulation Pipeline (42_encapsulation.md): `ENC.PUSH`, one stage for each state of `ENC_STATE`
(R180), and `ENC.END`. Each stage is entered in its state and leaves along one edge of R180. -/

namespace Sys2Proof.Machine

/-- What `ReceivePlain` hands on: the length `L` of the original packet and its protocol (R182, R189). -/
structure Plain where
  len : Nat
  proto : Byte
deriving DecidableEq, Repr

/-- `ReceivePlain`: the eligibility check, before any write, and the protocol of the original packet (R182). -/
def stageReceivePlain (h : Handle) (c : Ctx) : Except Stop (Plain × Ctx) := do
  let len0 ← c.len h
  if eligible len0 then do
    let proto ← c.ip4RdProto h Config.etherLen
    .ok (⟨len0 - Config.etherLen, proto⟩, c.setEnc .growBuffer)
  else .error (.raised .shortBuffer h c)

/-- `GrowBuffer`: 44 bytes behind the Ethernet header, `pad + 14` at the end (R184). -/
def stageGrowBuffer (h : Handle) (p : Plain) (c : Ctx) : Except Stop Ctx := do
  let c ← c.growHead h Config.headGrow
  let c ← c.growTail h (padLength p.len + Config.espTrlLen)
  .ok (c.setEnc .stampOuterHeader)

/-- `StampOuterHeader`: exactly five fields (R185). -/
def stageStampOuterHeader (h : Handle) (p : Plain) (c : Ctx) : Except Stop Ctx := do
  let c ← c.ip4WrVihl h Config.etherLen Config.outerVihl
  let c ← c.ip4WrTotlen h Config.etherLen (totalLength (grownLength p.len))
  let c ← c.ip4WrProto h Config.etherLen Config.espProto
  let c ← c.ip4WrSrc h Config.etherLen c.inst.tunSrc
  let c ← c.ip4WrDst h Config.etherLen c.inst.tunDst
  .ok (c.setEnc .stampEspHeaderTrailer)

/-- `StampESPHeaderTrailer`: `SPI` and `IV`, the padding bytes, `paddingLen` and `nextProtocol`; neither `SEQ` nor `auth`
(R186 to R190). -/
def stageStampEsp (h : Handle) (iv : List Byte) (p : Plain) (c : Ctx) : Except Stop Ctx := do
  let hv ← c.hdrView h Config.espOff
  let c ← c.hdrWrSpi hv c.inst.saId
  let c ← c.hdrWrIv hv iv
  let c ← c.memWrite h (Config.ctOff + p.len) (paddingBytes (padLength p.len))
  let tv ← c.trlView h (grownLength p.len - Config.espTrlLen)
  let c ← c.trlWrPadlen tv (BitVec.ofNat 8 (padLength p.len))
  let c ← c.trlWrNext tv p.proto
  .ok (c.setEnc .accumulateInBatch)

/-- `AccumulateInBatch`: one slot, its views computed from the grown length; then the `BatchFull?` decision (R191,
R192). -/
def stageAccumulate (h : Handle) (p : Plain) (c : Ctx) : Except Stop Ctx := do
  let c ← c.vcReg (slotOf h (grownLength p.len))
  if batchFull c.inst then do
    let c := c.setEnc .flushVector
    c.vcFlush
  else .ok c

/-- The whole of `ENC.PUSH` after its preconditions (R194). -/
def Ctx.encapsulate (c : Ctx) (h : Handle) (iv : List Byte) : Except Stop Ctx := do
  let c := c.setEnc .receivePlain
  let r ← stageReceivePlain h c
  let c ← stageGrowBuffer h r.1 r.2
  let c ← stageStampOuterHeader h r.1 c
  let c ← stageStampEsp h iv r.1 c
  let c ← stageAccumulate h r.1 c
  .ok (finishOk .encap h c)

/-- `ENC.PUSH h iv=<iv>` (R194): refused unless `PHASE = Ready`, `h` names a packet, and `h` is not in flight. -/
def execEncPush (h : Handle) (iv : List Byte) (s : State) : Outcome :=
  runOn .encap s (fun c => do
    requireOperand (isBytes16 iv)
    c.requireReady
    let _ ← c.buffer h
    c.requireNotInFlight h
    c.encapsulate h iv)

/-- `ENC.END` (R195): a flush if anything is in the batch; no verdict; `ENC_STATE` stays `Idle`. -/
def execEncEnd (s : State) : Outcome :=
  runOn .encap s (fun c => do
    c.requireReady
    if 0 < c.inst.count then c.vcFlush else .ok c)

end Sys2Proof.Machine
end

