-- ==== Sys2Proof/Machine/Lifecycle.lean ====
section
/-! DEFINITION. The lifecycle commands, class H (44_collaborators_lifecycle.md R259 to R261). -/

namespace Sys2Proof.Machine

/-- A byte string of known length as a register's content. -/
def bytesOf {n : Nat} (l : List Byte) (hl : l.length = n) : Vector Byte n := ⟨l.toArray, by simpa using hl⟩

/-- Writes the SA, the tunnel endpoints and the start values, and makes the tuple `Ready` (R259, R260). Slots, verdicts,
the result output and the count of draws are not touched (entry 25). -/
def Espc.construct (x : Espc) (id : U32) (k : Vector Byte 16) (a : Vector Byte 20) (src dst : U32) : Espc :=
  { x with
    saId := id
    encKey := k
    authKey := a
    tunSrc := src
    tunDst := dst
    count := 0
    encState := .idle
    decState := .idle
    out := []
    trace := []
    phase := .ready }

/-- `INIT` (R259): accepted only while `Unconstructed`; keys of the wrong length or a missing primitive are the fatal
`ConstructionError`. -/
def Ctx.init (c : Ctx) (k a : List Byte) (src dst : U32) (primOk : Bool) : Except Stop Ctx :=
  if c.inst.phase = .unconstructed then
    if h : k.length = 16 ∧ a.length = 20 ∧ primOk = true then
      .ok { c with inst := c.inst.construct Config.spiFixed (bytesOf k h.1) (bytesOf a h.2.1) src dst }
    else .ok (takeFatal c)
  else .error (.refused .wrongPhase)

/-- `CLONE from=w'` (R260): accepted only on an `Unconstructed` tuple from a `Ready` one; it copies keys and
configuration and nothing else. -/
def Ctx.clone (c : Ctx) (source : Option Espc) : Except Stop Ctx :=
  match source with
  | none => .error (.refused .noSuchWorker)
  | some y =>
    if c.inst.phase = .unconstructed ∧ y.phase = .ready then
      .ok { c with inst := c.inst.construct y.saId y.encKey y.authKey y.tunSrc y.tunDst }
    else .error (.refused .wrongPhase)

/-- `INIT enc=<k> auth=<a> src=<s> dst=<t>` (R259). -/
def execInit (k a : List Byte) (src dst : U32) (primOk : Bool) (s : State) : Outcome :=
  runOn .none s (fun c => c.init k a src dst primOk)

/-- `CLONE from=<w'>` (R260). -/
def execClone (w' : Nat) (s : State) : Outcome := runOn .none s (fun c => c.clone s.workers[w']?)

/-- `DESTROY`: changes nothing; accepted only while `Ready` (R261, 90_conflicts.md C11). -/
def execDestroy (s : State) : Outcome :=
  runOn .none s (fun c => do
    c.requireReady
    .ok c)

end Sys2Proof.Machine
end

