-- ==== Sys2Proof/Machine/Dispatch.lean ====
section
/-! DEFINITION. Which meaning each operation has: one arm a constructor, in the order of the operation map
(30_encoding.md R100). -/

namespace Sys2Proof.Machine

def exec (i : Instr) (s : State) : Host.Outcome State Fault Refusal :=
  match i with
  | .init k a src dst p => Sys2Proof.Machine.execInit k a src dst p s
  | .clone w' => Sys2Proof.Machine.execClone w' s
  | .destroy => Sys2Proof.Machine.execDestroy s
  | .hdrView h off => Sys2Proof.Machine.execHdrView h off s
  | .hdrRdSpi v => Sys2Proof.Machine.execHdrRdSpi v s
  | .hdrWrSpi v x => Sys2Proof.Machine.execHdrWrSpi v x s
  | .hdrRdSeq v => Sys2Proof.Machine.execHdrRdSeq v s
  | .hdrWrSeq v x => Sys2Proof.Machine.execHdrWrSeq v x s
  | .hdrRdIv v => Sys2Proof.Machine.execHdrRdIv v s
  | .hdrWrIv v b => Sys2Proof.Machine.execHdrWrIv v b s
  | .trlView h off => Sys2Proof.Machine.execTrlView h off s
  | .trlRdPadlen v => Sys2Proof.Machine.execTrlRdPadlen v s
  | .trlWrPadlen v x => Sys2Proof.Machine.execTrlWrPadlen v x s
  | .trlRdNext v => Sys2Proof.Machine.execTrlRdNext v s
  | .trlWrNext v x => Sys2Proof.Machine.execTrlWrNext v x s
  | .trlRdAuth v => Sys2Proof.Machine.execTrlRdAuth v s
  | .trlWrAuth v b => Sys2Proof.Machine.execTrlWrAuth v b s
  | .scEnc b d => Sys2Proof.Machine.execScEnc b d s
  | .scDec b d => Sys2Proof.Machine.execScDec b d s
  | .scAuth d => Sys2Proof.Machine.execScAuth d s
  | .vcReg sl => Sys2Proof.Machine.execVcReg sl s
  | .vcEncrypt n => Sys2Proof.Machine.execVcEncrypt n s
  | .vcAuth n => Sys2Proof.Machine.execVcAuth n s
  | .vcFlush => Sys2Proof.Machine.execVcFlush s
  | .mbEnc k ls xs => Sys2Proof.Machine.execMbEnc k ls xs s
  | .mbHmac k ls => Sys2Proof.Machine.execMbHmac k ls s
  | .encPush h b => Sys2Proof.Machine.execEncPush h b s
  | .encEnd => Sys2Proof.Machine.execEncEnd s
  | .dec h => Sys2Proof.Machine.execDec h s
  | .bufGrowHead h n => Sys2Proof.Machine.execBufGrowHead h n s
  | .bufGrowTail h n => Sys2Proof.Machine.execBufGrowTail h n s
  | .bufShrinkHead h n => Sys2Proof.Machine.execBufShrinkHead h n s
  | .bufShrinkTail h n => Sys2Proof.Machine.execBufShrinkTail h n s
  | .bufRange h off n => Sys2Proof.Machine.execBufRange h off n s
  | .bufLen h => Sys2Proof.Machine.execBufLen h s
  | .ip4RdVihl h off => Sys2Proof.Machine.execIp4RdVihl h off s
  | .ip4WrVihl h off x => Sys2Proof.Machine.execIp4WrVihl h off x s
  | .ip4RdTotlen h off => Sys2Proof.Machine.execIp4RdTotlen h off s
  | .ip4WrTotlen h off x => Sys2Proof.Machine.execIp4WrTotlen h off x s
  | .ip4RdProto h off => Sys2Proof.Machine.execIp4RdProto h off s
  | .ip4WrProto h off x => Sys2Proof.Machine.execIp4WrProto h off x s
  | .ip4RdSrc h off => Sys2Proof.Machine.execIp4RdSrc h off s
  | .ip4WrSrc h off x => Sys2Proof.Machine.execIp4WrSrc h off x s
  | .ip4RdDst h off => Sys2Proof.Machine.execIp4RdDst h off s
  | .ip4WrDst h off x => Sys2Proof.Machine.execIp4WrDst h off x s

end Sys2Proof.Machine
end

