-- ==== Sys2Proof/Machine/HostPort.lean ====
section
/-! DEFINITION. The host's side: which inputs are commands to execute (44_collaborators_lifecycle.md R262, 30_encoding.md
R95), what the owner of a packet may do between commands (20_memory.md R60, 70_reset_and_hazards.md R314; entry 17), and
the pseudo-commands (30_encoding.md R98). -/

namespace Sys2Proof.Machine

/-- What the next input is. -/
inductive Fetched where
  /-- Nothing is issued: nothing happens (60_exceptions.md R279; entry 2). -/
  | idle
  /-- A command of instance `worker`; `rest` is issued after it. -/
  | instr (worker : Nat) (i : Instr) (rest : List Input)
  /-- The owner of a packet changes the store; `rest` comes after it. -/
  | store (m : Memory) (rest : List Input)
  /-- The input is refused. -/
  | refused (r : Refusal)
deriving DecidableEq, Repr

/-- Whether a code is accepted on a port: class `H` on the host command port; the internal port performs any one
operation by itself (30_encoding.md R95, R100; entry 3). -/
def portAccepts (p : Port) (i : Instr) : Bool := p == .internal || i.cls == .H

/-- `h` is in flight on some instance (10_state.md R34). -/
def State.inFlightAnywhere (s : State) (h : Handle) : Bool := s.workers.any (fun x => x.inFlight h)

/-- The next input, decoded. The host's `put` and `free` act on packets that are not in flight (70_reset_and_hazards.md
R314, 93 U4); a buffer is at most `MAX_LEN` bytes long (10_state.md R32). -/
def fetch (s : State) : Fetched :=
  match s.inputs with
  | [] => .idle
  | .command w p c :: rest =>
    match decode c with
    | .error e => .refused (.undecodable e)
    | .ok i => if portAccepts p i then .instr w i rest else .refused (.notAHostCommand i.mnemonic)
  | .put h b :: rest =>
    if s.inFlightAnywhere h then .refused .inFlight
    else if b.length ≤ Config.maxLen then .store (s.mem.put h b) rest else .refused .bufferTooLong
  | .free h :: rest =>
    if s.inFlightAnywhere h then .refused .inFlight
    else if (s.mem.get h).isSome then .store (s.mem.erase h) rest else .refused .unknownHandle

/-- The port a bare word is presented on so that it is performed: the host port for class `H` and reserved codes,
the internal port for classes `I` and `X`. -/
def portFor (w : Byte) : Port :=
  match opOf w with
  | none => .host
  | some op => if op.row.cls = .H then .host else .internal

/-- A command line of one instance on the host port (30_encoding.md R97). -/
def hostCommand (w : Nat) (i : Instr) : Input := .command w .host (encode i)

/-- `ENC.BURST h1 .. hn`: a push each, then `ENC.END` (R98). -/
def encBurst (w : Nat) (ps : List (Handle × List Byte)) : List Input :=
  ps.map (fun p => hostCommand w (.encPush p.1 p.2)) ++ [hostCommand w .encEnd]

/-- `ENCAP h`: `ENC.PUSH h`, `ENC.END` (R98). -/
def encapCommands (w : Nat) (h : Handle) (iv : List Byte) : List Input := encBurst w [(h, iv)]

/-- `DECAP h`: `DEC h` (R98). -/
def decapCommands (w : Nat) (h : Handle) : List Input := [hostCommand w (.dec h)]

end Sys2Proof.Machine
end

