-- ==== Sys2Proof/Machine/Step.lean ====
section
/-! DEFINITION. One step: the next input is served (20_memory.md R56, decision D2: one command is one atomic step). -/

namespace Sys2Proof.Machine

/-- One step of the machine. A command makes its instance the active one and is executed to completion; with nothing
issued, nothing happens (60_exceptions.md R279; entries 2, 21, 22). -/
def step (s : State) : Host.Outcome State Fault Refusal :=
  match fetch s with
  | .idle => .next s
  | .instr w i rest => exec i { s with active := w, inputs := rest }
  | .store m rest => .next { s with mem := m, inputs := rest }
  | .refused r => .refused r

/-- `s` with the instruction of a table word issued next, on the port that performs it, to the instance that is active,
its arguments all zero (entry 2). -/
def State.withFetchWord (s : State) (nbits w : Nat) : State :=
  let b : Byte := BitVec.ofNat 8 (w % 2 ^ nbits)
  { s with inputs := .command s.active (portFor b) (Command.ofWord b) :: s.inputs }

end Sys2Proof.Machine
end

