-- ==== Sys2Proof/Safety.lean ====
section
/-! DEFINITION. What counts as a safe run, in the terms claims use: the invariants of the machine, the host's duties
(44_collaborators_lifecycle.md R263), and the frames that encapsulation is to produce, written as the byte strings
of 42_encapsulation.md R196 and not as a run of the pipeline. -/

namespace Sys2Proof.Machine

/-! ## Invariants -/

/-- What holds of every tuple between steps: `COUNT <= VECTOR` (10_state.md R24), both state machines `Idle` (R27, R28),
the one SPI in a `Ready` tuple (R22), and whole blocks in every registered ciphertext region (41_crypto_contexts.md
R157). -/
def Espc.Ok (x : Espc) : Prop :=
  x.count ≤ Config.vector ∧ x.encState = .idle ∧ x.decState = .idle ∧
    (x.phase = .ready → x.saId = Config.spiFixed) ∧ ∀ sl ∈ x.batch, sl.ctLen % Config.block = 0

/-- What holds of the machine between steps: the packet store has its canonical form, every packet is at most `MAX_LEN`
bytes long (10_state.md R32), there are `N_WORKERS` tuples (R20), and each is `Ok`. -/
def MachineInv (s : State) : Prop :=
  s.mem.wf = true ∧ s.mem.bounded = true ∧ s.workers.length = Config.nWorkers ∧ ∀ x ∈ s.workers, x.Ok

/-- All four views of a slot lie in the packet it names. -/
def Fits (m : Memory) (sl : Slot) : Prop :=
  ∃ b, m.get sl.pkt = some b ∧ sl.ctOff + sl.ctLen ≤ b.length ∧ sl.ivOff + Config.ivLen ≤ b.length ∧
    sl.auOff + sl.auLen ≤ b.length ∧ sl.adOff + Config.authLen ≤ b.length

/-- What holds between the inputs of a host that keeps its duties: `MachineInv`, `COUNT <= 7` (10_state.md R24), and every
occupied slot's views lie in its packet. -/
def HostInv (s : State) : Prop :=
  MachineInv s ∧ ∀ x ∈ s.workers, x.count ≤ 7 ∧ ∀ sl ∈ x.batch, Fits s.mem sl

/-- The packets a command of the host names. -/
def hostPackets : Instr → List Handle
  | .encPush h _ => [h]
  | .dec h => [h]
  | _ => []

/-- The host keeps its duties with this input: it uses the host command port, and names no packet that is in flight on
ANOTHER instance (44_collaborators_lifecycle.md R263; 95_test_vectors.md P4: "this is a duty of the host, not a
refusal"). -/
def Dutiful (s : State) : Input → Prop
  | .command w p c => p = .host ∧ ∀ i, decode c = .ok i → ∀ h ∈ hostPackets i, ∀ w' x, w' ≠ w →
      s.workers[w']? = some x → x.inFlight h = false
  | .put _ _ => True
  | .free _ => True

/-- The outcome is no model-level fault (60_exceptions.md R285). -/
def NoFault (o : Outcome) : Prop := ∀ f, o ≠ .fault f

/-- The tuple of the active instance. -/
def State.tuple? (s : State) : Option Espc := s.workers[s.active]?

/-! ## The frames of encapsulation -/

/-- The k-th `FILL` byte of a push of instance `w` that starts after `d` draws. The frames below take it as `f`. -/
def fillAt (w d k : Nat) : Byte := Config.fillByte w (d + k)

/-- The outer IPv4 header `O` of a frame of `len` bytes: five fields written, nine bytes `FILL` (42_encapsulation.md
R185, R196). -/
def outerHeader (x : Espc) (f : Nat → Byte) (len : Nat) : List Byte :=
  [0x45#8, f 1] ++ toBe16 (totalLength len) ++
    [f 4, f 5, f 6, f 7, f 8, 50#8, f 10, f 11] ++
    toBe32 x.tunSrc ++ toBe32 x.tunDst

/-- The ESP header: `SPI`, the `SEQ` bytes left as `FILL`, `IV` (R186, R190, R196). -/
def espHeader (x : Espc) (f : Nat → Byte) (iv : List Byte) : List Byte :=
  toBe32 x.saId ++ [f 24, f 25, f 26, f 27] ++ iv

/-- `T = P ++ PADB ++ [pad] ++ [P[9]]`, the plaintext of the ciphertext region (R196). -/
def innerPlaintext (p : List Byte) : List Byte :=
  p ++ paddingBytes (padLength p.length) ++ [BitVec.ofNat 8 (padLength p.length), p.getD 9 0]

/-- The twelve `FILL` bytes in the `auth` field of an in-flight frame (R196). -/
def authFill (f : Nat → Byte) (pad : Nat) : List Byte := (List.range 12).map (fun i => f (46 + pad + i))

/-- The frame of a pushed packet in flight: `E ++ O ++ SPIb ++ S ++ iv ++ T ++ f12` (R196). -/
def inFlightFrame (x : Espc) (f : Nat → Byte) (iv b : List Byte) : List Byte :=
  let p := b.drop 14
  b.take 14 ++ outerHeader x f (grownLength p.length) ++ espHeader x f iv ++ innerPlaintext p ++
    authFill f (padLength p.length)

/-- The completed frame: `E ++ O ++ SPIb ++ S ++ iv ++ C ++ A` (R196). -/
def completedFrame (x : Espc) (f : Nat → Byte) (iv b : List Byte) : List Byte :=
  let p := b.drop 14
  let ct := Config.aesCbcEnc x.encKey.toList iv (innerPlaintext p)
  b.take 14 ++ outerHeader x f (grownLength p.length) ++ espHeader x f iv ++ ct ++
    (Config.hmacSha1 x.authKey.toList (espHeader x f iv ++ ct)).take 12

/-- How many `FILL` bytes the push of a packet of `l` bytes draws: 44 at the head, `pad + 14` at the tail (R184). -/
def drawsOf (l : Nat) : Nat := 44 + (padLength l + 14)

/-! ## What a flush makes of the bytes of one slot's packet -/

/-- The packet's bytes after `SC.ENC` of the slot alone (41_crypto_contexts.md R158, R163). -/
def slotEncrypted (x : Espc) (sl : Slot) (b : List Byte) : List Byte :=
  splice b sl.ctOff
    (Config.aesCbcEnc x.encKey.toList (slice b sl.ivOff 16) (slice b sl.ctOff sl.ctLen))

/-- The packet's bytes after `SC.AUTH` of the slot alone and the write of the first 12 bytes of the digest (R159,
R166). -/
def slotAuthenticated (x : Espc) (sl : Slot) (b : List Byte) : List Byte :=
  splice b sl.adOff ((Config.hmacSha1 x.authKey.toList (slice b sl.auOff sl.auLen)).take 12)

/-- The packet's bytes after the flush: first encrypted, then authenticated (20_memory.md R63). -/
def slotCompleted (x : Espc) (sl : Slot) (b : List Byte) : List Byte :=
  slotAuthenticated x sl (slotEncrypted x sl b)

/-- The slots of a batch can be flushed: their views lie in their packets, their ciphertext regions are whole blocks, and
they name distinct packets (41_crypto_contexts.md R157, R163; 70_reset_and_hazards.md R316). -/
def BatchOk (m : Memory) (sls : List Slot) : Prop :=
  (∀ sl ∈ sls, Fits m sl ∧ sl.ctLen % Config.block = 0) ∧ (sls.map Slot.pkt).Nodup

/-- `m'` is `m` with `f` applied to the packet of each slot, and every other packet as it was. -/
def EachPacket (f : Slot → List Byte → List Byte) (sls : List Slot) (m m' : Memory) : Prop :=
  (∀ sl ∈ sls, ∀ b, m.get sl.pkt = some b → m'.get sl.pkt = some (f sl b)) ∧
    ∀ h, (∀ sl ∈ sls, sl.pkt ≠ h) → m'.get h = m.get h

/-- The backend calls of `Encrypt`: one multi-buffer call for a full batch, else one scalar call a slot (R158). -/
def encryptEvents (sls : List Slot) : List Event :=
  if sls.length = 8 then [.mbEnc] else sls.map (fun sl => .scEnc sl.pkt)

/-- The backend calls of `Authenticate` (R159). -/
def authEvents (sls : List Slot) : List Event :=
  if sls.length = 8 then [.mbHmac] else sls.map (fun sl => .scAuth sl.pkt)

/-- Byte `o` of packet `g` lies in the ciphertext region or the auth-destination view of one of the slots. -/
def InSlotBytes (sls : List Slot) (g : Handle) (o : Nat) : Prop :=
  ∃ sl ∈ sls, sl.pkt = g ∧
    ((sl.ctOff ≤ o ∧ o < sl.ctOff + sl.ctLen) ∨ (sl.adOff ≤ o ∧ o < sl.adOff + Config.authLen))

/-! ## What decapsulation computes of a frame -/

/-- The digest recomputed over the auth-covered region (43_decapsulation.md R215). -/
def espDigest (x : Espc) (b : List Byte) : List Byte :=
  Config.hmacSha1 x.authKey.toList (slice b 34 (b.length - 46))

/-- `MacOk` (R215). -/
def espMacOk (x : Espc) (b : List Byte) : Prop := (espDigest x b).take 12 = slice b (b.length - 12) 12

/-- The decrypted ciphertext region (R218). -/
def espPlain (x : Espc) (b : List Byte) : List Byte :=
  Config.aesCbcDec x.encKey.toList (slice b 42 16) (slice b 58 (b.length - 70))

/-- The decrypted `paddingLen`: the byte before the last of the region (R219). -/
def espPadLen (x : Espc) (b : List Byte) : Nat := ((espPlain x b).getD (b.length - 72) 0).toNat

/-! ## Where the storing operations store -/

/-- The packet, the address and the width in bytes of the field that a codec or IPv4 write stores to, computed as its
meaning computes it (40_wire_codec.md R123 to R134, 44_collaborators_lifecycle.md R250 to R258). -/
def fieldStored : Instr → Option (Handle × Nat × Nat)
  | .hdrWrSpi hv _ => some (hv.h, hv.off + 0, 4)
  | .hdrWrSeq hv _ => some (hv.h, hv.off + 4, 4)
  | .hdrWrIv hv _ => some (hv.h, hv.off + 8, 16)
  | .trlWrPadlen tv _ => some (tv.h, tv.off + 0, 1)
  | .trlWrNext tv _ => some (tv.h, tv.off + 1, 1)
  | .trlWrAuth tv _ => some (tv.h, tv.off + 2, 12)
  | .ip4WrVihl h base _ => some (h, base + 0, 1)
  | .ip4WrTotlen h base _ => some (h, base + 2, 2)
  | .ip4WrProto h base _ => some (h, base + 9, 1)
  | .ip4WrSrc h base _ => some (h, base + 12, 4)
  | .ip4WrDst h base _ => some (h, base + 16, 4)
  | _ => none

/-- The operations that only build a view or read packet bytes or a length. -/
def readsOnly : Instr → Bool
  | .hdrView _ _ => true
  | .hdrRdSpi _ => true
  | .hdrRdSeq _ => true
  | .hdrRdIv _ => true
  | .trlView _ _ => true
  | .trlRdPadlen _ => true
  | .trlRdNext _ => true
  | .trlRdAuth _ => true
  | .bufRange _ _ _ => true
  | .bufLen _ => true
  | .ip4RdVihl _ _ => true
  | .ip4RdTotlen _ _ => true
  | .ip4RdProto _ _ => true
  | .ip4RdSrc _ _ => true
  | .ip4RdDst _ _ => true
  | _ => false

/-- The operations that are accepted only while `PHASE = Ready`: `DESTROY`, the two pipelines, and the two crypto
contexts, which are keyed by the SA (10_state.md R21, 41_crypto_contexts.md R150; entry 12). -/
def needsReady : Op → Bool
  | .destroy => true
  | .scEnc => true
  | .scDec => true
  | .scAuth => true
  | .vcReg => true
  | .vcEncrypt => true
  | .vcAuth => true
  | .vcFlush => true
  | .encPush => true
  | .encEnd => true
  | .dec => true
  | _ => false

/-- The packet an operation reads or writes first, for the operations that take a handle: the pipelines, the codec, the
scalar context, the buffer provider and the IPv4 accessor. A partial block is dropped by `SC.ENC` and `SC.DEC` before the
packet is looked up (41_crypto_contexts.md R151, R152). -/
def packetNamed : Instr → Option Handle
  | .encPush h _ => some h
  | .dec h => some h
  | .hdrView h _ => some h
  | .hdrRdSpi hv => some hv.h
  | .hdrRdSeq hv => some hv.h
  | .hdrRdIv hv => some hv.h
  | .trlView h _ => some h
  | .trlRdPadlen tv => some tv.h
  | .trlRdNext tv => some tv.h
  | .trlRdAuth tv => some tv.h
  | .scEnc _ d => if d.n % Config.block = 0 then some d.h else none
  | .scDec _ d => if d.n % Config.block = 0 then some d.h else none
  | .scAuth d => some d.h
  | .bufGrowHead h _ => some h
  | .bufGrowTail h _ => some h
  | .bufShrinkHead h _ => some h
  | .bufShrinkTail h _ => some h
  | .bufRange h _ _ => some h
  | .bufLen h => some h
  | .ip4RdVihl h _ => some h
  | .ip4RdTotlen h _ => some h
  | .ip4RdProto h _ => some h
  | .ip4RdSrc h _ => some h
  | .ip4RdDst h _ => some h
  | i => (fieldStored i).map Prod.fst

/-- The operation answers `v`, whatever else it does: the result output of the next state's active tuple. -/
def Answers (o : Outcome) (v : Value) : Prop := ∃ t x, o = .next t ∧ t.tuple? = some x ∧ x.result = v

/-! ## States that differ only in `TRACE` -/

/-- `s` with every `TRACE` emptied (10_state.md R37). -/
def State.untraced (s : State) : State := { s with workers := s.workers.map (fun x => { x with trace := [] }) }

/-- Two outcomes that differ at most in `TRACE`. -/
def SameButTrace : Outcome → Outcome → Prop
  | .next s, .next t => s.untraced = t.untraced
  | .fault a, .fault b => a = b
  | .refused a, .refused b => a = b
  | _, _ => False

end Sys2Proof.Machine
end

