-- ==== Sys2Proof/Certificates/Slice0/Obligations.lean ====
section
/-! DEFINITION. The statements for the provers. In them, `s.tuple? = some x` says that `x` is the ESPC tuple the command
is issued to, and `s.withCtx ⟨x', m', s.active⟩` is the state `s` in which that tuple is `x'` and the packet store is
`m'`, and nothing else has changed (the last component only names the instance). -/

open Sys2Proof Sys2Proof.Machine

/-! ### The command port and the codes -/

/-- A step serves the next input. A command on a port that accepts it runs the decoded operation, on the instance it
names (30_encoding.md R95, R100; 20_memory.md R56); with no input nothing happens (60_exceptions.md R279); between
commands the owner of a packet supplies, replaces or takes away a buffer that is not in flight (20_memory.md R60,
70_reset_and_hazards.md R314), and nothing else changes. The inputs, the active register, the second port, and `put` and
`free` with their refusals are the model's own (entries 2, 3, 4, 17). -/
def Obligations.StepServesTheNextInput : Prop :=
  (∀ s w p c rest i, s.inputs = .command w p c :: rest → decode c = .ok i → portAccepts p i = true →
    step s = exec i { s with active := w, inputs := rest }) ∧
  (∀ s, s.inputs = [] → step s = .next s) ∧
  (∀ s h b rest, s.inputs = .put h b :: rest →
    (s.inFlightAnywhere h = true → step s = .refused .inFlight) ∧
    (s.inFlightAnywhere h = false → Config.maxLen < b.length → step s = .refused .bufferTooLong) ∧
    (s.inFlightAnywhere h = false → b.length ≤ Config.maxLen → ∃ t, step s = .next t ∧ t.mem.get h = some b ∧
      (∀ g, g ≠ h → t.mem.get g = s.mem.get g) ∧ t.workers = s.workers ∧ t.active = s.active ∧ t.inputs = rest)) ∧
  (∀ s h rest, s.inputs = .free h :: rest →
    (s.inFlightAnywhere h = true → step s = .refused .inFlight) ∧
    (s.inFlightAnywhere h = false → s.mem.get h = none → step s = .refused .unknownHandle) ∧
    (s.inFlightAnywhere h = false → (s.mem.get h).isSome = true → ∃ t, step s = .next t ∧
      t.mem.get h = none ∧ (∀ g, g ≠ h → t.mem.get g = s.mem.get g) ∧ t.workers = s.workers ∧ t.active = s.active ∧
      t.inputs = rest))

/-- Every well-formed operation is decoded from its encoding, whatever its operands (30_encoding.md R87, R100). The
form of the arguments is the model's own (entry 1). -/
def Obligations.DecodeUndoesEncode : Prop :=
  ∀ i : Instr, i.wellFormed = true → decode (encode i) = .ok i

/-- Whatever the decoder accepts is a well-formed operation, and the command is its encoding, word and arguments. The
lengths are those of 40_wire_codec.md R127, R134 and 41_crypto_contexts.md R155; that a command with other lengths is
not accepted (entry 16) and the form of the arguments (entry 1) are the model's own. -/
def Obligations.EncodeUndoesDecode : Prop :=
  ∀ (c : Command) (i : Instr), decode c = .ok i → i.wellFormed = true ∧ encode i = c

/-- One word of each family of the operation map, written out (30_encoding.md R100). -/
def Obligations.TableWordsDecode : Prop :=
  decode ⟨0b00000010#8, []⟩ = .ok .destroy ∧
  decode ⟨0b00010001#8, [.view ⟨3, 34⟩]⟩ = .ok (.hdrRdSpi ⟨3, 34⟩) ∧
  decode ⟨0b00100010#8, [.view ⟨3, 104⟩, .u8 15#8]⟩ = .ok (.trlWrPadlen ⟨3, 104⟩ 15#8) ∧
  decode ⟨0b00110010#8, [.region ⟨3, 34, 72⟩]⟩ = .ok (.scAuth ⟨3, 34, 72⟩) ∧
  decode ⟨0b01000001#8, [.nat 8]⟩ = .ok (.vcEncrypt 8) ∧
  decode ⟨0b01010001#8, []⟩ = .ok .encEnd ∧
  decode ⟨0b01100000#8, [.handle 3]⟩ = .ok (.dec 3) ∧
  decode ⟨0b01110000#8, [.handle 3, .nat 44]⟩ = .ok (.bufGrowHead 3 44) ∧
  decode ⟨0b10001000#8, [.handle 3, .nat 14]⟩ = .ok (.ip4RdDst 3 14)

/-- A code that is none of the 45, a code of class `I` or `X` on the host port, and a host command in a `PHASE` other than
`Ready` (but `INIT` and `CLONE` while `Unconstructed`) are refused (30_encoding.md R95). -/
def Obligations.UnacceptedCommandsAreRefused : Prop :=
  ∀ s w p c rest, s.inputs = .command w p c :: rest →
    ((∀ op : Op, op.row.code ≠ c.word) → ∃ r, step s = .refused r) ∧
    ((∃ op : Op, op.row.code = c.word ∧ op.row.cls ≠ .H) → p = .host → ∃ r, step s = .refused r) ∧
    (∀ i x, decode c = .ok i → i.cls = .H → s.workers[w]? = some x → x.phase ≠ .ready →
      (x.phase = .unconstructed → i.op ≠ .init ∧ i.op ≠ .clone) → ∃ r, step s = .refused r)

/-! ### Reset and invariants -/

/-- What the spec gives of the machine right after reset (10_state.md R38): `N_WORKERS` tuples, each `Unconstructed`
with an empty batch, both state machines `Idle`, `OUT` and `TRACE` empty. -/
def Obligations.ResetTuples : Prop :=
  State.reset.workers.length = Config.nWorkers ∧
  ∀ x ∈ State.reset.workers, x.phase = .unconstructed ∧ x.count = 0 ∧ x.batch = [] ∧ x.encState = .idle ∧
    x.decState = .idle ∧ x.out = [] ∧ x.trace = []

/-- Both invariants hold of the machine after reset. -/
def Obligations.InvariantsHoldAtReset : Prop := MachineInv State.reset ∧ HostInv State.reset

/-- Every step, from any state, keeps the invariant: canonical packet store, packets of at most `MAX_LEN` bytes,
`COUNT <= 8`, both state machines `Idle` between steps, SPI 1234 in a `Ready` tuple, whole blocks in the batch. -/
def Obligations.StepKeepsInv : Prop := ∀ s t, MachineInv s → step s = .next t → MachineInv t

/-- While the host keeps its duties, no input of the host ends in a model-level fault (60_exceptions.md R285: "not
reachable from the host port"), and `COUNT <= 7` and the bounds of the in-flight views hold again afterwards. That
`put` and `free` are inputs, and duties are stated of each input, is the model's own (entries 2, 17, 20). -/
def Obligations.DutifulHostNeverFaults : Prop :=
  ∀ s, HostInv s → (∀ inp rest, s.inputs = inp :: rest → Dutiful s inp) →
    NoFault (step s) ∧ ∀ t, step s = .next t → HostInv t

/-! ### Lifecycle -/

/-- `INIT` with keys of the right lengths and the primitives available builds the SA of an `Unconstructed` instance; in
any other `PHASE`, so a second time, it is refused (44_collaborators_lifecycle.md R259). That slots, verdicts, result
and the count of draws stay as they are is the model's choice (entry 25). -/
def Obligations.InitConstructs : Prop :=
  ∀ s x k a src dst, s.tuple? = some x →
    (x.phase = .unconstructed → k.length = 16 → a.length = 20 →
      ∃ kv av, kv.toList = k ∧ av.toList = a ∧
        exec (.init k a src dst true) s = .next (s.withCtx ⟨{ x with
          phase := .ready, saId := 1234#32, encKey := kv, authKey := av, tunSrc := src, tunDst := dst, count := 0,
          encState := .idle, decState := .idle, out := [], trace := [] }, s.mem, s.active⟩)) ∧
    (x.phase ≠ .unconstructed → ∀ ok, exec (.init k a src dst ok) s = .refused .wrongPhase)

/-- `INIT` with a key of the wrong length or without the primitives is the fatal `ConstructionError`, code 255: `PHASE
<- Halted`, and a halted instance refuses every later command (60_exceptions.md R278). That the error is recorded
among the verdicts and no other register changes is the model's choice (entries 9, 24). -/
def Obligations.ConstructionErrorHalts : Prop :=
  (∀ s x k a src dst ok, s.tuple? = some x → x.phase = .unconstructed →
    (k.length ≠ 16 ∨ a.length ≠ 20 ∨ ok = false) →
      exec (.init k a src dst ok) s = .next (s.withCtx ⟨{ x with
        phase := .halted, verdicts := x.verdicts ++ [.constructionError] }, s.mem, s.active⟩)) ∧
  Verdict.code .constructionError = 255 ∧
  (∀ s x i, s.tuple? = some x → x.phase = .halted → i.cls = .H → ∃ r, exec i s = .refused r)

/-- `CLONE from=w'` copies the SA and the tunnel endpoints of a `Ready` instance into an `Unconstructed` one and
nothing else, and leaves the source as it is; otherwise it is refused (R260). That slots, verdicts and result stay as
they are is the model's choice (entry 25). -/
def Obligations.CloneCopiesConfiguration : Prop :=
  ∀ s x w' y, s.tuple? = some x → s.workers[w']? = some y →
    (x.phase = .unconstructed → y.phase = .ready → ∃ t, exec (.clone w') s = .next t ∧
      t = s.withCtx ⟨{ x with
        phase := .ready, saId := y.saId, encKey := y.encKey, authKey := y.authKey, tunSrc := y.tunSrc,
        tunDst := y.tunDst, count := 0, encState := .idle, decState := .idle, out := [], trace := [] },
        s.mem, s.active⟩ ∧ t.workers[w']? = some y) ∧
    (¬ (x.phase = .unconstructed ∧ y.phase = .ready) → exec (.clone w') s = .refused .wrongPhase)

/-- `DESTROY` changes nothing, and is accepted only while `Ready` (R261). -/
def Obligations.DestroyChangesNothing : Prop :=
  ∀ s x, s.tuple? = some x →
    (x.phase = .ready → exec .destroy s = .next s) ∧ (x.phase ≠ .ready → exec .destroy s = .refused .wrongPhase)

/-! ### The wire codec -/

/-- `HDR.VIEW` and `TRL.VIEW`: 24 and 14 bytes in the buffer or the fault `CodecBounds` (40_wire_codec.md R121, R128,
R135); nothing is read or written. That a result is kept in the tuple is the model's own (entry 9). -/
def Obligations.ViewsNeedTheirBytes : Prop :=
  ∀ s x h off b, s.tuple? = some x → s.mem.get h = some b →
    (off + 24 ≤ b.length → exec (.hdrView h off) s
      = .next (s.withCtx ⟨{ x with result := .headerView ⟨h, off⟩ }, s.mem, s.active⟩)) ∧
    (b.length < off + 24 → exec (.hdrView h off) s = .fault .codecBounds) ∧
    (off + 14 ≤ b.length → exec (.trlView h off) s
      = .next (s.withCtx ⟨{ x with result := .trailerView ⟨h, off⟩ }, s.mem, s.active⟩)) ∧
    (b.length < off + 14 → exec (.trlView h off) s = .fault .codecBounds)

/-- The three reads of a header view and the three of a trailer view give the field's value and change nothing else
(R122, R124, R126, R129, R131, R133). That a result is kept in the tuple is the model's own (entry 9). -/
def Obligations.FieldReads : Prop :=
  ∀ s x h off b, s.tuple? = some x → s.mem.get h = some b →
    (off + 24 ≤ b.length →
      exec (.hdrRdSpi ⟨h, off⟩) s
        = .next (s.withCtx ⟨{ x with result := .u32 (be32 (slice b off 4)) }, s.mem, s.active⟩) ∧
      exec (.hdrRdSeq ⟨h, off⟩) s
        = .next (s.withCtx ⟨{ x with result := .u32 (be32 (slice b (off + 4) 4)) }, s.mem, s.active⟩) ∧
      exec (.hdrRdIv ⟨h, off⟩) s
        = .next (s.withCtx ⟨{ x with result := .bytes (slice b (off + 8) 16) }, s.mem, s.active⟩)) ∧
    (off + 14 ≤ b.length →
      exec (.trlRdPadlen ⟨h, off⟩) s
        = .next (s.withCtx ⟨{ x with result := .u8 (b.getD off 0) }, s.mem, s.active⟩) ∧
      exec (.trlRdNext ⟨h, off⟩) s
        = .next (s.withCtx ⟨{ x with result := .u8 (b.getD (off + 1) 0) }, s.mem, s.active⟩) ∧
      exec (.trlRdAuth ⟨h, off⟩) s
        = .next (s.withCtx ⟨{ x with result := .bytes (slice b (off + 2) 12) }, s.mem, s.active⟩))

/-- The three writes of a header view and the three of a trailer view replace the bytes of their field (R123, R125,
R127, R130, R132, R134). -/
def Obligations.FieldWrites : Prop :=
  ∀ s x h off b, s.tuple? = some x → s.mem.get h = some b →
    (off + 24 ≤ b.length →
      (∀ v, exec (.hdrWrSpi ⟨h, off⟩ v) s
        = .next (s.withCtx ⟨x, s.mem.put h (splice b off (toBe32 v)), s.active⟩)) ∧
      (∀ v, exec (.hdrWrSeq ⟨h, off⟩ v) s
        = .next (s.withCtx ⟨x, s.mem.put h (splice b (off + 4) (toBe32 v)), s.active⟩)) ∧
      (∀ iv, iv.length = 16 → exec (.hdrWrIv ⟨h, off⟩ iv) s
        = .next (s.withCtx ⟨x, s.mem.put h (splice b (off + 8) iv), s.active⟩))) ∧
    (off + 14 ≤ b.length →
      (∀ v, exec (.trlWrPadlen ⟨h, off⟩ v) s
        = .next (s.withCtx ⟨x, s.mem.put h (splice b off [v]), s.active⟩)) ∧
      (∀ v, exec (.trlWrNext ⟨h, off⟩ v) s
        = .next (s.withCtx ⟨x, s.mem.put h (splice b (off + 1) [v]), s.active⟩)) ∧
      (∀ a, a.length = 12 → exec (.trlWrAuth ⟨h, off⟩ a) s
        = .next (s.withCtx ⟨x, s.mem.put h (splice b (off + 2) a), s.active⟩)))

/-- An access of the codec, of the IPv4 accessor or of the scalar context past the end of the packet is the fault
`CodecBounds`, never a value (20_memory.md R67, 40_wire_codec.md R135, 41_crypto_contexts.md R150,
44_collaborators_lifecycle.md R248). For the IPv4 accessor that is any access whose 20-byte header ends past it. That the
scalar context is tried while `Ready` is the model's reading (entry 12). -/
def Obligations.AccessPastTheEndFaults : Prop :=
  (∀ s x i h off n b, s.tuple? = some x → i.wellFormed = true → fieldStored i = some (h, off, n) →
    s.mem.get h = some b → b.length < off + n → exec i s = .fault .codecBounds) ∧
  (∀ s x h off b, s.tuple? = some x → s.mem.get h = some b →
    (b.length < off + 4 → exec (.hdrRdSpi ⟨h, off⟩) s = .fault .codecBounds) ∧
    (b.length < off + 8 → exec (.hdrRdSeq ⟨h, off⟩) s = .fault .codecBounds) ∧
    (b.length < off + 24 → exec (.hdrRdIv ⟨h, off⟩) s = .fault .codecBounds) ∧
    (b.length < off + 1 → exec (.trlRdPadlen ⟨h, off⟩) s = .fault .codecBounds) ∧
    (b.length < off + 2 → exec (.trlRdNext ⟨h, off⟩) s = .fault .codecBounds) ∧
    (b.length < off + 14 → exec (.trlRdAuth ⟨h, off⟩) s = .fault .codecBounds) ∧
    (b.length < off + 20 → exec (.ip4RdVihl h off) s = .fault .codecBounds ∧
      exec (.ip4RdTotlen h off) s = .fault .codecBounds ∧ exec (.ip4RdProto h off) s = .fault .codecBounds ∧
      exec (.ip4RdSrc h off) s = .fault .codecBounds ∧ exec (.ip4RdDst h off) s = .fault .codecBounds)) ∧
  (∀ s x h base b, s.tuple? = some x → s.mem.get h = some b → b.length < base + 20 →
    (∀ v, exec (.ip4WrVihl h base v) s = .fault .codecBounds) ∧
    (∀ v, exec (.ip4WrTotlen h base v) s = .fault .codecBounds) ∧
    (∀ v, exec (.ip4WrProto h base v) s = .fault .codecBounds) ∧
    (∀ v, exec (.ip4WrSrc h base v) s = .fault .codecBounds) ∧
    (∀ v, exec (.ip4WrDst h base v) s = .fault .codecBounds)) ∧
  (∀ s x d b, s.tuple? = some x → x.phase = .ready → s.mem.get d.h = some b → b.length < d.off + d.n →
    exec (.scAuth d) s = .fault .codecBounds ∧
    ∀ iv, iv.length = 16 → d.n % 16 = 0 →
      exec (.scEnc iv d) s = .fault .codecBounds ∧ exec (.scDec iv d) s = .fault .codecBounds)

/-- FRAME of the eleven field writes (codec and IPv4): every byte of every packet outside the field stored to is as
before, no packet changes its length, and nothing but the packet store changes (R136, R248). -/
def Obligations.FieldWriteFrame : Prop :=
  ∀ i s t h off n, i.wellFormed = true → fieldStored i = some (h, off, n) → exec i s = .next t →
    (∀ g o, (g ≠ h ∨ o < off ∨ off + n ≤ o) → t.mem.byteAt g o = s.mem.byteAt g o) ∧
    (∀ g, (t.mem.get g).map List.length = (s.mem.get g).map List.length) ∧
    t.workers = s.workers ∧ t.active = s.active ∧ t.inputs = s.inputs

/-- FRAME of the operations that only read: the packet store, every tuple but for the result output, and everything
else are as before (20_memory.md R57). That a result is kept in the tuple is the model's own (entry 9). -/
def Obligations.ReadOnlyFrame : Prop :=
  ∀ i s t, readsOnly i = true → exec i s = .next t →
    ∃ x v, s.tuple? = some x ∧ t = s.withCtx ⟨{ x with result := v }, s.mem, s.active⟩

/-- A read of a field after a write of it gives the value written (40_wire_codec.md R137; for the IPv4 fields
44_collaborators_lifecycle.md R248 to R258 and 00_scope.md R11; the field offsets are the spec's general knowledge,
entry 18). The read's answer is the result output, the model's own (entry 9). -/
def Obligations.FieldReadAfterWrite : Prop :=
  ∀ s t h off,
    (∀ v, exec (.hdrWrSpi ⟨h, off⟩ v) s = .next t → Answers (exec (.hdrRdSpi ⟨h, off⟩) t) (.u32 v)) ∧
    (∀ v, exec (.hdrWrSeq ⟨h, off⟩ v) s = .next t → Answers (exec (.hdrRdSeq ⟨h, off⟩) t) (.u32 v)) ∧
    (∀ v, exec (.hdrWrIv ⟨h, off⟩ v) s = .next t → Answers (exec (.hdrRdIv ⟨h, off⟩) t) (.bytes v)) ∧
    (∀ v, exec (.trlWrPadlen ⟨h, off⟩ v) s = .next t → Answers (exec (.trlRdPadlen ⟨h, off⟩) t) (.u8 v)) ∧
    (∀ v, exec (.trlWrNext ⟨h, off⟩ v) s = .next t → Answers (exec (.trlRdNext ⟨h, off⟩) t) (.u8 v)) ∧
    (∀ v, exec (.trlWrAuth ⟨h, off⟩ v) s = .next t → Answers (exec (.trlRdAuth ⟨h, off⟩) t) (.bytes v)) ∧
    (∀ v, exec (.ip4WrVihl h off v) s = .next t → Answers (exec (.ip4RdVihl h off) t) (.u8 v)) ∧
    (∀ v, exec (.ip4WrTotlen h off v) s = .next t → Answers (exec (.ip4RdTotlen h off) t) (.u16 v)) ∧
    (∀ v, exec (.ip4WrProto h off v) s = .next t → Answers (exec (.ip4RdProto h off) t) (.u8 v)) ∧
    (∀ v, exec (.ip4WrSrc h off v) s = .next t → Answers (exec (.ip4RdSrc h off) t) (.u32 v)) ∧
    (∀ v, exec (.ip4WrDst h off v) s = .next t → Answers (exec (.ip4RdDst h off) t) (.u32 v))

/-- A write to one field of a view leaves every other field of the view as it was (R137). A read's answer is the
result output, the model's own (entry 9). -/
def Obligations.FieldWriteKeepsOtherFields : Prop :=
  ∀ s t h off a,
    (∀ v, exec (.hdrWrSpi ⟨h, off⟩ v) s = .next t →
      (Answers (exec (.hdrRdSeq ⟨h, off⟩) s) a → Answers (exec (.hdrRdSeq ⟨h, off⟩) t) a) ∧
      (Answers (exec (.hdrRdIv ⟨h, off⟩) s) a → Answers (exec (.hdrRdIv ⟨h, off⟩) t) a)) ∧
    (∀ v, exec (.hdrWrSeq ⟨h, off⟩ v) s = .next t →
      (Answers (exec (.hdrRdSpi ⟨h, off⟩) s) a → Answers (exec (.hdrRdSpi ⟨h, off⟩) t) a) ∧
      (Answers (exec (.hdrRdIv ⟨h, off⟩) s) a → Answers (exec (.hdrRdIv ⟨h, off⟩) t) a)) ∧
    (∀ v, exec (.hdrWrIv ⟨h, off⟩ v) s = .next t →
      (Answers (exec (.hdrRdSpi ⟨h, off⟩) s) a → Answers (exec (.hdrRdSpi ⟨h, off⟩) t) a) ∧
      (Answers (exec (.hdrRdSeq ⟨h, off⟩) s) a → Answers (exec (.hdrRdSeq ⟨h, off⟩) t) a)) ∧
    (∀ v, exec (.trlWrPadlen ⟨h, off⟩ v) s = .next t →
      (Answers (exec (.trlRdNext ⟨h, off⟩) s) a → Answers (exec (.trlRdNext ⟨h, off⟩) t) a) ∧
      (Answers (exec (.trlRdAuth ⟨h, off⟩) s) a → Answers (exec (.trlRdAuth ⟨h, off⟩) t) a)) ∧
    (∀ v, exec (.trlWrNext ⟨h, off⟩ v) s = .next t →
      (Answers (exec (.trlRdPadlen ⟨h, off⟩) s) a → Answers (exec (.trlRdPadlen ⟨h, off⟩) t) a) ∧
      (Answers (exec (.trlRdAuth ⟨h, off⟩) s) a → Answers (exec (.trlRdAuth ⟨h, off⟩) t) a)) ∧
    (∀ v, exec (.trlWrAuth ⟨h, off⟩ v) s = .next t →
      (Answers (exec (.trlRdPadlen ⟨h, off⟩) s) a → Answers (exec (.trlRdPadlen ⟨h, off⟩) t) a) ∧
      (Answers (exec (.trlRdNext ⟨h, off⟩) s) a → Answers (exec (.trlRdNext ⟨h, off⟩) t) a))

/-! ### The scalar crypto context -/

/-- `SC.ENC` of a whole number of blocks in the buffer: the region encrypted in place under `SA.encKey` and the given
IV, one event, nothing else (41_crypto_contexts.md R151). `PHASE = Ready` as the precondition is the model's reading
(entry 12). -/
def Obligations.ScEncEncryptsInPlace : Prop :=
  ∀ s x iv d b, s.tuple? = some x → x.phase = .ready → iv.length = 16 → s.mem.get d.h = some b →
    d.n % 16 = 0 → d.off + d.n ≤ b.length →
    exec (.scEnc iv d) s = .next (s.withCtx ⟨{ x with trace := x.trace ++ [.scEnc d.h] },
      s.mem.put d.h (splice b d.off (Config.aesCbcEnc x.encKey.toList iv (slice b d.off d.n))), s.active⟩)

/-- `SC.DEC`, likewise (R152). `PHASE = Ready` as the precondition is the model's reading (entry 12). -/
def Obligations.ScDecDecryptsInPlace : Prop :=
  ∀ s x iv d b, s.tuple? = some x → x.phase = .ready → iv.length = 16 → s.mem.get d.h = some b →
    d.n % 16 = 0 → d.off + d.n ≤ b.length →
    exec (.scDec iv d) s = .next (s.withCtx ⟨{ x with trace := x.trace ++ [.scDec d.h] },
      s.mem.put d.h (splice b d.off (Config.aesCbcDec x.encKey.toList iv (slice b d.off d.n))), s.active⟩)

/-- `SC.AUTH` of any region in the buffer: the 20-byte digest under `SA.authKey`, one event, no packet byte changed
(R153). That a result is kept in the tuple is the model's own (entry 9). `PHASE = Ready` as the precondition is the
model's reading (entry 12). -/
def Obligations.ScAuthDigests : Prop :=
  ∀ s x d b, s.tuple? = some x → x.phase = .ready → s.mem.get d.h = some b → d.off + d.n ≤ b.length →
    (Config.hmacSha1 x.authKey.toList (slice b d.off d.n)).length = 20 ∧
    exec (.scAuth d) s = .next (s.withCtx ⟨{ x with
      trace := x.trace ++ [.scAuth d.h],
      result := .bytes (Config.hmacSha1 x.authKey.toList (slice b d.off d.n)) }, s.mem, s.active⟩)

/-- `SC.ENC` and `SC.DEC` of a region that is not a whole number of blocks: `InvalidBlockLength`, no byte written, no
event (R151, R152; 60_exceptions.md R272). That the verdict of an operation performed by itself is recorded like a
command's is the model's choice (entry 23). -/
def Obligations.PartialBlockIsDropped : Prop :=
  ∀ s x iv d, s.tuple? = some x → x.phase = .ready → iv.length = 16 → d.n % 16 ≠ 0 →
    exec (.scEnc iv d) s = .next (s.withCtx ⟨{ x with
      verdicts := x.verdicts ++ [.drop .invalidBlockLength d.h] }, s.mem, s.active⟩) ∧
    exec (.scDec iv d) s = .next (s.withCtx ⟨{ x with
      verdicts := x.verdicts ++ [.drop .invalidBlockLength d.h] }, s.mem, s.active⟩)

/-- FRAME of the in-place ciphers: every byte outside the region is as before, no length changes, and of the tuple only
`TRACE` and the verdicts can change (R150 to R153). -/
def Obligations.CipherFrame : Prop :=
  ∀ s t iv d, (exec (.scEnc iv d) s = .next t ∨ exec (.scDec iv d) s = .next t) →
    (∀ g o, (g ≠ d.h ∨ o < d.off ∨ d.off + d.n ≤ o) → t.mem.byteAt g o = s.mem.byteAt g o) ∧
    (∀ g, (t.mem.get g).map List.length = (s.mem.get g).map List.length) ∧
    ∃ x tr vs, s.tuple? = some x ∧ t = s.withCtx ⟨{ x with trace := tr, verdicts := vs }, t.mem, s.active⟩

/-- `SC.DEC` after `SC.ENC` with the same IV and region, and the other way round, restores every packet (R155 (c),
R154). -/
def Obligations.CipherRoundTrip : Prop :=
  ∀ s t u iv d, d.n % 16 = 0 →
    ((exec (.scEnc iv d) s = .next t → exec (.scDec iv d) t = .next u → ∀ g, u.mem.get g = s.mem.get g) ∧
     (exec (.scDec iv d) s = .next t → exec (.scEnc iv d) t = .next u → ∀ g, u.mem.get g = s.mem.get g))

/-! ### The vector crypto context -/

/-- `VC.REG (s)`: the slot is written at index `COUNT` and `COUNT` grows by one, or the contract is violated
(41_crypto_contexts.md R157). -/
def Obligations.VcRegRegisters : Prop :=
  ∀ s x sl, s.tuple? = some x → x.phase = .ready →
    (x.count < 8 → sl.ctLen % 16 = 0 → exec (.vcReg sl) s
      = .next (s.withCtx ⟨{ x with slots := x.slots.setIfInBounds x.count sl, count := x.count + 1 },
        s.mem, s.active⟩)) ∧
    (8 ≤ x.count ∨ sl.ctLen % 16 ≠ 0 → exec (.vcReg sl) s = .fault .contractViolation)

/-- `count = 0` is a no-op for `Encrypt` and `Authenticate` (R164). -/
def Obligations.CountZeroIsNoOp : Prop :=
  ∀ s x, s.tuple? = some x → x.phase = .ready →
    exec (.vcEncrypt 0) s = .next s ∧ exec (.vcAuth 0) s = .next s

/-- `count > VECTOR`, and a count that would read a slot at `i >= COUNT`, are contract violations (R165;
70_reset_and_hazards.md R318; the second is the model's reading, entry 13). -/
def Obligations.CountOutsideTheBatchFaults : Prop :=
  ∀ s x n, s.tuple? = some x → x.phase = .ready → 8 < n ∨ (0 < n ∧ x.count < n) →
    exec (.vcEncrypt n) s = .fault .contractViolation ∧ exec (.vcAuth n) s = .fault .contractViolation

/-- `Encrypt` over the first `n` slots: each slot's packet has its ciphertext region encrypted in place, every other
packet is as before, and the path taken depends on `n = 8` alone (R158, R167). -/
def Obligations.VcEncryptEncryptsEachSlot : Prop :=
  ∀ s x n, s.tuple? = some x → x.phase = .ready → n ≤ x.count → n ≤ 8 → BatchOk s.mem (x.slots.toList.take n) →
    ∃ m', EachPacket (slotEncrypted x) (x.slots.toList.take n) s.mem m' ∧
      exec (.vcEncrypt n) s = .next (s.withCtx ⟨{ x with
        trace := x.trace ++ encryptEvents (x.slots.toList.take n) }, m', s.active⟩)

/-- `Authenticate` over the first `n` slots: each slot's packet has the first 12 bytes of its own digest written at its
auth-destination view, every other packet is as before (R159, R166, R167). -/
def Obligations.VcAuthAuthenticatesEachSlot : Prop :=
  ∀ s x n, s.tuple? = some x → x.phase = .ready → n ≤ x.count → n ≤ 8 → BatchOk s.mem (x.slots.toList.take n) →
    ∃ m', EachPacket (slotAuthenticated x) (x.slots.toList.take n) s.mem m' ∧
      exec (.vcAuth n) s = .next (s.withCtx ⟨{ x with
        trace := x.trace ++ authEvents (x.slots.toList.take n) }, m', s.active⟩)

/-- `VC.FLUSH`: `Encrypt` then `Authenticate` over the whole batch, the handles emitted in slot order, `COUNT = 0`
(R160; 20_memory.md R61, R63). -/
def Obligations.VcFlushCompletesTheBatch : Prop :=
  ∀ s x, s.tuple? = some x → x.phase = .ready → x.count ≤ 8 → BatchOk s.mem x.batch →
    ∃ m', EachPacket (slotCompleted x) x.batch s.mem m' ∧
      exec .vcFlush s = .next (s.withCtx ⟨{ x with
        count := 0, out := x.out ++ x.batch.map Slot.pkt,
        trace := x.trace ++ encryptEvents x.batch ++ authEvents x.batch }, m', s.active⟩)

/-- Scalar/vector equivalence: for every batch of 1 to 8 slots on distinct packets, the flush leaves in every slot's
packet the bytes that `SC.ENC`, `SC.AUTH` and the write of the first 12 digest bytes leave when run on that slot
alone, from the same state (R163). -/
def Obligations.VectorAndScalarPathsAgree : Prop :=
  ∀ s x t, s.tuple? = some x → x.phase = .ready → 1 ≤ x.count → x.count ≤ 8 → BatchOk s.mem x.batch →
    exec .vcFlush s = .next t → ∀ sl ∈ x.batch, ∀ b, s.mem.get sl.pkt = some b →
      ∃ u v b₁ d, exec (.scEnc (slice b sl.ivOff 16) ⟨sl.pkt, sl.ctOff, sl.ctLen⟩) s = .next u ∧
        exec (.scAuth ⟨sl.pkt, sl.auOff, sl.auLen⟩) u = .next v ∧ v.mem.get sl.pkt = some b₁ ∧
        Answers (exec (.scAuth ⟨sl.pkt, sl.auOff, sl.auLen⟩) u) (.bytes d) ∧
        t.mem.get sl.pkt = some (splice b₁ sl.adOff (d.take 12))

/-- `MB.ENC`: with exactly 8 lanes, each lane the cipher of its own IV and data; else a contract violation (R161; 93
U12). That a result is kept in the tuple is the model's own (entry 9). The contract violation is the model's reading
(entry 15). -/
def Obligations.MbEncLanes : Prop :=
  ∀ s x key ivs xs, s.tuple? = some x → (Instr.mbEnc key ivs xs).wellFormed = true →
    (ivs.length = 8 → xs.length = 8 → exec (.mbEnc key ivs xs) s
      = .next (s.withCtx ⟨{ x with
        trace := x.trace ++ [.mbEnc], result := .lanes (List.zipWith (Config.aesCbcEnc key) ivs xs) },
        s.mem, s.active⟩)) ∧
    (ivs.length ≠ 8 ∨ xs.length ≠ 8 → exec (.mbEnc key ivs xs) s = .fault .contractViolation)

/-- `MB.HMAC`: with exactly 8 lanes, each digest that of its own lane alone; else a contract violation (R162; 93 U12).
That a result is kept in the tuple is the model's own (entry 9). The contract violation is the model's reading (entry
15). -/
def Obligations.MbHmacLanes : Prop :=
  ∀ s x key lanes, s.tuple? = some x → key.length = 20 →
    (lanes.length = 8 → exec (.mbHmac key lanes) s
      = .next (s.withCtx ⟨{ x with
        trace := x.trace ++ [.mbHmac], result := .lanes (lanes.map (Config.hmacSha1 key)) }, s.mem, s.active⟩)) ∧
    (lanes.length ≠ 8 → exec (.mbHmac key lanes) s = .fault .contractViolation)

/-! ### Encapsulation -/

/-- The padding length is the least number that makes the ciphertext region a whole number of blocks, at most 15; the
grown frame, its regions and its 16-bit total length fit together (30_encoding.md R89, R90, R92; 42_encapsulation.md R198). -/
def Obligations.PaddingIsMinimal : Prop :=
  ∀ l, padLength l ≤ 15 ∧ (l + padLength l + 2) % 16 = 0 ∧
    (∀ p, (l + p + 2) % 16 = 0 → padLength l ≤ p) ∧
    grownLength l - 70 = l + padLength l + 2 ∧
    (grownLength l ≤ Config.maxLen → (totalLength (grownLength l)).toNat = l + padLength l + 58)

/-- `ENC.PUSH` of an eligible packet into a batch that it does not fill: the packet becomes the in-flight frame of
42_encapsulation.md R196, one slot is registered, the verdict is `Ok` (R194). The `FILL` bytes are free values (entry
6). The frame's padding bytes 1, 2, 3 .. are a parameter at the spec's value (entry 19); its outer header's length,
first byte and field offsets are the spec's general knowledge (entry 18). -/
def Obligations.EncPushAccumulates : Prop :=
  ∀ s x h iv b, s.tuple? = some x → x.phase = .ready → iv.length = 16 → s.mem.get h = some b →
    x.inFlight h = false → 34 ≤ b.length → grownLength (b.length - 14) ≤ Config.maxLen → x.count < 7 →
    exec (.encPush h iv) s = .next (s.withCtx ⟨{ x with
      encState := .idle
      slots := x.slots.setIfInBounds x.count (slotOf h (grownLength (b.length - 14)))
      count := x.count + 1
      verdicts := x.verdicts ++ [.ok h]
      draws := x.draws + drawsOf (b.length - 14) },
      s.mem.put h (inFlightFrame x (fillAt s.active x.draws) iv b), s.active⟩)

/-- `ENC.PUSH` of the packet that fills the batch: all eight packets are completed by one call of each multi-buffer
backend and emitted in push order, and the batch is empty (R192, R194). The `FILL` bytes are free values (entry 6).
The frame's padding bytes 1, 2, 3 .. are a parameter at the spec's value (entry 19); its outer header's length, first
byte and field offsets are the spec's general knowledge (entry 18). -/
def Obligations.EighthPushFlushes : Prop :=
  ∀ s x h iv b, s.tuple? = some x → x.phase = .ready → iv.length = 16 → s.mem.get h = some b →
    x.inFlight h = false → 34 ≤ b.length → grownLength (b.length - 14) ≤ Config.maxLen → x.count = 7 →
    BatchOk s.mem x.batch →
    ∃ m', exec (.encPush h iv) s = .next (s.withCtx ⟨{ x with
        encState := .idle
        slots := x.slots.setIfInBounds 7 (slotOf h (grownLength (b.length - 14)))
        count := 0
        out := x.out ++ (x.batch.map Slot.pkt ++ [h])
        trace := x.trace ++ [.mbEnc, .mbHmac]
        verdicts := x.verdicts ++ [.ok h]
        draws := x.draws + drawsOf (b.length - 14) }, m', s.active⟩) ∧
      m'.get h = some (completedFrame x (fillAt s.active x.draws) iv b) ∧
      EachPacket (slotCompleted x) x.batch
        (s.mem.put h (completedFrame x (fillAt s.active x.draws) iv b)) m'

/-- `ENC.PUSH` of a packet shorter than 34 bytes, or whose frame would exceed `MAX_LEN`: `Drop(ShortBuffer)`, packet
and batch untouched (R182, R197; 60_exceptions.md R271). -/
def Obligations.IneligiblePushIsDropped : Prop :=
  ∀ s x h iv b, s.tuple? = some x → x.phase = .ready → iv.length = 16 → s.mem.get h = some b →
    x.inFlight h = false → (b.length < 34 ∨ Config.maxLen < grownLength (b.length - 14)) →
    exec (.encPush h iv) s = .next (s.withCtx ⟨{ x with
      encState := .idle, verdicts := x.verdicts ++ [.drop .shortBuffer h] }, s.mem, s.active⟩)

/-- The preconditions of the operations, and the refusal where one is false: the phase of the pipelines and of the crypto
contexts, a handle that names no packet, a handle in flight (70_reset_and_hazards.md R316; decisions D23, D32, D33), a
byte-string operand of another length (40_wire_codec.md R127). Entries 11, 12 and 16 say which of these are the model's
own for operations performed by themselves. -/
def Obligations.FailedPreconditionsAreRefused : Prop :=
  ∀ s x, s.tuple? = some x →
    (∀ i, i.wellFormed = true → needsReady i.op = true → x.phase ≠ .ready → exec i s = .refused .wrongPhase) ∧
    (∀ i h, i.wellFormed = true → packetNamed i = some h → (needsReady i.op = true → x.phase = .ready) →
      s.mem.get h = none → exec i s = .refused .unknownHandle) ∧
    (∀ h iv, x.phase = .ready → iv.length = 16 → (s.mem.get h).isSome = true → x.inFlight h = true →
      exec (.encPush h iv) s = .refused .inFlight ∧ exec (.dec h) s = .refused .inFlight) ∧
    (∀ hv iv d h, iv.length ≠ 16 → exec (.hdrWrIv hv iv) s = .refused .malformedOperand ∧
      exec (.scEnc iv d) s = .refused .malformedOperand ∧ exec (.scDec iv d) s = .refused .malformedOperand ∧
      exec (.encPush h iv) s = .refused .malformedOperand) ∧
    (∀ tv a, a.length ≠ 12 → exec (.trlWrAuth tv a) s = .refused .malformedOperand) ∧
    (∀ k lanes, k.length ≠ 20 → exec (.mbHmac k lanes) s = .refused .malformedOperand) ∧
    (∀ k ivs xs, k.length ≠ 16 ∨ (∃ iv ∈ ivs, iv.length ≠ 16) →
      exec (.mbEnc k ivs xs) s = .refused .malformedOperand)

/-- `ENC.END`: nothing on an empty batch; else a flush on the scalar path, after which every pushed packet is complete
and emitted and `COUNT = 0`; no verdict (R195; 20_memory.md R62). -/
def Obligations.EncEndFlushesTheRest : Prop :=
  ∀ s x, s.tuple? = some x → x.phase = .ready →
    (x.count = 0 → exec .encEnd s = .next s) ∧
    (1 ≤ x.count → x.count ≤ 7 → BatchOk s.mem x.batch →
      ∃ m', EachPacket (slotCompleted x) x.batch s.mem m' ∧
        exec .encEnd s = .next (s.withCtx ⟨{ x with
          count := 0, out := x.out ++ x.batch.map Slot.pkt,
          trace := x.trace ++ x.batch.map (fun sl => .scEnc sl.pkt) ++ x.batch.map (fun sl => .scAuth sl.pkt) },
          m', s.active⟩))

/-- `ENCAP h` (a push, then `ENC.END`), from any batch of at most seven packets: the packet becomes the completed ESP
frame of 42_encapsulation.md R196, and is the last in `OUT`; which path the flush took does not show in it. The
`FILL` bytes are free values (entry 6). The frame's padding bytes 1, 2, 3 .. are a parameter at the spec's value
(entry 19); its outer header's length, first byte and field offsets are the spec's general knowledge (entry 18). -/
def Obligations.EncapMakesTheEspFrame : Prop :=
  ∀ s x h iv b, s.tuple? = some x → x.phase = .ready → iv.length = 16 → s.mem.get h = some b →
    x.inFlight h = false → 34 ≤ b.length → grownLength (b.length - 14) ≤ Config.maxLen → x.count ≤ 7 →
    BatchOk s.mem x.batch →
    ∃ s₁ s₂ y, exec (.encPush h iv) s = .next s₁ ∧ exec .encEnd s₁ = .next s₂ ∧ s₂.tuple? = some y ∧
      s₂.mem.get h = some (completedFrame x (fillAt s.active x.draws) iv b) ∧ y.count = 0 ∧
      y.out = x.out ++ (x.batch.map Slot.pkt ++ [h]) ∧ y.verdicts = x.verdicts ++ [.ok h]

/-! ### Decapsulation -/

/-- `DEC h`: the tests in their fixed order, the first failure wins, and the packet, the tuple and `TRACE` after each
verdict (43_decapsulation.md R221, R223; 60_exceptions.md R277). -/
def Obligations.DecTestsInOrder : Prop :=
  ∀ s x h b, s.tuple? = some x → x.phase = .ready → s.mem.get h = some b → x.inFlight h = false →
    (b.length < 72 → exec (.dec h) s = .next (s.withCtx ⟨{ x with
      decState := .idle, verdicts := x.verdicts ++ [.drop .shortBuffer h] }, s.mem, s.active⟩)) ∧
    (72 ≤ b.length → be32 (slice b 34 4) ≠ x.saId → exec (.dec h) s = .next (s.withCtx ⟨{ x with
      decState := .idle, verdicts := x.verdicts ++ [.drop .unknownSpi h] }, s.mem, s.active⟩)) ∧
    (72 ≤ b.length → be32 (slice b 34 4) = x.saId → ¬ espMacOk x b → exec (.dec h) s = .next (s.withCtx ⟨{ x with
      decState := .idle, trace := x.trace ++ [.scAuth h],
      verdicts := x.verdicts ++ [.drop .authenticationFailed h] }, s.mem, s.active⟩)) ∧
    (72 ≤ b.length → be32 (slice b 34 4) = x.saId → espMacOk x b → (b.length - 70) % 16 ≠ 0 →
      exec (.dec h) s = .next (s.withCtx ⟨{ x with
        decState := .idle, trace := x.trace ++ [.scAuth h],
        verdicts := x.verdicts ++ [.drop .invalidBlockLength h] }, s.mem, s.active⟩)) ∧
    (72 ≤ b.length → be32 (slice b 34 4) = x.saId → espMacOk x b → (b.length - 70) % 16 = 0 →
      b.length - 70 < espPadLen x b + 2 → exec (.dec h) s = .next (s.withCtx ⟨{ x with
        decState := .idle, trace := x.trace ++ [.scAuth h, .scDec h],
        verdicts := x.verdicts ++ [.drop .malformedTrailer h] },
        s.mem.put h (splice b 58 (espPlain x b)), s.active⟩))

/-- `DEC h` of an authentic frame with whole blocks and a padding length that fits: `Ok`, and the packet is the
Ethernet header and the original packet, of length `LEN - 58 - padLen` (R219, R221). -/
def Obligations.DecRestoresThePacket : Prop :=
  ∀ s x h b, s.tuple? = some x → x.phase = .ready → s.mem.get h = some b → x.inFlight h = false →
    72 ≤ b.length → be32 (slice b 34 4) = x.saId → espMacOk x b → (b.length - 70) % 16 = 0 →
    espPadLen x b + 2 ≤ b.length - 70 →
    (b.take 14 ++ (espPlain x b).take (b.length - 72 - espPadLen x b)).length = b.length - 58 - espPadLen x b ∧
    exec (.dec h) s = .next (s.withCtx ⟨{ x with
      decState := .idle, trace := x.trace ++ [.scAuth h, .scDec h], verdicts := x.verdicts ++ [.ok h] },
      s.mem.put h (b.take 14 ++ (espPlain x b).take (b.length - 72 - espPadLen x b)), s.active⟩)

/-- Fail closed: if the recomputed MAC does not match, `DEC` leaves every packet as it was and makes no `SC.DEC`
call, whatever its verdict (R216). -/
def Obligations.DecFailsClosed : Prop :=
  ∀ s t x h b, s.tuple? = some x → s.mem.get h = some b → 72 ≤ b.length → ¬ espMacOk x b →
    exec (.dec h) s = .next t →
    t.mem = s.mem ∧ ∃ y ev, t.tuple? = some y ∧ y.trace = x.trace ++ ev ∧ (∀ g, Event.scDec g ∉ ev) ∧
      ∃ e, y.verdicts = x.verdicts ++ [.drop e h]

/-- The outer headers do not matter to `DEC`: two frames that agree from offset 34 on get the same verdict and end as
packets that agree behind the Ethernet header (R222). -/
def Obligations.DecIgnoresTheOuterHeaders : Prop :=
  ∀ (s : State) (x : Espc) (h : Handle) (b b' : List Byte), s.tuple? = some x → b.length = b'.length → b.drop 34 = b'.drop 34 →
    ∀ t, exec (.dec h) { s with mem := s.mem.put h b } = .next t →
      ∃ t' c c', exec (.dec h) { s with mem := s.mem.put h b' } = .next t' ∧ t'.workers = t.workers ∧
        t.mem.get h = some c ∧ t'.mem.get h = some c' ∧ c.length = c'.length ∧
        (c.drop 34 = c'.drop 34) ∧ (c.length < b.length → c.drop 14 = c'.drop 14)

/-- Round trip: for every plain frame `E ++ P` with `20 <= |P|` and `|P| + 87 <= MAX_LEN`, every IV and every `FILL`, a
push, the end of the burst and `DEC` give the frame back, each command with verdict `Ok` (R224). -/
def Obligations.DecapUndoesEncap : Prop :=
  ∀ s x h iv b, s.tuple? = some x → x.phase = .ready → iv.length = 16 → s.mem.get h = some b →
    x.inFlight h = false → 34 ≤ b.length → (b.length - 14) + 87 ≤ Config.maxLen → x.count ≤ 7 →
    BatchOk s.mem x.batch →
    ∃ s₁ s₂ s₃ y, exec (.encPush h iv) s = .next s₁ ∧ exec .encEnd s₁ = .next s₂ ∧ exec (.dec h) s₂ = .next s₃ ∧
      s₃.mem.get h = some b ∧ s₃.tuple? = some y ∧ y.verdicts = x.verdicts ++ [.ok h, .ok h]

/-! ### The buffer provider and the IPv4 accessor -/

/-- `BUF.GROWHEAD` and `BUF.GROWTAIL`: `n` fresh `FILL` bytes at offset 14 or at the end, or a contract violation
(44_collaborators_lifecycle.md R241, R242, R247). The `FILL` bytes are free values (entry 6). The fault is the one
these rules, R285 and vector B4 name; 93 U3 names the other, and following the rules is the model's reading (entry
14). -/
def Obligations.BufGrowInsertsFill : Prop :=
  ∀ s x h n b, s.tuple? = some x → s.mem.get h = some b →
    (14 ≤ b.length → b.length + n ≤ Config.maxLen → exec (.bufGrowHead h n) s
      = .next (s.withCtx ⟨{ x with draws := x.draws + n },
        s.mem.put h (b.take 14 ++ fillBytes s.active x.draws n ++ b.drop 14), s.active⟩)) ∧
    (b.length < 14 ∨ Config.maxLen < b.length + n → exec (.bufGrowHead h n) s = .fault .contractViolation) ∧
    (b.length + n ≤ Config.maxLen → exec (.bufGrowTail h n) s
      = .next (s.withCtx ⟨{ x with draws := x.draws + n },
        s.mem.put h (b ++ fillBytes s.active x.draws n), s.active⟩)) ∧
    (Config.maxLen < b.length + n → exec (.bufGrowTail h n) s = .fault .contractViolation)

/-- `BUF.SHRINKHEAD` and `BUF.SHRINKTAIL`: the `n` bytes behind the Ethernet header, or the last `n`, go, or a
contract violation (R243, R244). The fault is the one these rules, R285 and vector B4 name; 93 U3 names the other,
and following the rules is the model's reading (entry 14). -/
def Obligations.BufShrinkRemoves : Prop :=
  ∀ s x h n b, s.tuple? = some x → s.mem.get h = some b →
    (14 + n ≤ b.length → exec (.bufShrinkHead h n) s
      = .next (s.withCtx ⟨x, s.mem.put h (b.take 14 ++ b.drop (14 + n)), s.active⟩)) ∧
    (b.length < 14 + n → exec (.bufShrinkHead h n) s = .fault .contractViolation) ∧
    (n ≤ b.length → exec (.bufShrinkTail h n) s
      = .next (s.withCtx ⟨x, s.mem.put h (b.take (b.length - n)), s.active⟩)) ∧
    (b.length < n → exec (.bufShrinkTail h n) s = .fault .contractViolation)

/-- Shrinking undoes growing, at the head and at the tail, whatever the `FILL` (R243). -/
def Obligations.ShrinkUndoesGrow : Prop :=
  ∀ s t h n,
    (exec (.bufGrowHead h n) s = .next t →
      ∃ u, exec (.bufShrinkHead h n) t = .next u ∧ ∀ g, u.mem.get g = s.mem.get g) ∧
    (exec (.bufGrowTail h n) s = .next t →
      ∃ u, exec (.bufShrinkTail h n) t = .next u ∧ ∀ g, u.mem.get g = s.mem.get g)

/-- `BUF.RANGE` and `BUF.LEN` (R245, R246). That a result is kept in the tuple is the model's own (entry 9). -/
def Obligations.BufRangeAndLen : Prop :=
  ∀ s x h off n b, s.tuple? = some x → s.mem.get h = some b →
    (off + n ≤ b.length → exec (.bufRange h off n) s
      = .next (s.withCtx ⟨{ x with result := .range ⟨h, off, n⟩ }, s.mem, s.active⟩)) ∧
    (b.length < off + n → exec (.bufRange h off n) s = .fault .codecBounds) ∧
    exec (.bufLen h) s = .next (s.withCtx ⟨{ x with result := .length b.length }, s.mem, s.active⟩)

/-- The five reads of the IPv4 accessor (R249, R251, R253, R255, R257). That a result is kept in the tuple is the
model's own (entry 9). The field offsets are the spec's general knowledge (entry 18). -/
def Obligations.Ip4Reads : Prop :=
  ∀ s x h base b, s.tuple? = some x → s.mem.get h = some b → base + 20 ≤ b.length →
    exec (.ip4RdVihl h base) s
      = .next (s.withCtx ⟨{ x with result := .u8 (b.getD base 0) }, s.mem, s.active⟩) ∧
    exec (.ip4RdTotlen h base) s
      = .next (s.withCtx ⟨{ x with result := .u16 (be16 (slice b (base + 2) 2)) }, s.mem, s.active⟩) ∧
    exec (.ip4RdProto h base) s
      = .next (s.withCtx ⟨{ x with result := .u8 (b.getD (base + 9) 0) }, s.mem, s.active⟩) ∧
    exec (.ip4RdSrc h base) s
      = .next (s.withCtx ⟨{ x with result := .u32 (be32 (slice b (base + 12) 4)) }, s.mem, s.active⟩) ∧
    exec (.ip4RdDst h base) s
      = .next (s.withCtx ⟨{ x with result := .u32 (be32 (slice b (base + 16) 4)) }, s.mem, s.active⟩)

/-- The five writes of the IPv4 accessor (R250, R252, R254, R256, R258). The field offsets are the spec's general
knowledge (entry 18). -/
def Obligations.Ip4Writes : Prop :=
  ∀ s x h base b, s.tuple? = some x → s.mem.get h = some b → base + 20 ≤ b.length →
    (∀ v, exec (.ip4WrVihl h base v) s
      = .next (s.withCtx ⟨x, s.mem.put h (splice b base [v]), s.active⟩)) ∧
    (∀ v, exec (.ip4WrTotlen h base v) s
      = .next (s.withCtx ⟨x, s.mem.put h (splice b (base + 2) (toBe16 v)), s.active⟩)) ∧
    (∀ v, exec (.ip4WrProto h base v) s
      = .next (s.withCtx ⟨x, s.mem.put h (splice b (base + 9) [v]), s.active⟩)) ∧
    (∀ v, exec (.ip4WrSrc h base v) s
      = .next (s.withCtx ⟨x, s.mem.put h (splice b (base + 12) (toBe32 v)), s.active⟩)) ∧
    (∀ v, exec (.ip4WrDst h base v) s
      = .next (s.withCtx ⟨x, s.mem.put h (splice b (base + 16) (toBe32 v)), s.active⟩))

/-! ### Rules of the whole machine -/

/-- FRAME of the pipelines and the vector context: bytes outside the packet the command names and outside the
ciphertext regions and auth-destination views of the slots it works on are as before (10_state.md R33). -/
def Obligations.PipelineMemoryFrame : Prop :=
  ∀ s t x g o, s.tuple? = some x →
    (∀ h iv, exec (.encPush h iv) s = .next t → g ≠ h → ¬ InSlotBytes x.batch g o →
      t.mem.byteAt g o = s.mem.byteAt g o) ∧
    (exec .encEnd s = .next t → ¬ InSlotBytes x.batch g o → t.mem.byteAt g o = s.mem.byteAt g o) ∧
    (exec .vcFlush s = .next t → ¬ InSlotBytes x.batch g o → t.mem.byteAt g o = s.mem.byteAt g o) ∧
    (∀ n, exec (.vcEncrypt n) s = .next t ∨ exec (.vcAuth n) s = .next t →
      ¬ InSlotBytes (x.slots.toList.take n) g o → t.mem.byteAt g o = s.mem.byteAt g o) ∧
    (∀ h, exec (.dec h) s = .next t → g ≠ h → t.mem.byteAt g o = s.mem.byteAt g o)

/-- No operation creates or deletes a handle, and the lifecycle commands, `VC.REG` and the multi-buffer calls change no
packet (R33). -/
def Obligations.NoCommandCreatesOrDeletesAPacket : Prop :=
  ∀ i s t, exec i s = .next t →
    (∀ h, (t.mem.get h).isSome = (s.mem.get h).isSome) ∧
    (i.op ∈ [Op.init, Op.clone, Op.destroy, Op.vcReg, Op.mbEnc, Op.mbHmac, Op.scAuth] → t.mem = s.mem)

/-- A command on one instance leaves every other instance's tuple, and what the host has issued, as they were; and, but
for `CLONE`, what it does depends on no other instance's tuple and on no input behind it: from two states with the same
active tuple, the same index of it and the same packet store, it stops in the same way or leaves the same tuple and the
same packet store (10_state.md R41; 60_exceptions.md R283). The active register and the inputs are the model's own
(entries 2, 4). -/
def Obligations.OtherInstancesUntouched : Prop :=
  (∀ i s t, exec i s = .next t →
    (∀ w, w ≠ s.active → t.workers[w]? = s.workers[w]?) ∧ t.active = s.active ∧ t.inputs = s.inputs) ∧
  (∀ i s s' x, i.op ≠ .clone → s.tuple? = some x → s'.tuple? = some x → s'.mem = s.mem → s'.active = s.active →
    (∀ f, exec i s = .fault f → exec i s' = .fault f) ∧ (∀ r, exec i s = .refused r → exec i s' = .refused r) ∧
    ∀ t, exec i s = .next t →
      ∃ y, t.tuple? = some y ∧ exec i s' = .next (s'.withCtx ⟨y, t.mem, s'.active⟩))

/-- Once an instance is built or halted, no step changes its `PHASE`, its SA or its tunnel endpoints (10_state.md R21,
R22, R23; 70_reset_and_hazards.md R310). -/
def Obligations.ConstructedIsNeverMutated : Prop :=
  ∀ (s t : State) (w : Nat) (x : Espc), step s = .next t → s.workers[w]? = some x → x.phase ≠ .unconstructed →
    ∃ y, t.workers[w]? = some y ∧ y.phase = x.phase ∧ y.saId = x.saId ∧ y.encKey = x.encKey ∧
      y.authKey = x.authKey ∧ y.tunSrc = x.tunSrc ∧ y.tunDst = x.tunDst

/-- Once an instance is built or halted, its outputs only grow: completions are appended to `OUT`, backend calls to
`TRACE`, verdicts to the verdicts (10_state.md R36, R37; 42_encapsulation.md R199). The list of verdicts is the
model's record (entry 9). -/
def Obligations.OutputsOnlyGrow : Prop :=
  ∀ (s t : State) (w : Nat) (x : Espc), step s = .next t → s.workers[w]? = some x → x.phase ≠ .unconstructed →
    ∃ y, t.workers[w]? = some y ∧ x.out <+: y.out ∧ x.trace <+: y.trace ∧ x.verdicts <+: y.verdicts

/-- No operation reads `TRACE`: two states that differ only in `TRACE` have outcomes that differ only in `TRACE`
(10_state.md R37). -/
def Obligations.TraceChangesNoResult : Prop :=
  ∀ i s t, s.untraced = t.untraced → SameButTrace (exec i s) (exec i t)
end

