-- ==== Sys2Proof/Laws/State.lean ====
section
/-! SUPPORT. One lemma for each field of each named update of the state, so that no later proof unfolds a record
update. -/

namespace Sys2Proof.Machine

variable (c : Ctx) (s : State)

/-! ### `Ctx.setEnc` -/

@[simp] theorem Ctx.setEnc_mem (st : EncState) : (c.setEnc st).mem = c.mem := rfl
@[simp] theorem Ctx.setEnc_worker (st : EncState) : (c.setEnc st).worker = c.worker := rfl
@[simp] theorem Ctx.setEnc_phase (st : EncState) : (c.setEnc st).inst.phase = c.inst.phase := rfl
@[simp] theorem Ctx.setEnc_saId (st : EncState) : (c.setEnc st).inst.saId = c.inst.saId := rfl
@[simp] theorem Ctx.setEnc_encKey (st : EncState) : (c.setEnc st).inst.encKey = c.inst.encKey := rfl
@[simp] theorem Ctx.setEnc_authKey (st : EncState) : (c.setEnc st).inst.authKey = c.inst.authKey := rfl
@[simp] theorem Ctx.setEnc_tunSrc (st : EncState) : (c.setEnc st).inst.tunSrc = c.inst.tunSrc := rfl
@[simp] theorem Ctx.setEnc_tunDst (st : EncState) : (c.setEnc st).inst.tunDst = c.inst.tunDst := rfl
@[simp] theorem Ctx.setEnc_count (st : EncState) : (c.setEnc st).inst.count = c.inst.count := rfl
@[simp] theorem Ctx.setEnc_slots (st : EncState) : (c.setEnc st).inst.slots = c.inst.slots := rfl
@[simp] theorem Ctx.setEnc_encState (st : EncState) : (c.setEnc st).inst.encState = st := rfl
@[simp] theorem Ctx.setEnc_decState (st : EncState) : (c.setEnc st).inst.decState = c.inst.decState := rfl
@[simp] theorem Ctx.setEnc_out (st : EncState) : (c.setEnc st).inst.out = c.inst.out := rfl
@[simp] theorem Ctx.setEnc_trace (st : EncState) : (c.setEnc st).inst.trace = c.inst.trace := rfl
@[simp] theorem Ctx.setEnc_verdicts (st : EncState) : (c.setEnc st).inst.verdicts = c.inst.verdicts := rfl
@[simp] theorem Ctx.setEnc_result (st : EncState) : (c.setEnc st).inst.result = c.inst.result := rfl
@[simp] theorem Ctx.setEnc_draws (st : EncState) : (c.setEnc st).inst.draws = c.inst.draws := rfl

/-! ### `Ctx.setDec` -/

@[simp] theorem Ctx.setDec_mem (st : DecState) : (c.setDec st).mem = c.mem := rfl
@[simp] theorem Ctx.setDec_worker (st : DecState) : (c.setDec st).worker = c.worker := rfl
@[simp] theorem Ctx.setDec_phase (st : DecState) : (c.setDec st).inst.phase = c.inst.phase := rfl
@[simp] theorem Ctx.setDec_saId (st : DecState) : (c.setDec st).inst.saId = c.inst.saId := rfl
@[simp] theorem Ctx.setDec_encKey (st : DecState) : (c.setDec st).inst.encKey = c.inst.encKey := rfl
@[simp] theorem Ctx.setDec_authKey (st : DecState) : (c.setDec st).inst.authKey = c.inst.authKey := rfl
@[simp] theorem Ctx.setDec_tunSrc (st : DecState) : (c.setDec st).inst.tunSrc = c.inst.tunSrc := rfl
@[simp] theorem Ctx.setDec_tunDst (st : DecState) : (c.setDec st).inst.tunDst = c.inst.tunDst := rfl
@[simp] theorem Ctx.setDec_count (st : DecState) : (c.setDec st).inst.count = c.inst.count := rfl
@[simp] theorem Ctx.setDec_slots (st : DecState) : (c.setDec st).inst.slots = c.inst.slots := rfl
@[simp] theorem Ctx.setDec_encState (st : DecState) : (c.setDec st).inst.encState = c.inst.encState := rfl
@[simp] theorem Ctx.setDec_decState (st : DecState) : (c.setDec st).inst.decState = st := rfl
@[simp] theorem Ctx.setDec_out (st : DecState) : (c.setDec st).inst.out = c.inst.out := rfl
@[simp] theorem Ctx.setDec_trace (st : DecState) : (c.setDec st).inst.trace = c.inst.trace := rfl
@[simp] theorem Ctx.setDec_verdicts (st : DecState) : (c.setDec st).inst.verdicts = c.inst.verdicts := rfl
@[simp] theorem Ctx.setDec_result (st : DecState) : (c.setDec st).inst.result = c.inst.result := rfl
@[simp] theorem Ctx.setDec_draws (st : DecState) : (c.setDec st).inst.draws = c.inst.draws := rfl

/-! ### `Ctx.traced` -/

@[simp] theorem Ctx.traced_mem (ev : Event) : (c.traced ev).mem = c.mem := rfl
@[simp] theorem Ctx.traced_worker (ev : Event) : (c.traced ev).worker = c.worker := rfl
@[simp] theorem Ctx.traced_phase (ev : Event) : (c.traced ev).inst.phase = c.inst.phase := rfl
@[simp] theorem Ctx.traced_saId (ev : Event) : (c.traced ev).inst.saId = c.inst.saId := rfl
@[simp] theorem Ctx.traced_encKey (ev : Event) : (c.traced ev).inst.encKey = c.inst.encKey := rfl
@[simp] theorem Ctx.traced_authKey (ev : Event) : (c.traced ev).inst.authKey = c.inst.authKey := rfl
@[simp] theorem Ctx.traced_tunSrc (ev : Event) : (c.traced ev).inst.tunSrc = c.inst.tunSrc := rfl
@[simp] theorem Ctx.traced_tunDst (ev : Event) : (c.traced ev).inst.tunDst = c.inst.tunDst := rfl
@[simp] theorem Ctx.traced_count (ev : Event) : (c.traced ev).inst.count = c.inst.count := rfl
@[simp] theorem Ctx.traced_slots (ev : Event) : (c.traced ev).inst.slots = c.inst.slots := rfl
@[simp] theorem Ctx.traced_encState (ev : Event) : (c.traced ev).inst.encState = c.inst.encState := rfl
@[simp] theorem Ctx.traced_decState (ev : Event) : (c.traced ev).inst.decState = c.inst.decState := rfl
@[simp] theorem Ctx.traced_out (ev : Event) : (c.traced ev).inst.out = c.inst.out := rfl
@[simp] theorem Ctx.traced_trace (ev : Event) : (c.traced ev).inst.trace = c.inst.trace ++ [ev] := rfl
@[simp] theorem Ctx.traced_verdicts (ev : Event) : (c.traced ev).inst.verdicts = c.inst.verdicts := rfl
@[simp] theorem Ctx.traced_result (ev : Event) : (c.traced ev).inst.result = c.inst.result := rfl
@[simp] theorem Ctx.traced_draws (ev : Event) : (c.traced ev).inst.draws = c.inst.draws := rfl

/-! ### `Ctx.emitted` -/

@[simp] theorem Ctx.emitted_mem (hs : List Handle) : (c.emitted hs).mem = c.mem := rfl
@[simp] theorem Ctx.emitted_worker (hs : List Handle) : (c.emitted hs).worker = c.worker := rfl
@[simp] theorem Ctx.emitted_phase (hs : List Handle) : (c.emitted hs).inst.phase = c.inst.phase := rfl
@[simp] theorem Ctx.emitted_saId (hs : List Handle) : (c.emitted hs).inst.saId = c.inst.saId := rfl
@[simp] theorem Ctx.emitted_encKey (hs : List Handle) : (c.emitted hs).inst.encKey = c.inst.encKey := rfl
@[simp] theorem Ctx.emitted_authKey (hs : List Handle) : (c.emitted hs).inst.authKey = c.inst.authKey := rfl
@[simp] theorem Ctx.emitted_tunSrc (hs : List Handle) : (c.emitted hs).inst.tunSrc = c.inst.tunSrc := rfl
@[simp] theorem Ctx.emitted_tunDst (hs : List Handle) : (c.emitted hs).inst.tunDst = c.inst.tunDst := rfl
@[simp] theorem Ctx.emitted_count (hs : List Handle) : (c.emitted hs).inst.count = c.inst.count := rfl
@[simp] theorem Ctx.emitted_slots (hs : List Handle) : (c.emitted hs).inst.slots = c.inst.slots := rfl
@[simp] theorem Ctx.emitted_encState (hs : List Handle) : (c.emitted hs).inst.encState = c.inst.encState := rfl
@[simp] theorem Ctx.emitted_decState (hs : List Handle) : (c.emitted hs).inst.decState = c.inst.decState := rfl
@[simp] theorem Ctx.emitted_out (hs : List Handle) : (c.emitted hs).inst.out = c.inst.out ++ hs := rfl
@[simp] theorem Ctx.emitted_trace (hs : List Handle) : (c.emitted hs).inst.trace = c.inst.trace := rfl
@[simp] theorem Ctx.emitted_verdicts (hs : List Handle) : (c.emitted hs).inst.verdicts = c.inst.verdicts := rfl
@[simp] theorem Ctx.emitted_result (hs : List Handle) : (c.emitted hs).inst.result = c.inst.result := rfl
@[simp] theorem Ctx.emitted_draws (hs : List Handle) : (c.emitted hs).inst.draws = c.inst.draws := rfl

/-! ### `Ctx.reported` -/

@[simp] theorem Ctx.reported_mem (v : Verdict) : (c.reported v).mem = c.mem := rfl
@[simp] theorem Ctx.reported_worker (v : Verdict) : (c.reported v).worker = c.worker := rfl
@[simp] theorem Ctx.reported_phase (v : Verdict) : (c.reported v).inst.phase = c.inst.phase := rfl
@[simp] theorem Ctx.reported_saId (v : Verdict) : (c.reported v).inst.saId = c.inst.saId := rfl
@[simp] theorem Ctx.reported_encKey (v : Verdict) : (c.reported v).inst.encKey = c.inst.encKey := rfl
@[simp] theorem Ctx.reported_authKey (v : Verdict) : (c.reported v).inst.authKey = c.inst.authKey := rfl
@[simp] theorem Ctx.reported_tunSrc (v : Verdict) : (c.reported v).inst.tunSrc = c.inst.tunSrc := rfl
@[simp] theorem Ctx.reported_tunDst (v : Verdict) : (c.reported v).inst.tunDst = c.inst.tunDst := rfl
@[simp] theorem Ctx.reported_count (v : Verdict) : (c.reported v).inst.count = c.inst.count := rfl
@[simp] theorem Ctx.reported_slots (v : Verdict) : (c.reported v).inst.slots = c.inst.slots := rfl
@[simp] theorem Ctx.reported_encState (v : Verdict) : (c.reported v).inst.encState = c.inst.encState := rfl
@[simp] theorem Ctx.reported_decState (v : Verdict) : (c.reported v).inst.decState = c.inst.decState := rfl
@[simp] theorem Ctx.reported_out (v : Verdict) : (c.reported v).inst.out = c.inst.out := rfl
@[simp] theorem Ctx.reported_trace (v : Verdict) : (c.reported v).inst.trace = c.inst.trace := rfl
@[simp] theorem Ctx.reported_verdicts (v : Verdict) : (c.reported v).inst.verdicts = c.inst.verdicts ++ [v] := rfl
@[simp] theorem Ctx.reported_result (v : Verdict) : (c.reported v).inst.result = c.inst.result := rfl
@[simp] theorem Ctx.reported_draws (v : Verdict) : (c.reported v).inst.draws = c.inst.draws := rfl

/-! ### `Ctx.answered` -/

@[simp] theorem Ctx.answered_mem (v : Value) : (c.answered v).mem = c.mem := rfl
@[simp] theorem Ctx.answered_worker (v : Value) : (c.answered v).worker = c.worker := rfl
@[simp] theorem Ctx.answered_phase (v : Value) : (c.answered v).inst.phase = c.inst.phase := rfl
@[simp] theorem Ctx.answered_saId (v : Value) : (c.answered v).inst.saId = c.inst.saId := rfl
@[simp] theorem Ctx.answered_encKey (v : Value) : (c.answered v).inst.encKey = c.inst.encKey := rfl
@[simp] theorem Ctx.answered_authKey (v : Value) : (c.answered v).inst.authKey = c.inst.authKey := rfl
@[simp] theorem Ctx.answered_tunSrc (v : Value) : (c.answered v).inst.tunSrc = c.inst.tunSrc := rfl
@[simp] theorem Ctx.answered_tunDst (v : Value) : (c.answered v).inst.tunDst = c.inst.tunDst := rfl
@[simp] theorem Ctx.answered_count (v : Value) : (c.answered v).inst.count = c.inst.count := rfl
@[simp] theorem Ctx.answered_slots (v : Value) : (c.answered v).inst.slots = c.inst.slots := rfl
@[simp] theorem Ctx.answered_encState (v : Value) : (c.answered v).inst.encState = c.inst.encState := rfl
@[simp] theorem Ctx.answered_decState (v : Value) : (c.answered v).inst.decState = c.inst.decState := rfl
@[simp] theorem Ctx.answered_out (v : Value) : (c.answered v).inst.out = c.inst.out := rfl
@[simp] theorem Ctx.answered_trace (v : Value) : (c.answered v).inst.trace = c.inst.trace := rfl
@[simp] theorem Ctx.answered_verdicts (v : Value) : (c.answered v).inst.verdicts = c.inst.verdicts := rfl
@[simp] theorem Ctx.answered_result (v : Value) : (c.answered v).inst.result = v := rfl
@[simp] theorem Ctx.answered_draws (v : Value) : (c.answered v).inst.draws = c.inst.draws := rfl

/-! ### `Ctx.withMem` -/

@[simp] theorem Ctx.withMem_mem (m : Memory) : (c.withMem m).mem = m := rfl
@[simp] theorem Ctx.withMem_worker (m : Memory) : (c.withMem m).worker = c.worker := rfl
@[simp] theorem Ctx.withMem_inst (m : Memory) : (c.withMem m).inst = c.inst := rfl
@[simp] theorem Ctx.withMem_withMem (m n : Memory) : (c.withMem m).withMem n = c.withMem n := rfl

/-! ### `Ctx.drawn` -/

@[simp] theorem Ctx.drawn_mem (n : Nat) : (c.drawn n).mem = c.mem := rfl
@[simp] theorem Ctx.drawn_worker (n : Nat) : (c.drawn n).worker = c.worker := rfl
@[simp] theorem Ctx.drawn_phase (n : Nat) : (c.drawn n).inst.phase = c.inst.phase := rfl
@[simp] theorem Ctx.drawn_saId (n : Nat) : (c.drawn n).inst.saId = c.inst.saId := rfl
@[simp] theorem Ctx.drawn_encKey (n : Nat) : (c.drawn n).inst.encKey = c.inst.encKey := rfl
@[simp] theorem Ctx.drawn_authKey (n : Nat) : (c.drawn n).inst.authKey = c.inst.authKey := rfl
@[simp] theorem Ctx.drawn_tunSrc (n : Nat) : (c.drawn n).inst.tunSrc = c.inst.tunSrc := rfl
@[simp] theorem Ctx.drawn_tunDst (n : Nat) : (c.drawn n).inst.tunDst = c.inst.tunDst := rfl
@[simp] theorem Ctx.drawn_count (n : Nat) : (c.drawn n).inst.count = c.inst.count := rfl
@[simp] theorem Ctx.drawn_slots (n : Nat) : (c.drawn n).inst.slots = c.inst.slots := rfl
@[simp] theorem Ctx.drawn_encState (n : Nat) : (c.drawn n).inst.encState = c.inst.encState := rfl
@[simp] theorem Ctx.drawn_decState (n : Nat) : (c.drawn n).inst.decState = c.inst.decState := rfl
@[simp] theorem Ctx.drawn_out (n : Nat) : (c.drawn n).inst.out = c.inst.out := rfl
@[simp] theorem Ctx.drawn_trace (n : Nat) : (c.drawn n).inst.trace = c.inst.trace := rfl
@[simp] theorem Ctx.drawn_verdicts (n : Nat) : (c.drawn n).inst.verdicts = c.inst.verdicts := rfl
@[simp] theorem Ctx.drawn_result (n : Nat) : (c.drawn n).inst.result = c.inst.result := rfl
@[simp] theorem Ctx.drawn_draws (n : Nat) : (c.drawn n).inst.draws = c.inst.draws + n := rfl
@[simp] theorem Ctx.drawn_batch (n : Nat) : (c.drawn n).inst.batch = c.inst.batch := rfl

@[simp] theorem Ctx.drawn_drawn (n m : Nat) : (c.drawn n).drawn m = c.drawn (n + m) := by
  simp [Ctx.drawn, Nat.add_assoc]
@[simp] theorem Ctx.drawn_withMem (n : Nat) (m : Memory) : (c.drawn n).withMem m = (c.withMem m).drawn n := rfl

/-! ### The batch under updates that leave `COUNT` and the slots alone -/

@[simp] theorem Ctx.setEnc_batch (st : EncState) : (c.setEnc st).inst.batch = c.inst.batch := rfl
@[simp] theorem Ctx.setDec_batch (st : DecState) : (c.setDec st).inst.batch = c.inst.batch := rfl
@[simp] theorem Ctx.traced_batch (ev : Event) : (c.traced ev).inst.batch = c.inst.batch := rfl
@[simp] theorem Ctx.emitted_batch (hs : List Handle) : (c.emitted hs).inst.batch = c.inst.batch := rfl
@[simp] theorem Ctx.reported_batch (v : Verdict) : (c.reported v).inst.batch = c.inst.batch := rfl
@[simp] theorem Ctx.answered_batch (v : Value) : (c.answered v).inst.batch = c.inst.batch := rfl

/-! ### `State.withCtx` -/

@[simp] theorem State.withCtx_workers : (s.withCtx c).workers = s.workers.set s.active c.inst := rfl
@[simp] theorem State.withCtx_mem : (s.withCtx c).mem = c.mem := rfl
@[simp] theorem State.withCtx_active : (s.withCtx c).active = s.active := rfl
@[simp] theorem State.withCtx_inputs : (s.withCtx c).inputs = s.inputs := rfl

/-- The tuple a command has worked on is the active tuple afterwards. -/
theorem State.withCtx_tuple? (x : Espc) (hx : s.tuple? = some x) : (s.withCtx c).tuple? = some c.inst := by
  obtain ⟨hlt, -⟩ := List.getElem?_eq_some_iff.mp hx
  simp [State.tuple?, State.withCtx, hlt]

/-- No other tuple is touched. -/
theorem State.withCtx_other (w : Nat) (hw : w ≠ s.active) : (s.withCtx c).workers[w]? = s.workers[w]? := by
  simp [State.withCtx, List.getElem?_set_ne (Ne.symm hw)]

/-- Two commands on one instance, one after the other. -/
@[simp] theorem State.withCtx_withCtx (d : Ctx) : (s.withCtx c).withCtx d = s.withCtx d := by
  simp [State.withCtx]

/-- A context put back unchanged. -/
theorem State.withCtx_self (x : Espc) (hx : s.tuple? = some x) : s.withCtx ⟨x, s.mem, s.active⟩ = s := by
  obtain ⟨hlt, rfl⟩ := List.getElem?_eq_some_iff.mp hx
  simp [State.withCtx]

/-- The context of a command on an existing instance. -/
theorem State.ctx?_of_tuple? (x : Espc) (hx : s.tuple? = some x) : s.ctx? = some ⟨x, s.mem, s.active⟩ := by
  simp only [State.tuple?] at hx
  simp [State.ctx?, hx]

/-- The context after a command. -/
theorem State.withCtx_ctx? (x : Espc) (hx : s.tuple? = some x) : (s.withCtx c).ctx? = some ⟨c.inst, c.mem, s.active⟩ := by
  rw [State.ctx?_of_tuple? _ _ (State.withCtx_tuple? c s x hx)]
  rfl

end Sys2Proof.Machine
end

