-- ==== Sys2Proof/Laws/Memory.lean ====
section
/-! SUPPORT. The laws of the packet store: a read after a write, the canonical form, and the bound on lengths. -/

namespace Sys2Proof.Machine

theorem lookup_insert_same (l : List (Handle × List Byte)) (h : Handle) (b : List Byte) :
    lookup (insert l h b) h = some b := by
  induction l with
  | nil => simp [insert, lookup]
  | cons p t ih =>
    obtain ⟨k, a⟩ := p
    simp only [insert]
    split
    · simp [lookup]
    · split
      · simp [lookup]
      · simp [lookup, *]

theorem lookup_insert_other (l : List (Handle × List Byte)) (h g : Handle) (b : List Byte) (hg : g ≠ h) :
    lookup (insert l h b) g = lookup l g := by
  induction l with
  | nil => simp [insert, lookup, hg]
  | cons p t ih =>
    obtain ⟨k, a⟩ := p
    simp only [insert]
    split
    · simp [lookup, hg]
    · split
      · next he => subst he; simp [lookup, hg]
      · simp [lookup, ih]

theorem insert_insert (l : List (Handle × List Byte)) (h : Handle) (a b : List Byte) :
    insert (insert l h a) h b = insert l h b := by
  induction l with
  | nil => simp [insert]
  | cons p t ih =>
    obtain ⟨k, d⟩ := p
    simp only [insert]
    split
    · simp [insert]
    · split
      · simp [insert]
      · next h1 h2 => simp [insert, h1, h2, ih]

theorem lookup_remove_other (l : List (Handle × List Byte)) (h g : Handle) (hg : g ≠ h) :
    lookup (remove l h) g = lookup l g := by
  induction l with
  | nil => rfl
  | cons p t ih =>
    obtain ⟨k, a⟩ := p
    simp only [remove]
    split
    · next he => subst he; simp [lookup, hg, ih]
    · simp [lookup, ih]

/-- Reading a packet just stored gives what was stored. -/
@[simp] theorem Memory.get_put_same (m : Memory) (h : Handle) (b : List Byte) : (m.put h b).get h = some b :=
  lookup_insert_same _ _ _

/-- Storing one packet leaves every other packet alone. -/
theorem Memory.get_put_other (m : Memory) (h g : Handle) (b : List Byte) (hg : g ≠ h) :
    (m.put h b).get g = m.get g :=
  lookup_insert_other _ _ _ _ hg

theorem Memory.get_put (m : Memory) (h g : Handle) (b : List Byte) :
    (m.put h b).get g = if g = h then some b else m.get g := by
  split
  · next he => subst he; simp
  · next he => exact Memory.get_put_other _ _ _ _ he

/-- A later store to the same packet is the one that counts. -/
@[simp] theorem Memory.put_put (m : Memory) (h : Handle) (a b : List Byte) : (m.put h a).put h b = m.put h b := by
  simp [Memory.put, insert_insert]

theorem lookup_remove_same (l : List (Handle × List Byte)) (h : Handle) : lookup (remove l h) h = none := by
  induction l with
  | nil => rfl
  | cons p t ih =>
    obtain ⟨k, a⟩ := p
    by_cases hk : h = k
    · simpa [remove, hk] using hk ▸ ih
    · simpa [remove, lookup, hk] using ih

/-- A packet taken away is gone. -/
@[simp] theorem Memory.get_erase_same (m : Memory) (h : Handle) : (m.erase h).get h = none :=
  lookup_remove_same _ _


theorem Memory.get_erase_other (m : Memory) (h g : Handle) (hg : g ≠ h) : (m.erase h).get g = m.get g :=
  lookup_remove_other _ _ _ hg

/-! ### The canonical form -/

/-- Every handle of a list is above `k`. -/
def AllAbove (k : Handle) (l : List (Handle × List Byte)) : Prop := ∀ p ∈ l, k < p.1

theorem rising_cons (k : Handle) (a : List Byte) (t : List (Handle × List Byte)) :
    rising ((k, a) :: t) = true ↔ AllAbove k t ∧ rising t = true := by
  induction t generalizing k a with
  | nil => simp [rising, AllAbove]
  | cons p t ih =>
    obtain ⟨l, b⟩ := p
    simp only [rising, Bool.and_eq_true, decide_eq_true_eq]
    constructor
    · rintro ⟨hkl, hr⟩
      refine ⟨?_, hr⟩
      intro q hq
      rcases List.mem_cons.mp hq with rfl | hq
      · exact hkl
      · exact lt_trans hkl (((ih l b).mp hr).1 q hq)
    · rintro ⟨ha, hr⟩
      exact ⟨ha (l, b) (by simp), hr⟩

theorem mem_insert (l : List (Handle × List Byte)) (h : Handle) (b : List Byte) (p : Handle × List Byte)
    (hp : p ∈ insert l h b) : p = (h, b) ∨ p ∈ l := by
  induction l with
  | nil => simpa [insert] using hp
  | cons q t ih =>
    obtain ⟨k, a⟩ := q
    simp only [insert] at hp
    split at hp
    · simpa using hp
    · split at hp
      · rcases List.mem_cons.mp hp with h1 | h1
        · exact .inl h1
        · exact .inr (by simp [h1])
      · rcases List.mem_cons.mp hp with h1 | h1
        · exact .inr (by simp [h1])
        · rcases ih h1 with h2 | h2
          · exact .inl h2
          · exact .inr (by simp [h2])

theorem rising_insert (l : List (Handle × List Byte)) (h : Handle) (b : List Byte) (hl : rising l = true) :
    rising (insert l h b) = true := by
  induction l with
  | nil => simp [insert, rising]
  | cons p t ih =>
    obtain ⟨k, a⟩ := p
    rw [rising_cons] at hl
    simp only [insert]
    split
    · next hk =>
      rw [rising_cons]
      refine ⟨?_, (rising_cons _ _ _).mpr hl⟩
      intro q hq
      rcases List.mem_cons.mp hq with rfl | hq
      · exact hk
      · exact lt_trans hk (hl.1 q hq)
    · split
      · next hk =>
        rw [rising_cons]
        exact ⟨by simpa [hk] using hl.1, hl.2⟩
      · next h1 h2 =>
        rw [rising_cons]
        refine ⟨?_, ih hl.2⟩
        intro q hq
        rcases mem_insert _ _ _ _ hq with rfl | hq
        · exact lt_of_le_of_ne (not_lt.mp h1) (Ne.symm h2)
        · exact hl.1 q hq

theorem remove_sub (l : List (Handle × List Byte)) (h : Handle) (p : Handle × List Byte) (hp : p ∈ remove l h) :
    p ∈ l := by
  induction l with
  | nil => simp [remove] at hp
  | cons q t ih =>
    obtain ⟨k, a⟩ := q
    simp only [remove] at hp
    split at hp
    · exact List.mem_cons_of_mem _ (ih hp)
    · rcases List.mem_cons.mp hp with h1 | h1
      · simp [h1]
      · exact List.mem_cons_of_mem _ (ih h1)

theorem rising_remove (l : List (Handle × List Byte)) (h : Handle) (hl : rising l = true) :
    rising (remove l h) = true := by
  induction l with
  | nil => rfl
  | cons p t ih =>
    obtain ⟨k, a⟩ := p
    rw [rising_cons] at hl
    simp only [remove]
    split
    · exact ih hl.2
    · rw [rising_cons]
      exact ⟨fun q hq => hl.1 q (remove_sub _ _ _ hq), ih hl.2⟩

/-- A store keeps the canonical form. -/
theorem Memory.put_wf (m : Memory) (h : Handle) (b : List Byte) (hm : m.wf = true) : (m.put h b).wf = true :=
  rising_insert _ _ _ hm

/-- Taking a packet away keeps the canonical form. -/
theorem Memory.erase_wf (m : Memory) (h : Handle) (hm : m.wf = true) : (m.erase h).wf = true :=
  rising_remove _ _ hm

/-- The store after reset has the canonical form. -/
theorem reset_mem_wf : State.reset.mem.wf = true := rfl

/-! ### Lengths -/

theorem Memory.bounded_iff (m : Memory) : m.bounded = true ↔ ∀ p ∈ m.packets, p.2.length ≤ Config.maxLen := by
  simp [Memory.bounded]

theorem Memory.put_bounded (m : Memory) (h : Handle) (b : List Byte) (hm : m.bounded = true)
    (hb : b.length ≤ Config.maxLen) : (m.put h b).bounded = true := by
  rw [Memory.bounded_iff] at hm ⊢
  intro p hp
  rcases mem_insert _ _ _ _ hp with rfl | hp
  · exact hb
  · exact hm p hp

theorem Memory.erase_bounded (m : Memory) (h : Handle) (hm : m.bounded = true) : (m.erase h).bounded = true := by
  rw [Memory.bounded_iff] at hm ⊢
  exact fun p hp => hm p (remove_sub _ _ _ hp)

theorem lookup_mem (l : List (Handle × List Byte)) (h : Handle) (b : List Byte) (hb : lookup l h = some b) :
    (h, b) ∈ l := by
  induction l with
  | nil => simp [lookup] at hb
  | cons p t ih =>
    obtain ⟨k, a⟩ := p
    simp only [lookup] at hb
    split at hb
    · next he => subst he; simp_all
    · simp [ih hb]

theorem Memory.get_bounded (m : Memory) (h : Handle) (b : List Byte) (hm : m.bounded = true)
    (hb : m.get h = some b) : b.length ≤ Config.maxLen :=
  (Memory.bounded_iff m).mp hm _ (lookup_mem _ _ _ hb)

end Sys2Proof.Machine
end

