-- ==== Sys2Proof/Laws/Operands.lean ====
section
/-! SUPPORT. The laws of byte strings, of the integers in them, of padding, and of the primitives. -/

namespace Sys2Proof.Machine

/-! ### Slices and splices -/

theorem slice_length (b : List Byte) (off n : Nat) (hb : off + n ≤ b.length) : (slice b off n).length = n := by
  simp [slice]; omega

theorem splice_length (b : List Byte) (off : Nat) (v : List Byte) (hb : off + v.length ≤ b.length) :
    (splice b off v).length = b.length := by
  simp [splice]; omega

/-- A byte inside the spliced range is the new byte. -/
theorem splice_inside (b : List Byte) (off : Nat) (v : List Byte) (i : Nat) (hb : off + v.length ≤ b.length)
    (h1 : off ≤ i) (h2 : i < off + v.length) : (splice b off v)[i]? = v[i - off]? := by
  simp only [splice, List.append_assoc]
  rw [List.getElem?_append_right (by simp; omega), List.getElem?_append_left (by simp; omega)]
  congr 1
  simp
  omega

/-- A byte outside the spliced range is the old byte. -/
theorem splice_outside (b : List Byte) (off : Nat) (v : List Byte) (i : Nat) (hb : off + v.length ≤ b.length)
    (h : i < off ∨ off + v.length ≤ i) : (splice b off v)[i]? = b[i]? := by
  simp only [splice, List.append_assoc]
  rcases h with h | h
  · rw [List.getElem?_append_left (by simp; omega), List.getElem?_take_of_lt h]
  · rw [List.getElem?_append_right (by simp; omega), List.getElem?_append_right (by simp; omega),
      List.getElem?_drop]
    congr 1
    simp
    omega

/-- Reading what was just written. -/
theorem slice_splice_same (b : List Byte) (off : Nat) (v : List Byte) (hb : off + v.length ≤ b.length) :
    slice (splice b off v) off v.length = v := by
  apply List.ext_getElem?
  intro i
  simp only [slice]
  by_cases hi : i < v.length
  · rw [List.getElem?_take_of_lt hi, List.getElem?_drop, splice_inside b off v _ hb (by omega) (by omega)]
    congr 1
    omega
  · rw [List.getElem?_eq_none (by simp; omega), List.getElem?_eq_none (by omega)]

/-- Reading a range that the write did not touch. -/
theorem slice_splice_disjoint (b : List Byte) (off : Nat) (v : List Byte) (o n : Nat)
    (hb : off + v.length ≤ b.length) (h : o + n ≤ off ∨ off + v.length ≤ o) :
    slice (splice b off v) o n = slice b o n := by
  apply List.ext_getElem?
  intro i
  simp only [slice]
  by_cases hi : i < n
  · rw [List.getElem?_take_of_lt hi, List.getElem?_take_of_lt hi, List.getElem?_drop, List.getElem?_drop,
      splice_outside b off v _ hb (by omega)]
  · rw [List.getElem?_take, List.getElem?_take, if_neg hi, if_neg hi]

/-- Splicing into the middle part of a string given in three parts. -/
theorem splice_append (a m z v : List Byte) (hv : v.length = m.length) :
    splice (a ++ m ++ z) a.length v = a ++ v ++ z := by
  simp [splice, hv]

/-- Slicing the middle part of a string given in three parts. -/
theorem slice_append (a m z : List Byte) : slice (a ++ m ++ z) a.length m.length = m := by
  simp [slice]

/-- Reading the middle of a byte string given as three parts. -/
theorem slice_at {a m z : List Byte} {off n : Nat} (h1 : off = a.length) (h2 : n = m.length) :
    slice (a ++ m ++ z) off n = m := by
  subst h1 h2; exact slice_append a m z

/-- Writing over the middle of a byte string given as three parts. -/
theorem splice_at {a m z v : List Byte} {off : Nat} (h1 : off = a.length) (h2 : v.length = m.length) :
    splice (a ++ m ++ z) off v = a ++ v ++ z := by
  subst h1; exact splice_append a m z v h2

/-- Two writes to one place: the later one counts. -/
theorem splice_splice_same (b : List Byte) (off : Nat) (u v : List Byte) (hb : off + u.length ≤ b.length)
    (huv : v.length = u.length) : splice (splice b off u) off v = splice b off v := by
  apply List.ext_getElem?
  intro i
  have hs := splice_length b off u hb
  by_cases hi : off ≤ i ∧ i < off + v.length
  · rw [splice_inside _ _ _ _ (by omega) hi.1 hi.2, splice_inside _ _ _ _ (by omega) hi.1 hi.2]
  · rw [splice_outside _ _ _ _ (by omega) (by omega), splice_outside _ _ _ _ (by omega) (by omega),
      splice_outside _ _ _ _ (by omega) (by omega)]

/-- Writing back what is there changes nothing. -/
theorem splice_slice_self (b : List Byte) (off n : Nat) (hb : off + n ≤ b.length) :
    splice b off (slice b off n) = b := by
  apply List.ext_getElem?
  intro i
  have hl := slice_length b off n hb
  by_cases hi : off ≤ i ∧ i < off + n
  · rw [splice_inside _ _ _ _ (by omega) hi.1 (by omega)]
    simp only [slice]
    rw [List.getElem?_take_of_lt (by omega), List.getElem?_drop]
    congr 1
    omega
  · rw [splice_outside _ _ _ _ (by omega) (by omega)]

/-! ### Integers -/

@[simp] theorem toBe32_length (v : U32) : (toBe32 v).length = 4 := rfl
@[simp] theorem toBe16_length (v : U16) : (toBe16 v).length = 2 := rfl

/-- `be32` undoes `to_be32` (00_scope.md R11). -/
@[simp] theorem be32_toBe32 (v : U32) : be32 (toBe32 v) = v := by
  apply BitVec.eq_of_toNat_eq
  have := v.isLt
  simp [be32, toBe32]
  omega

/-- `be16` undoes `to_be16` (00_scope.md R11). -/
@[simp] theorem be16_toBe16 (v : U16) : be16 (toBe16 v) = v := by
  apply BitVec.eq_of_toNat_eq
  have := v.isLt
  simp [be16, toBe16]
  omega

/-! ### Padding -/

theorem padLength_le (l : Nat) : padLength l ≤ 15 := by simp [padLength]; omega

theorem padLength_aligns (l : Nat) : (l + padLength l + 2) % 16 = 0 := by simp [padLength]; omega

@[simp] theorem paddingBytes_length (n : Nat) : (paddingBytes n).length = n := by simp [paddingBytes]

@[simp] theorem fillBytes_length (w d n : Nat) : (fillBytes w d n).length = n := by simp [fillBytes]

/-! ### The primitives (41_crypto_contexts.md R155) -/

@[simp] theorem aesCbcEnc_length (k iv x : List Byte) : (Config.aesCbcEnc k iv x).length = x.length := by
  simp [Config.aesCbcEnc]

@[simp] theorem aesCbcDec_length (k iv x : List Byte) : (Config.aesCbcDec k iv x).length = x.length := by
  simp [Config.aesCbcDec]

@[simp] theorem hmacSha1_length (k x : List Byte) : (Config.hmacSha1 k x).length = 20 := by
  simp [Config.hmacSha1]

theorem aesCbcDec_of_length (k iv l : List Byte) (n : Nat) (h : l.length = n) :
    Config.aesCbcDec k iv l = List.ofFn ((Config.aesCbc k iv n).symm (fun i => l.get (i.cast h.symm))) := by
  subst h; rfl

theorem aesCbcEnc_of_length (k iv l : List Byte) (n : Nat) (h : l.length = n) :
    Config.aesCbcEnc k iv l = List.ofFn (Config.aesCbc k iv n (fun i => l.get (i.cast h.symm))) := by
  subst h; rfl

theorem get_cast_ofFn {n : Nat} (f : Fin n → Byte) (h : (List.ofFn f).length = n) :
    (fun i : Fin n => (List.ofFn f).get (i.cast h.symm)) = f := by
  funext i
  simp

theorem ofFn_get (x : List Byte) : List.ofFn (fun i => x.get i) = x := by
  apply List.ext_getElem <;> simp

/-- Decryption undoes encryption (R155 (c)). -/
@[simp] theorem aesCbcDec_aesCbcEnc (k iv x : List Byte) : Config.aesCbcDec k iv (Config.aesCbcEnc k iv x) = x := by
  rw [aesCbcDec_of_length k iv _ x.length (aesCbcEnc_length k iv x)]
  simp only [Config.aesCbcEnc]
  rw [get_cast_ofFn _ List.length_ofFn, Equiv.symm_apply_apply]
  exact ofFn_get x

/-- Encryption undoes decryption (R155 (c)). -/
@[simp] theorem aesCbcEnc_aesCbcDec (k iv x : List Byte) : Config.aesCbcEnc k iv (Config.aesCbcDec k iv x) = x := by
  rw [aesCbcEnc_of_length k iv _ x.length (aesCbcDec_length k iv x)]
  simp only [Config.aesCbcDec]
  rw [get_cast_ofFn _ List.length_ofFn, Equiv.apply_symm_apply]
  exact ofFn_get x

/-- The spec's bounds on `MAX_LEN` (00_scope.md R9). -/
theorem maxLen_ge : 1607 ≤ Config.maxLen := Nat.le_add_left _ _

theorem maxLen_le : Config.maxLen ≤ 65535 := by
  have h : Config.maxLenAbove.val < 63929 := Config.maxLenAbove.isLt
  unfold Config.maxLen
  omega

theorem nWorkers_pos : 0 < Config.nWorkers := by simp [Config.nWorkers]

end Sys2Proof.Machine
end

