-- ==== Sys2Proof/Laws/Ops.lean ====
section
/-! SUPPORT. What each shared operation can do, said once: an equation for the case in which it completes, and a
triple (`Post`) that holds of every way it ends. Later proofs cite these and do not unfold the operations. -/

namespace Sys2Proof.Machine

/-! ### Sequencing -/

@[simp] theorem ok_bind {α β : Type} (a : α) (f : α → Except Stop β) :
    ((Except.ok a : Except Stop α) >>= f) = f a := rfl

@[simp] theorem error_bind {α β : Type} (e : Stop) (f : α → Except Stop β) :
    ((Except.error e : Except Stop α) >>= f) = .error e := rfl

/-- The next operation completes, and the rest goes on from its value. -/
theorem bind_of_ok {α β : Type} {r : Except Stop α} {a : α} {f : α → Except Stop β} {x : Except Stop β}
    (hr : r = .ok a) (hf : f a = x) : (r >>= f) = x := by
  subst hr; exact hf

/-- The next operation stops, and with it the whole. -/
theorem bind_of_error {α β : Type} {r : Except Stop α} {e : Stop} {f : α → Except Stop β} (hr : r = .error e) :
    (r >>= f) = .error e := by
  subst hr; rfl

/-- Every way an operation ends: with a value that `Q` holds of, or by a `raise` that `P` holds of, or in a fault or a
refusal. -/
def Post {α : Type} (Q : α → Prop) (P : DropReason → Handle → Ctx → Prop) : Except Stop α → Prop
  | .ok a => Q a
  | .error (.raised e h c) => P e h c
  | .error (.fault _) => True
  | .error (.refused _) => True

theorem Post.bind {α β : Type} {Q : α → Prop} {Q' : β → Prop} {P : DropReason → Handle → Ctx → Prop}
    {r : Except Stop α} {f : α → Except Stop β} (hr : Post Q P r) (hf : ∀ a, Q a → Post Q' P (f a)) :
    Post Q' P (r >>= f) := by
  match r, hr with
  | .ok a, hr => exact hf a hr
  | .error (.raised _ _ _), hr => exact hr
  | .error (.fault _), _ => trivial
  | .error (.refused _), _ => trivial

theorem Post.mono {α : Type} {Q Q' : α → Prop} {P P' : DropReason → Handle → Ctx → Prop} {r : Except Stop α}
    (hr : Post Q P r) (hQ : ∀ a, Q a → Q' a) (hP : ∀ e h c, P e h c → P' e h c) : Post Q' P' r := by
  match r, hr with
  | .ok a, hr => exact hQ a hr
  | .error (.raised _ _ _), hr => exact hP _ _ _ hr
  | .error (.fault _), _ => trivial
  | .error (.refused _), _ => trivial

/-- A triple of a computation that never raises holds with any condition on raises. -/
theorem Post.quiet {α : Type} {Q : α → Prop} {P : DropReason → Handle → Ctx → Prop} {r : Except Stop α}
    (hr : Post Q (fun _ _ _ => False) r) : Post Q P r :=
  hr.mono (fun _ h => h) (fun _ _ _ h => h.elim)

theorem Post.of_ok {α : Type} {Q : α → Prop} {P : DropReason → Handle → Ctx → Prop} {r : Except Stop α} {a : α}
    (hr : Post Q P r) (h : r = .ok a) : Q a := by subst h; exact hr

theorem Post.of_raised {α : Type} {Q : α → Prop} {P : DropReason → Handle → Ctx → Prop} {r : Except Stop α}
    {e : DropReason} {h : Handle} {c : Ctx} (hr : Post Q P r) (hraise : r = .error (.raised e h c)) : P e h c := by
  subst hraise; exact hr

/-! ### Running a command -/

theorem runOn_of_ok {p : Pipeline} {s : State} {f : Ctx → Except Stop Ctx} {x : Espc} {c : Ctx}
    (hx : s.tuple? = some x) (hf : f ⟨x, s.mem, s.active⟩ = .ok c) : runOn p s f = .next (s.withCtx c) := by
  simp [runOn, State.ctx?_of_tuple? s x hx, hf]

theorem runOn_of_raised {p : Pipeline} {s : State} {f : Ctx → Except Stop Ctx} {x : Espc} {e : DropReason}
    {h : Handle} {c : Ctx} (hx : s.tuple? = some x) (hf : f ⟨x, s.mem, s.active⟩ = .error (.raised e h c)) :
    runOn p s f = .next (s.withCtx (takeDrop p e h c)) := by
  simp [runOn, State.ctx?_of_tuple? s x hx, hf]

theorem runOn_of_fault {p : Pipeline} {s : State} {f : Ctx → Except Stop Ctx} {x : Espc} {r : Fault}
    (hx : s.tuple? = some x) (hf : f ⟨x, s.mem, s.active⟩ = .error (.fault r)) : runOn p s f = .fault r := by
  simp [runOn, State.ctx?_of_tuple? s x hx, hf]

theorem runOn_of_refused {p : Pipeline} {s : State} {f : Ctx → Except Stop Ctx} {x : Espc} {r : Refusal}
    (hx : s.tuple? = some x) (hf : f ⟨x, s.mem, s.active⟩ = .error (.refused r)) : runOn p s f = .refused r := by
  simp [runOn, State.ctx?_of_tuple? s x hx, hf]

/-- Everything a command that answers a next state has done. -/
theorem runOn_inv {p : Pipeline} {s t : State} {f : Ctx → Except Stop Ctx} (h : runOn p s f = .next t) :
    ∃ x, s.tuple? = some x ∧
      ((∃ c, f ⟨x, s.mem, s.active⟩ = .ok c ∧ t = s.withCtx c) ∨
        ∃ e k c, f ⟨x, s.mem, s.active⟩ = .error (.raised e k c) ∧ t = s.withCtx (takeDrop p e k c)) := by
  simp only [runOn, State.ctx?] at h
  cases hx : s.workers[s.active]? with
  | none => simp [hx] at h
  | some x =>
    refine ⟨x, hx, ?_⟩
    simp only [hx, Option.map_some] at h
    split at h
    · next c hc => exact .inl ⟨c, hc, by simpa using h.symm⟩
    · next e k c hc => exact .inr ⟨e, k, c, hc, by simpa using h.symm⟩
    · simp at h
    · simp at h

/-- A triple of the command's body, as what its next state is. -/
theorem runOn_post {p : Pipeline} {s t : State} {f : Ctx → Except Stop Ctx} {Q : Espc → Ctx → Prop}
    (h : runOn p s f = .next t)
    (hf : ∀ x, s.tuple? = some x →
      Post (Q x) (fun e k c => Q x (takeDrop p e k c)) (f ⟨x, s.mem, s.active⟩)) :
    ∃ x c, s.tuple? = some x ∧ t = s.withCtx c ∧ Q x c := by
  obtain ⟨x, hx, ⟨c, hc, rfl⟩ | ⟨e, k, c, hc, rfl⟩⟩ := runOn_inv h
  · exact ⟨x, c, hx, rfl, (hf x hx).of_ok hc⟩
  · exact ⟨x, _, hx, rfl, (hf x hx).of_raised hc⟩

/-! ### Preconditions -/

theorem requireReady_eq {c : Ctx} (h : c.inst.phase = .ready) : c.requireReady = .ok () := by
  simp [Ctx.requireReady, h]

theorem requireReady_refused {c : Ctx} (h : c.inst.phase ≠ .ready) :
    c.requireReady = .error (.refused .wrongPhase) := by
  simp [Ctx.requireReady, h]

theorem requireReady_post (c : Ctx) : Post (fun _ => c.inst.phase = .ready) (fun _ _ _ => False) c.requireReady := by
  unfold Ctx.requireReady
  split
  · next h => exact h
  · trivial

@[simp] theorem requireContract_true : requireContract true = .ok () := rfl
@[simp] theorem requireContract_false : requireContract false = .error (.fault .contractViolation) := rfl
@[simp] theorem requireBounds_true : requireBounds true = .ok () := rfl
@[simp] theorem requireBounds_false : requireBounds false = .error (.fault .codecBounds) := rfl
@[simp] theorem requireOperand_true : requireOperand true = .ok () := rfl
@[simp] theorem requireOperand_false : requireOperand false = .error (.refused .malformedOperand) := rfl

theorem requireContract_post (b : Bool) : Post (fun _ => b = true) (fun _ _ _ => False) (requireContract b) := by
  cases b <;> trivial

theorem requireBounds_post (b : Bool) : Post (fun _ => b = true) (fun _ _ _ => False) (requireBounds b) := by
  cases b <;> trivial

theorem requireOperand_post (b : Bool) : Post (fun _ => b = true) (fun _ _ _ => False) (requireOperand b) := by
  cases b <;> trivial

theorem requireNotInFlight_eq {c : Ctx} {h : Handle} (hf : c.inst.inFlight h = false) :
    c.requireNotInFlight h = .ok () := by
  simp [Ctx.requireNotInFlight, hf]

theorem requireNotInFlight_post (c : Ctx) (h : Handle) :
    Post (fun _ => c.inst.inFlight h = false) (fun _ _ _ => False) (c.requireNotInFlight h) := by
  unfold Ctx.requireNotInFlight
  split
  · trivial
  · next hf => exact Bool.eq_false_iff.mpr hf

theorem buffer_eq {c : Ctx} {h : Handle} {b : List Byte} (hb : c.mem.get h = some b) : c.buffer h = .ok b := by
  simp [Ctx.buffer, hb]

theorem buffer_refused {c : Ctx} {h : Handle} (hb : c.mem.get h = none) :
    c.buffer h = .error (.refused .unknownHandle) := by
  simp [Ctx.buffer, hb]


theorem buffer_post (c : Ctx) (h : Handle) :
    Post (fun b => c.mem.get h = some b) (fun _ _ _ => False) (c.buffer h) := by
  unfold Ctx.buffer
  split
  · next b hb => exact hb
  · trivial

/-! ### Packet bytes -/

theorem len_eq {c : Ctx} {h : Handle} {b : List Byte} (hb : c.mem.get h = some b) : c.len h = .ok b.length := by
  simp [Ctx.len, buffer_eq hb]

theorem len_post (c : Ctx) (h : Handle) :
    Post (fun n => ∃ b, c.mem.get h = some b ∧ n = b.length) (fun _ _ _ => False) (c.len h) :=
  (buffer_post c h).bind fun b hb => ⟨b, hb, rfl⟩

theorem memRead_eq {c : Ctx} {h : Handle} {off n : Nat} {b : List Byte} (hb : c.mem.get h = some b)
    (hn : off + n ≤ b.length) : c.memRead h off n = .ok (slice b off n) := by
  simp [Ctx.memRead, buffer_eq hb, hn]

theorem memRead_fault {c : Ctx} {h : Handle} {off n : Nat} {b : List Byte} (hb : c.mem.get h = some b)
    (hn : ¬ off + n ≤ b.length) : c.memRead h off n = .error (.fault .codecBounds) := by
  simp [Ctx.memRead, buffer_eq hb, hn]

theorem memRead_post (c : Ctx) (h : Handle) (off n : Nat) :
    Post (fun v => ∃ b, c.mem.get h = some b ∧ off + n ≤ b.length ∧ v = slice b off n) (fun _ _ _ => False)
      (c.memRead h off n) :=
  (buffer_post c h).bind fun b hb =>
    (requireBounds_post _).bind fun _ hn => ⟨b, hb, of_decide_eq_true hn, rfl⟩

theorem memWrite_eq {c : Ctx} {h : Handle} {off : Nat} {v b : List Byte} (hb : c.mem.get h = some b)
    (hn : off + v.length ≤ b.length) :
    c.memWrite h off v = .ok (c.withMem (c.mem.put h (splice b off v))) := by
  simp [Ctx.memWrite, buffer_eq hb, hn]

theorem memWrite_fault {c : Ctx} {h : Handle} {off : Nat} {v b : List Byte} (hb : c.mem.get h = some b)
    (hn : ¬ off + v.length ≤ b.length) : c.memWrite h off v = .error (.fault .codecBounds) := by
  simp [Ctx.memWrite, buffer_eq hb, hn]

theorem memWrite_post (c : Ctx) (h : Handle) (off : Nat) (v : List Byte) :
    Post (fun c' => ∃ b, c.mem.get h = some b ∧ off + v.length ≤ b.length ∧
        c' = c.withMem (c.mem.put h (splice b off v)))
      (fun _ _ _ => False) (c.memWrite h off v) :=
  (buffer_post c h).bind fun b hb =>
    (requireBounds_post _).bind fun _ hn => ⟨b, hb, of_decide_eq_true hn, rfl⟩

/-! ### The buffer provider -/

theorem growHead_eq {c : Ctx} {h : Handle} {n : Nat} {b : List Byte} (hb : c.mem.get h = some b)
    (h1 : 14 ≤ b.length) (h2 : b.length + n ≤ Config.maxLen) :
    c.growHead h n = .ok
      ((c.withMem (c.mem.put h (b.take 14 ++ c.fill n ++ b.drop 14))).drawn n) := by
  simp [Ctx.growHead, buffer_eq hb, h1, h2]

theorem growHead_post (c : Ctx) (h : Handle) (n : Nat) :
    Post (fun c' => ∃ b, c.mem.get h = some b ∧ 14 ≤ b.length ∧ b.length + n ≤ Config.maxLen ∧
        c' =
          (c.withMem (c.mem.put h (b.take 14 ++ c.fill n ++ b.drop 14))).drawn n)
      (fun _ _ _ => False) (c.growHead h n) :=
  (buffer_post c h).bind fun b hb =>
    (requireContract_post _).bind fun _ hn =>
      ⟨b, hb, (of_decide_eq_true hn).1, (of_decide_eq_true hn).2, rfl⟩

theorem growTail_eq {c : Ctx} {h : Handle} {n : Nat} {b : List Byte} (hb : c.mem.get h = some b)
    (h2 : b.length + n ≤ Config.maxLen) :
    c.growTail h n = .ok
      ((c.withMem (c.mem.put h (b ++ c.fill n))).drawn n) := by
  simp [Ctx.growTail, buffer_eq hb, h2]

theorem growTail_post (c : Ctx) (h : Handle) (n : Nat) :
    Post (fun c' => ∃ b, c.mem.get h = some b ∧ b.length + n ≤ Config.maxLen ∧
        c' = (c.withMem (c.mem.put h (b ++ c.fill n))).drawn n)
      (fun _ _ _ => False) (c.growTail h n) :=
  (buffer_post c h).bind fun b hb =>
    (requireContract_post _).bind fun _ hn => ⟨b, hb, of_decide_eq_true hn, rfl⟩

theorem shrinkHead_eq {c : Ctx} {h : Handle} {n : Nat} {b : List Byte} (hb : c.mem.get h = some b)
    (h1 : 14 + n ≤ b.length) :
    c.shrinkHead h n = .ok (c.withMem (c.mem.put h (b.take 14 ++ b.drop (14 + n)))) := by
  simp [Ctx.shrinkHead, buffer_eq hb, h1]

theorem shrinkHead_post (c : Ctx) (h : Handle) (n : Nat) :
    Post (fun c' => ∃ b, c.mem.get h = some b ∧ 14 + n ≤ b.length ∧
        c' = c.withMem (c.mem.put h (b.take 14 ++ b.drop (14 + n))))
      (fun _ _ _ => False) (c.shrinkHead h n) :=
  (buffer_post c h).bind fun b hb =>
    (requireContract_post _).bind fun _ hn => ⟨b, hb, of_decide_eq_true hn, rfl⟩

theorem shrinkTail_eq {c : Ctx} {h : Handle} {n : Nat} {b : List Byte} (hb : c.mem.get h = some b)
    (h1 : n ≤ b.length) :
    c.shrinkTail h n = .ok (c.withMem (c.mem.put h (b.take (b.length - n)))) := by
  simp [Ctx.shrinkTail, buffer_eq hb, h1]

theorem shrinkTail_post (c : Ctx) (h : Handle) (n : Nat) :
    Post (fun c' => ∃ b, c.mem.get h = some b ∧ n ≤ b.length ∧
        c' = c.withMem (c.mem.put h (b.take (b.length - n))))
      (fun _ _ _ => False) (c.shrinkTail h n) :=
  (buffer_post c h).bind fun b hb =>
    (requireContract_post _).bind fun _ hn => ⟨b, hb, of_decide_eq_true hn, rfl⟩

/-! ### The codec and the IPv4 accessor -/

theorem hdrView_eq {c : Ctx} {h : Handle} {off : Nat} {b : List Byte} (hb : c.mem.get h = some b)
    (hn : off + 24 ≤ b.length) : c.hdrView h off = .ok ⟨h, off⟩ := by
  simp [Ctx.hdrView, buffer_eq hb, hn]

theorem trlView_eq {c : Ctx} {h : Handle} {off : Nat} {b : List Byte} (hb : c.mem.get h = some b)
    (hn : off + 14 ≤ b.length) : c.trlView h off = .ok ⟨h, off⟩ := by
  simp [Ctx.trlView, buffer_eq hb, hn]

theorem hdrView_post (c : Ctx) (h : Handle) (off : Nat) :
    Post (fun v => v = ⟨h, off⟩ ∧ ∃ b, c.mem.get h = some b ∧ off + 24 ≤ b.length) (fun _ _ _ => False)
      (c.hdrView h off) :=
  (buffer_post c h).bind fun b hb =>
    (requireBounds_post _).bind fun _ hn => ⟨rfl, b, hb, of_decide_eq_true hn⟩

theorem trlView_post (c : Ctx) (h : Handle) (off : Nat) :
    Post (fun v => v = ⟨h, off⟩ ∧ ∃ b, c.mem.get h = some b ∧ off + 14 ≤ b.length) (fun _ _ _ => False)
      (c.trlView h off) :=
  (buffer_post c h).bind fun b hb =>
    (requireBounds_post _).bind fun _ hn => ⟨rfl, b, hb, of_decide_eq_true hn⟩

theorem readU32_eq {c : Ctx} {v : View} {k : Nat} {b : List Byte} (hb : c.mem.get v.h = some b)
    (hn : v.off + k + 4 ≤ b.length) : c.readU32 v k = .ok (be32 (slice b (v.off + k) 4)) := by
  simp [Ctx.readU32, memRead_eq hb hn]

theorem readU8_eq {c : Ctx} {v : View} {k : Nat} {b : List Byte} (hb : c.mem.get v.h = some b)
    (hn : v.off + k + 1 ≤ b.length) : c.readU8 v k = .ok (byte1 (slice b (v.off + k) 1)) := by
  simp [Ctx.readU8, memRead_eq hb hn]

theorem readU32_post (c : Ctx) (v : View) (k : Nat) :
    Post (fun _ => True) (fun _ _ _ => False) (c.readU32 v k) :=
  (memRead_post c _ _ _).bind fun _ _ => trivial

theorem readU8_post (c : Ctx) (v : View) (k : Nat) :
    Post (fun _ => True) (fun _ _ _ => False) (c.readU8 v k) :=
  (memRead_post c _ _ _).bind fun _ _ => trivial

theorem ip4Read_eq {c : Ctx} {h : Handle} {base k n : Nat} {b : List Byte} (hb : c.mem.get h = some b)
    (h1 : base + 20 ≤ b.length) (h2 : k + n ≤ 20) : c.ip4Read h base k n = .ok (slice b (base + k) n) := by
  have h3 : base + k + n ≤ b.length := by omega
  simp [Ctx.ip4Read, buffer_eq hb, h1, memRead_eq hb h3]

theorem ip4Write_eq {c : Ctx} {h : Handle} {base k : Nat} {v b : List Byte} (hb : c.mem.get h = some b)
    (h1 : base + 20 ≤ b.length) (h2 : k + v.length ≤ 20) :
    c.ip4Write h base k v = .ok (c.withMem (c.mem.put h (splice b (base + k) v))) := by
  have h3 : base + k + v.length ≤ b.length := by omega
  simp [Ctx.ip4Write, buffer_eq hb, h1, memWrite_eq hb h3]

theorem ip4Read_fault {c : Ctx} {h : Handle} {base k n : Nat} {b : List Byte} (hb : c.mem.get h = some b)
    (h1 : ¬ base + 20 ≤ b.length) : c.ip4Read h base k n = .error (.fault .codecBounds) := by
  simp [Ctx.ip4Read, buffer_eq hb, h1]

theorem ip4Write_fault {c : Ctx} {h : Handle} {base k : Nat} {v b : List Byte} (hb : c.mem.get h = some b)
    (h1 : ¬ base + 20 ≤ b.length) : c.ip4Write h base k v = .error (.fault .codecBounds) := by
  simp [Ctx.ip4Write, buffer_eq hb, h1]


theorem ip4Read_post (c : Ctx) (h : Handle) (base k n : Nat) :
    Post (fun v => ∃ b, c.mem.get h = some b ∧ base + 20 ≤ b.length ∧ v = slice b (base + k) n)
      (fun _ _ _ => False) (c.ip4Read h base k n) :=
  (buffer_post c h).bind fun b hb =>
    (requireBounds_post _).bind fun _ hn =>
      (memRead_post c _ _ _).mono
        (fun v ⟨b', hb', _, hv⟩ => ⟨b, hb, of_decide_eq_true hn, by
          rw [hb] at hb'; cases hb'; exact hv⟩)
        (fun _ _ _ h => h)

theorem ip4Write_post (c : Ctx) (h : Handle) (base k : Nat) (v : List Byte) :
    Post (fun c' => ∃ b, c.mem.get h = some b ∧ base + 20 ≤ b.length ∧ base + k + v.length ≤ b.length ∧
        c' = c.withMem (c.mem.put h (splice b (base + k) v)))
      (fun _ _ _ => False) (c.ip4Write h base k v) :=
  (buffer_post c h).bind fun b hb =>
    (requireBounds_post _).bind fun _ hn =>
      (memWrite_post c _ _ _).mono
        (fun c' ⟨b', hb', hw, hc⟩ => by
          rw [hb] at hb'; cases hb'
          exact ⟨b, hb, of_decide_eq_true hn, hw, hc⟩)
        (fun _ _ _ h => h)

/-! ### The scalar context -/

theorem scEnc_eq {c : Ctx} {iv : List Byte} {d : Region} {b : List Byte} (hb : c.mem.get d.h = some b)
    (h16 : d.n % 16 = 0) (hn : d.off + d.n ≤ b.length) :
    c.scEnc iv d = .ok ((c.withMem (c.mem.put d.h (splice b d.off
      (Config.aesCbcEnc c.inst.encKey.toList iv (slice b d.off d.n))))).traced (.scEnc d.h)) := by
  have hl := slice_length b d.off d.n hn
  have hw : d.off + (Config.aesCbcEnc c.inst.encKey.toList iv (slice b d.off d.n)).length ≤ b.length := by
    simp [hl, hn]
  simp [Ctx.scEnc, h16, memRead_eq hb hn, memWrite_eq hb hw]

theorem scDec_eq {c : Ctx} {iv : List Byte} {d : Region} {b : List Byte} (hb : c.mem.get d.h = some b)
    (h16 : d.n % 16 = 0) (hn : d.off + d.n ≤ b.length) :
    c.scDec iv d = .ok ((c.withMem (c.mem.put d.h (splice b d.off
      (Config.aesCbcDec c.inst.encKey.toList iv (slice b d.off d.n))))).traced (.scDec d.h)) := by
  have hl := slice_length b d.off d.n hn
  have hw : d.off + (Config.aesCbcDec c.inst.encKey.toList iv (slice b d.off d.n)).length ≤ b.length := by
    simp [hl, hn]
  simp [Ctx.scDec, h16, memRead_eq hb hn, memWrite_eq hb hw]

theorem scAuth_eq {c : Ctx} {d : Region} {b : List Byte} (hb : c.mem.get d.h = some b)
    (hn : d.off + d.n ≤ b.length) :
    c.scAuth d = .ok (Config.hmacSha1 c.inst.authKey.toList (slice b d.off d.n), c.traced (.scAuth d.h)) := by
  simp [Ctx.scAuth, memRead_eq hb hn]

theorem scEnc_post (c : Ctx) (iv : List Byte) (d : Region) :
    Post (fun c' => d.n % 16 = 0 ∧ ∃ b, c.mem.get d.h = some b ∧ d.off + d.n ≤ b.length ∧
        c' = (c.withMem (c.mem.put d.h (splice b d.off
          (Config.aesCbcEnc c.inst.encKey.toList iv (slice b d.off d.n))))).traced (.scEnc d.h))
      (fun e h c' => d.n % 16 ≠ 0 ∧ e = .invalidBlockLength ∧ h = d.h ∧ c' = c) (c.scEnc iv d) := by
  by_cases h16 : d.n % 16 = 0
  · cases hb : c.mem.get d.h with
    | none => simp [Ctx.scEnc, h16, Ctx.memRead, Ctx.buffer, hb, Post]
    | some b =>
      by_cases hn : d.off + d.n ≤ b.length
      · rw [scEnc_eq hb h16 hn]; exact ⟨h16, b, rfl, hn, rfl⟩
      · simp [Ctx.scEnc, h16, memRead_fault hb hn, Post]
  · simp [Ctx.scEnc, h16, Post]

theorem scDec_post (c : Ctx) (iv : List Byte) (d : Region) :
    Post (fun c' => d.n % 16 = 0 ∧ ∃ b, c.mem.get d.h = some b ∧ d.off + d.n ≤ b.length ∧
        c' = (c.withMem (c.mem.put d.h (splice b d.off
          (Config.aesCbcDec c.inst.encKey.toList iv (slice b d.off d.n))))).traced (.scDec d.h))
      (fun e h c' => d.n % 16 ≠ 0 ∧ e = .invalidBlockLength ∧ h = d.h ∧ c' = c) (c.scDec iv d) := by
  by_cases h16 : d.n % 16 = 0
  · cases hb : c.mem.get d.h with
    | none => simp [Ctx.scDec, h16, Ctx.memRead, Ctx.buffer, hb, Post]
    | some b =>
      by_cases hn : d.off + d.n ≤ b.length
      · rw [scDec_eq hb h16 hn]; exact ⟨h16, b, rfl, hn, rfl⟩
      · simp [Ctx.scDec, h16, memRead_fault hb hn, Post]
  · simp [Ctx.scDec, h16, Post]

theorem scAuth_post (c : Ctx) (d : Region) :
    Post (fun r => ∃ b, c.mem.get d.h = some b ∧ d.off + d.n ≤ b.length ∧
        r = (Config.hmacSha1 c.inst.authKey.toList (slice b d.off d.n), c.traced (.scAuth d.h)))
      (fun _ _ _ => False) (c.scAuth d) :=
  (memRead_post c _ _ _).bind fun _ ⟨b, hb, hn, hx⟩ => ⟨b, hb, hn, by rw [hx]⟩

/-! ### The vector context -/

theorem vcReg_eq {c : Ctx} {sl : Slot} (h1 : c.inst.count < 8) (h2 : sl.ctLen % 16 = 0) :
    c.vcReg sl = .ok { c with inst := { c.inst with
      slots := c.inst.slots.setIfInBounds c.inst.count sl, count := c.inst.count + 1 } } := by
  simp [Ctx.vcReg, h1, h2]

theorem vcReg_post (c : Ctx) (sl : Slot) :
    Post (fun c' => c.inst.count < 8 ∧ sl.ctLen % 16 = 0 ∧ c' = { c with inst := { c.inst with
        slots := c.inst.slots.setIfInBounds c.inst.count sl, count := c.inst.count + 1 } })
      (fun _ _ _ => False) (c.vcReg sl) :=
  (requireContract_post _).bind fun _ h1 =>
    (requireContract_post _).bind fun _ h2 => ⟨of_decide_eq_true h1, by simpa using h2, rfl⟩

/-- The batch after a registration is the batch before it and the new slot. -/
theorem batch_register (x : Espc) (sl : Slot) (h : x.count < 8) :
    ({ x with slots := x.slots.setIfInBounds x.count sl, count := x.count + 1 } : Espc).batch = x.batch ++ [sl] := by
  have hl : x.count < x.slots.toList.length := by simpa using h
  simp only [Espc.batch]
  rw [Vector.toList_setIfInBounds, List.take_add_one]
  congr 1
  · exact List.take_set_of_le (le_refl _)
  · simp [List.getElem?_set_self hl]

theorem batch_length (x : Espc) (h : x.count ≤ 8) : x.batch.length = x.count := by
  simp [Espc.batch, h]

theorem readSlots_batch (c : Ctx) : c.readSlots c.inst.count = .ok c.inst.batch := by
  simp [Ctx.readSlots, Espc.batch]

theorem readSlots_post (c : Ctx) (n : Nat) :
    Post (fun sls => n ≤ c.inst.count ∧ sls = c.inst.slots.toList.take n) (fun _ _ _ => False) (c.readSlots n) :=
  (requireContract_post _).bind fun _ h => ⟨of_decide_eq_true h, rfl⟩

theorem mbEnc_post (c : Ctx) (key : List Byte) (ivs xs : List (List Byte)) :
    Post (fun r => ivs.length = 8 ∧ xs.length = 8 ∧ xs.all isBlocks = true ∧
        r = (List.zipWith (Config.aesCbcEnc key) ivs xs, c.traced .mbEnc))
      (fun _ _ _ => False) (c.mbEnc key ivs xs) :=
  (requireContract_post _).bind fun _ h => by
    simp only [Bool.and_eq_true, beq_iff_eq] at h
    exact ⟨h.1.1, h.1.2, h.2, rfl⟩

theorem mbHmac_post (c : Ctx) (key : List Byte) (lanes : List (List Byte)) :
    Post (fun r => lanes.length = 8 ∧ r = (lanes.map (Config.hmacSha1 key), c.traced .mbHmac))
      (fun _ _ _ => False) (c.mbHmac key lanes) :=
  (requireContract_post _).bind fun _ h => ⟨by simpa using h, rfl⟩

end Sys2Proof.Machine
end

