-- ==== Sys2Proof/Laws/Batch.lean ====
section
/-! SUPPORT. What the vector context makes of a batch whose slots name distinct packets: the reads and writes of many
regions, the scalar fallback, `Encrypt`, `Authenticate` and the flush (41_crypto_contexts.md R158 to R160). -/

namespace Sys2Proof.Machine

/-- The bytes of a region, read from the store as it stands. -/
def regionBytes (m : Memory) (r : Region) : List Byte := slice ((m.get r.h).getD []) r.off r.n

/-- A region lies in its packet. -/
def RegionFits (m : Memory) (r : Region) : Prop := ∃ b, m.get r.h = some b ∧ r.off + r.n ≤ b.length

theorem memRead_region {c : Ctx} {r : Region} (h : RegionFits c.mem r) :
    c.memRead r.h r.off r.n = .ok (regionBytes c.mem r) := by
  obtain ⟨b, hb, hn⟩ := h
  simp [memRead_eq hb hn, regionBytes, hb]

/-- `readAll` of regions that lie in their packets gives their bytes. -/
theorem readAll_eq (c : Ctx) (rs : List Region) (h : ∀ r ∈ rs, RegionFits c.mem r) :
    c.readAll rs = .ok (rs.map (regionBytes c.mem)) := by
  induction rs with
  | nil => rfl
  | cons r t ih =>
    simp only [Ctx.readAll, memRead_region (h r (by simp)), ok_bind,
      ih (fun q hq => h q (List.mem_cons_of_mem _ hq)), List.map_cons]

theorem EachPacket.nil (f : Slot → List Byte → List Byte) (m : Memory) : EachPacket f [] m m :=
  ⟨fun _ h => by simp at h, fun _ _ => rfl⟩

/-- One more packet at the head of a batch. -/
theorem EachPacket.cons {f : Slot → List Byte → List Byte} {sl : Slot} {t : List Slot} {m m' : Memory} {b : List Byte}
    (hb : m.get sl.pkt = some b) (hsl : ∀ q ∈ t, q.pkt ≠ sl.pkt)
    (ht : EachPacket f t (m.put sl.pkt (f sl b)) m') : EachPacket f (sl :: t) m m' := by
  constructor
  · intro q hq a ha
    rcases List.mem_cons.mp hq with rfl | hq
    · rw [hb] at ha; cases ha
      rw [ht.2 q.pkt hsl, Memory.get_put_same]
    · exact ht.1 q hq a (by rw [Memory.get_put_other _ _ _ _ (hsl q hq)]; exact ha)
  · intro g hg
    rw [ht.2 g (fun q hq => hg q (List.mem_cons_of_mem _ hq)),
      Memory.get_put_other _ _ _ _ (Ne.symm (hg sl (by simp)))]

/-- Two passes over the same batch of distinct packets. -/
theorem EachPacket.trans {f g : Slot → List Byte → List Byte} {sls : List Slot} {m m' m'' : Memory}
    (h1 : EachPacket f sls m m') (h2 : EachPacket g sls m' m'') : EachPacket (fun sl b => g sl (f sl b)) sls m m'' :=
  ⟨fun sl hsl b hb => h2.1 sl hsl _ (h1.1 sl hsl b hb), fun k hk => (h2.2 k hk).trans (h1.2 k hk)⟩

theorem EachPacket.congr {f g : Slot → List Byte → List Byte} {sls : List Slot} {m m' : Memory}
    (h : EachPacket f sls m m') (hfg : ∀ sl ∈ sls, ∀ b, m.get sl.pkt = some b → f sl b = g sl b) :
    EachPacket g sls m m' :=
  ⟨fun sl hsl b hb => by rw [← hfg sl hsl b hb]; exact h.1 sl hsl b hb, h.2⟩

/-- `writeAll` into one region of each of some distinct packets. -/
theorem writeAll_eq (c : Ctx) (sls : List Slot) (reg : Slot → Region) (val : Slot → List Byte)
    (hreg : ∀ sl, (reg sl).h = sl.pkt) (hnd : (sls.map Slot.pkt).Nodup)
    (hfit : ∀ sl ∈ sls, ∃ b, c.mem.get sl.pkt = some b ∧ (reg sl).off + (val sl).length ≤ b.length) :
    ∃ m', c.writeAll (sls.map (fun sl => (reg sl, val sl))) = .ok (c.withMem m') ∧
      EachPacket (fun sl b => splice b (reg sl).off (val sl)) sls c.mem m' := by
  induction sls generalizing c with
  | nil => exact ⟨c.mem, rfl, EachPacket.nil _ _⟩
  | cons sl t ih =>
    obtain ⟨b, hb, hn⟩ := hfit sl (by simp)
    simp only [List.map_cons, List.nodup_cons] at hnd
    have hne : ∀ q ∈ t, q.pkt ≠ sl.pkt := fun q hq he => hnd.1 (he ▸ List.mem_map_of_mem hq)
    obtain ⟨m', hw, he⟩ := ih (c.withMem (c.mem.put sl.pkt (splice b (reg sl).off (val sl)))) hnd.2 (by
      intro q hq
      obtain ⟨a, ha, hl⟩ := hfit q (List.mem_cons_of_mem _ hq)
      exact ⟨a, by rw [Ctx.withMem_mem, Memory.get_put_other _ _ _ _ (hne q hq)]; exact ha, hl⟩)
    refine ⟨m', ?_, EachPacket.cons hb hne he⟩
    simp only [List.map_cons, Ctx.writeAll, hreg, memWrite_eq hb hn, ok_bind]
    exact hw

/-- The scalar fallback of `Encrypt` over distinct packets (R158). -/
theorem scEncAll_eq (c : Ctx) (sls : List Slot) (iv : Slot → List Byte) (hnd : (sls.map Slot.pkt).Nodup)
    (hfit : ∀ sl ∈ sls, RegionFits c.mem sl.ct ∧ sl.ctLen % 16 = 0) :
    ∃ m', c.scEncAll (sls.map (fun sl => (sl, iv sl)))
        = .ok { c with mem := m', inst := { c.inst with
            trace := c.inst.trace ++ sls.map (fun sl => Event.scEnc sl.pkt) } } ∧
      EachPacket (fun sl b => splice b sl.ctOff
        (Config.aesCbcEnc c.inst.encKey.toList (iv sl) (slice b sl.ctOff sl.ctLen))) sls c.mem m' := by
  induction sls generalizing c with
  | nil => exact ⟨c.mem, by simp [Ctx.scEncAll], EachPacket.nil _ _⟩
  | cons sl t ih =>
    obtain ⟨⟨b, hb, hn⟩, h16⟩ := hfit sl (by simp)
    simp only [List.map_cons, List.nodup_cons] at hnd
    have hne : ∀ q ∈ t, q.pkt ≠ sl.pkt := fun q hq he => hnd.1 (he ▸ List.mem_map_of_mem hq)
    have h1 := scEnc_eq (c := c) (iv := iv sl) (d := sl.ct) hb h16 hn
    obtain ⟨m', hw, he⟩ := ih ((c.withMem (c.mem.put sl.pkt (splice b sl.ctOff
        (Config.aesCbcEnc c.inst.encKey.toList (iv sl) (slice b sl.ctOff sl.ctLen))))).traced (.scEnc sl.pkt)) hnd.2 (by
      intro q hq
      obtain ⟨⟨a, ha, hl⟩, h⟩ := hfit q (List.mem_cons_of_mem _ hq)
      refine ⟨⟨a, ?_, hl⟩, h⟩
      show (c.mem.put sl.pkt _).get q.pkt = some a
      rw [Memory.get_put_other _ _ _ _ (hne q hq)]; exact ha)
    refine ⟨m', ?_, EachPacket.cons hb hne he⟩
    simp only [List.map_cons, Ctx.scEncAll, h1, ok_bind]
    refine hw.trans ?_
    simp [Ctx.traced, Ctx.withMem]

/-- The scalar fallback of `Authenticate` (R159): it changes no packet. -/
theorem scAuthAll_eq (c : Ctx) (sls : List Slot) (hfit : ∀ sl ∈ sls, RegionFits c.mem sl.au) :
    c.scAuthAll sls = .ok (sls.map (fun sl => Config.hmacSha1 c.inst.authKey.toList (regionBytes c.mem sl.au)),
      { c with inst := { c.inst with trace := c.inst.trace ++ sls.map (fun sl => Event.scAuth sl.pkt) } }) := by
  induction sls generalizing c with
  | nil => simp [Ctx.scAuthAll]
  | cons sl t ih =>
    obtain ⟨b, hb, hn⟩ := hfit sl (by simp)
    have h1 := scAuth_eq (c := c) (d := sl.au) hb hn
    have h2 := ih (c.traced (.scAuth sl.pkt)) (fun q hq => hfit q (List.mem_cons_of_mem _ hq))
    have h3 : slice b sl.au.off sl.au.n = regionBytes c.mem sl.au := by simp [regionBytes, hb]
    simp only [Ctx.scAuthAll, h1, ok_bind, h3]
    rw [show sl.au.h = sl.pkt from rfl, h2]
    simp [Ctx.traced]

/-! ### `Encrypt` and `Authenticate` -/

theorem BatchOk.fits {m : Memory} {sls : List Slot} (h : BatchOk m sls) {sl : Slot} (hsl : sl ∈ sls) :
    ∃ b, m.get sl.pkt = some b ∧ sl.ctOff + sl.ctLen ≤ b.length ∧ sl.ivOff + 16 ≤ b.length ∧
      sl.auOff + sl.auLen ≤ b.length ∧ sl.adOff + 12 ≤ b.length :=
  (h.1 sl hsl).1

theorem BatchOk.ct {m : Memory} {sls : List Slot} (h : BatchOk m sls) : ∀ sl ∈ sls, RegionFits m sl.ct :=
  fun _ hsl => let ⟨b, hb, h1, _⟩ := h.fits hsl; ⟨b, hb, h1⟩

theorem BatchOk.iv {m : Memory} {sls : List Slot} (h : BatchOk m sls) : ∀ sl ∈ sls, RegionFits m sl.iv :=
  fun _ hsl => let ⟨b, hb, _, h2, _⟩ := h.fits hsl; ⟨b, hb, h2⟩

theorem BatchOk.au {m : Memory} {sls : List Slot} (h : BatchOk m sls) : ∀ sl ∈ sls, RegionFits m sl.au :=
  fun _ hsl => let ⟨b, hb, _, _, h3, _⟩ := h.fits hsl; ⟨b, hb, h3⟩

theorem mbEnc_eq {c : Ctx} {key : List Byte} {ivs xs : List (List Byte)} (h1 : ivs.length = 8) (h2 : xs.length = 8)
    (h3 : xs.all isBlocks = true) :
    c.mbEnc key ivs xs = .ok (List.zipWith (Config.aesCbcEnc key) ivs xs, c.traced .mbEnc) := by
  simp [Ctx.mbEnc, h1, h2, h3]

theorem mbHmac_eq {c : Ctx} {key : List Byte} {lanes : List (List Byte)} (h1 : lanes.length = 8) :
    c.mbHmac key lanes = .ok (lanes.map (Config.hmacSha1 key), c.traced .mbHmac) := by
  simp [Ctx.mbHmac, h1]

/-- Two lists made from one, lane by lane. -/
theorem zip_maps {α β γ : Type} (l : List α) (f : α → β) (g : α → γ) :
    (l.map f).zip (l.map g) = l.map (fun a => (f a, g a)) := by
  induction l with
  | nil => rfl
  | cons a t ih => simp [ih]

theorem zipWith_maps {α β γ δ : Type} (l : List α) (f : α → β) (g : α → γ) (k : β → γ → δ) :
    List.zipWith k (l.map f) (l.map g) = l.map (fun a => k (f a) (g a)) := by
  induction l with
  | nil => rfl
  | cons a t ih => simp [ih]

/-- `Encrypt` over slots whose views lie in distinct packets (R158): every slot's packet is encrypted, by the path its
number selects. -/
theorem vcEncrypt_eq {c : Ctx} {n : Nat} {sls : List Slot} (hs : c.readSlots n = .ok sls) (hl : sls.length = n)
    (hn : n ≤ 8) (hb : BatchOk c.mem sls) :
    ∃ m', EachPacket (slotEncrypted c.inst) sls c.mem m' ∧
      c.vcEncrypt n = .ok { c with mem := m', inst := { c.inst with
        trace := c.inst.trace ++ encryptEvents sls } } := by
  unfold Ctx.vcEncrypt
  by_cases h0 : n = 0
  · subst h0
    obtain rfl : sls = [] := List.length_eq_zero_iff.mp hl
    exact ⟨c.mem, EachPacket.nil _ _, by simp [encryptEvents]⟩
  · have hiv := readAll_eq c (sls.map Slot.iv) (by simpa using hb.iv)
    rw [if_neg h0]
    simp only [Config.vector, hn, decide_true, requireContract_true, ok_bind, hs, hiv]
    by_cases h8 : n = 8
    · have hct := readAll_eq c (sls.map Slot.ct) (by simpa using hb.ct)
      obtain ⟨m', hw, he⟩ := writeAll_eq (c.traced .mbEnc) sls Slot.ct
        (fun sl => Config.aesCbcEnc c.inst.encKey.toList (regionBytes c.mem sl.iv) (regionBytes c.mem sl.ct))
        (fun _ => rfl) hb.2 (by
          intro sl hsl
          obtain ⟨b, hb', h1, -⟩ := hb.fits hsl
          exact ⟨b, hb', by simp [regionBytes, Slot.ct, hb', slice_length b _ _ h1, h1]⟩)
      refine ⟨m', he.congr ?_, ?_⟩
      · intro sl hsl b hb'
        rw [Ctx.traced_mem] at hb'
        simp [slotEncrypted, regionBytes, Slot.ct, Slot.iv, hb']
      · have hall : (List.map (regionBytes c.mem) (List.map Slot.ct sls)).all isBlocks = true := by
          simp only [List.map_map, List.all_map, List.all_eq_true]
          intro sl hsl
          obtain ⟨b, hb', h1, -⟩ := hb.fits hsl
          have := (hb.1 sl hsl).2
          simp only [Function.comp, isBlocks, regionBytes, Slot.ct, hb', Option.getD_some, slice_length b _ _ h1]
          simpa using this
        have hmb := mbEnc_eq (c := c) (key := c.inst.encKey.toList) (ivs := (sls.map Slot.iv).map (regionBytes c.mem))
          (xs := (sls.map Slot.ct).map (regionBytes c.mem)) (by simp [hl, h8]) (by simp [hl, h8]) hall
        rw [if_pos h8]
        simp only [hct, hmb, ok_bind]
        rw [List.map_map, List.map_map, zipWith_maps, zip_maps]
        refine hw.trans ?_
        simp [Ctx.traced, Ctx.withMem, encryptEvents, hl, h8]
    · obtain ⟨m', hw, he⟩ := scEncAll_eq c sls (fun sl => regionBytes c.mem sl.iv) hb.2
        (fun sl hsl => ⟨hb.ct sl hsl, (hb.1 sl hsl).2⟩)
      refine ⟨m', he.congr ?_, ?_⟩
      · intro sl hsl b hb'
        simp [slotEncrypted, regionBytes, Slot.iv, hb']
      · rw [if_neg h8, List.map_map]
        have hz : sls.zip (sls.map (regionBytes c.mem ∘ Slot.iv)) = sls.map (fun sl => (sl, regionBytes c.mem sl.iv)) := by
          simpa using zip_maps sls id (regionBytes c.mem ∘ Slot.iv)
        rw [hz, hw]
        simp [encryptEvents, hl, h8]

/-- `Authenticate` over slots whose views lie in distinct packets (R159, R166). -/
theorem vcAuth_eq {c : Ctx} {n : Nat} {sls : List Slot} (hs : c.readSlots n = .ok sls) (hl : sls.length = n)
    (hn : n ≤ 8) (hb : BatchOk c.mem sls) :
    ∃ m', EachPacket (slotAuthenticated c.inst) sls c.mem m' ∧
      c.vcAuth n = .ok { c with mem := m', inst := { c.inst with
        trace := c.inst.trace ++ authEvents sls } } := by
  unfold Ctx.vcAuth
  by_cases h0 : n = 0
  · subst h0
    obtain rfl : sls = [] := List.length_eq_zero_iff.mp hl
    exact ⟨c.mem, EachPacket.nil _ _, by simp [authEvents]⟩
  · have hau := readAll_eq c (sls.map Slot.au) (by simpa using hb.au)
    rw [if_neg h0]
    simp only [Config.vector, hn, decide_true, requireContract_true, ok_bind, hs]
    have hdig : ∀ tr, ∃ m', Ctx.writeAll { c with inst := { c.inst with trace := tr } }
          ((sls.map Slot.ad).zip (truncated (sls.map (fun sl =>
            Config.hmacSha1 c.inst.authKey.toList (regionBytes c.mem sl.au)))))
          = .ok { c with mem := m', inst := { c.inst with trace := tr } } ∧
        EachPacket (slotAuthenticated c.inst) sls c.mem m' := by
      intro tr
      obtain ⟨m', hw, he⟩ := writeAll_eq { c with inst := { c.inst with trace := tr } } sls Slot.ad
        (fun sl => (Config.hmacSha1 c.inst.authKey.toList (regionBytes c.mem sl.au)).take 12)
        (fun _ => rfl) hb.2 (by
          intro sl hsl
          obtain ⟨b, hb', -, -, -, h4⟩ := hb.fits hsl
          exact ⟨b, hb', by simp [Slot.ad, h4]⟩)
      refine ⟨m', ?_, he.congr ?_⟩
      · have hz : (sls.map Slot.ad).zip (truncated (sls.map (fun sl =>
            Config.hmacSha1 c.inst.authKey.toList (regionBytes c.mem sl.au))))
            = sls.map (fun sl => (sl.ad, (Config.hmacSha1 c.inst.authKey.toList (regionBytes c.mem sl.au)).take 12)) := by
          rw [truncated, List.map_map, zip_maps]; rfl
        rw [hz]
        exact hw
      · intro sl hsl b hb'
        simp [slotAuthenticated, regionBytes, Slot.au, Slot.ad, show c.mem.get sl.pkt = some b from hb']
    by_cases h8 : n = 8
    · obtain ⟨m', hw, he⟩ := hdig (c.inst.trace ++ [.mbHmac])
      refine ⟨m', he, ?_⟩
      have hmb := mbHmac_eq (c := c) (key := c.inst.authKey.toList)
        (lanes := (sls.map Slot.au).map (regionBytes c.mem)) (by simp [hl, h8])
      rw [if_pos h8]
      simp only [hau, hmb, ok_bind, authEvents, hl, h8, if_true]
      rw [List.map_map, List.map_map]
      exact hw
    · obtain ⟨m', hw, he⟩ := hdig (c.inst.trace ++ sls.map (fun sl => Event.scAuth sl.pkt))
      refine ⟨m', he, ?_⟩
      rw [if_neg h8]
      simp only [scAuthAll_eq c sls hb.au, ok_bind, authEvents, hl, h8, if_false]
      exact hw

/-- The slots may still be flushed after their packets were encrypted: no length has changed. -/
theorem BatchOk.after_encrypt {x : Espc} {m m' : Memory} {sls : List Slot} (h : BatchOk m sls)
    (he : EachPacket (slotEncrypted x) sls m m') : BatchOk m' sls := by
  refine ⟨fun sl hsl => ⟨?_, (h.1 sl hsl).2⟩, h.2⟩
  obtain ⟨b, hb, h1, h2, h3, h4⟩ := h.fits hsl
  have hlen : (slotEncrypted x sl b).length = b.length :=
    splice_length _ _ _ (by simp [slice_length b _ _ h1, h1])
  exact ⟨_, he.1 sl hsl b hb, by rw [hlen]; exact ⟨h1, h2, h3, h4⟩⟩

/-- The flush of a batch whose slots name distinct packets (R160): every packet completed, the handles emitted in slot
order, the batch empty. -/
theorem vcFlush_eq {c : Ctx} (hn : c.inst.count ≤ 8) (hb : BatchOk c.mem c.inst.batch) :
    ∃ m', EachPacket (slotCompleted c.inst) c.inst.batch c.mem m' ∧
      c.vcFlush = .ok { c with mem := m', inst := { c.inst with
        count := 0
        out := c.inst.out ++ c.inst.batch.map Slot.pkt
        trace := c.inst.trace ++ encryptEvents c.inst.batch ++ authEvents c.inst.batch } } := by
  obtain ⟨m1, he1, h1⟩ := vcEncrypt_eq (readSlots_batch c) (batch_length _ hn) hn hb
  obtain ⟨m2, he2, h2⟩ := vcAuth_eq (c := { c with mem := m1, inst := { c.inst with
    trace := c.inst.trace ++ encryptEvents c.inst.batch } }) (readSlots_batch _) (batch_length _ hn) hn
    (hb.after_encrypt he1)
  refine ⟨m2, he1.trans he2, ?_⟩
  simp only [Ctx.vcFlush, h1, ok_bind]
  dsimp only at h2
  rw [h2]
  simp [Ctx.emitted, Espc.batch]

end Sys2Proof.Machine
end

