-- ==== Sys2Proof/Laws/Decap.lean ====
section
/-! SUPPORT. What each stage of `DEC` does (43_decapsulation.md R212 to R219), for a frame long enough for its views. -/

namespace Sys2Proof.Machine

theorem saFound_iff (x : Espc) (spi : U32) : saFound x spi = true ↔ spi = x.saId := by
  simp [saFound]

theorem macOk_iff (d stored : List Byte) : macOk d stored = true ↔ d.take 12 = stored := by
  simp [macOk]

theorem stageReceiveEsp_short {c : Ctx} {h : Handle} {b : List Byte} (hb : c.mem.get h = some b) (hl : b.length < 72) :
    stageReceiveEsp h c = .error (.raised .shortBuffer h c) := by
  simp [stageReceiveEsp, len_eq hb, hl]

theorem stageReceiveEsp_eq {c : Ctx} {h : Handle} {b : List Byte} (hb : c.mem.get h = some b) (hl : 72 ≤ b.length) :
    stageReceiveEsp h c = .ok (⟨⟨h, 34⟩, ⟨h, b.length - 14⟩, b.length⟩, c.setDec .lookupSa) := by
  have h1 := hdrView_eq (c := c) (off := 34) hb (by omega)
  have h2 := trlView_eq (c := c) (off := b.length - 14) hb (by omega)
  have h3 : ¬ b.length < Config.minEspFrame := Nat.not_lt.mpr hl
  simp only [stageReceiveEsp, len_eq hb, ok_bind]
  rw [if_neg h3]
  simp only [Config.espOff, Config.espTrlLen, h1, h2, ok_bind]

theorem stageLookupSa_eq {c : Ctx} {h : Handle} {b : List Byte} {tv : View} {n : Nat} (hb : c.mem.get h = some b)
    (hl : 72 ≤ b.length) (hs : be32 (slice b 34 4) = c.inst.saId) :
    stageLookupSa h ⟨⟨h, 34⟩, tv, n⟩ c = .ok (c.setDec .verifyMac) := by
  have h1 : c.hdrRdSpi ⟨h, 34⟩ = .ok (be32 (slice b 34 4)) := readU32_eq (v := ⟨h, 34⟩) (k := 0) hb (by simp; omega)
  simp [stageLookupSa, h1, saFound, hs]

theorem stageLookupSa_raised {c : Ctx} {h : Handle} {b : List Byte} {tv : View} {n : Nat} (hb : c.mem.get h = some b)
    (hl : 72 ≤ b.length) (hs : be32 (slice b 34 4) ≠ c.inst.saId) :
    stageLookupSa h ⟨⟨h, 34⟩, tv, n⟩ c = .error (.raised .unknownSpi h c) := by
  have h1 : c.hdrRdSpi ⟨h, 34⟩ = .ok (be32 (slice b 34 4)) := readU32_eq (v := ⟨h, 34⟩) (k := 0) hb (by simp; omega)
  simp [stageLookupSa, h1, saFound, hs]

/-- The digest and the stored `auth` that `VerifyMAC` compares (R215). -/
theorem verifyMac_reads {c : Ctx} {h : Handle} {b : List Byte} (hb : c.mem.get h = some b) (hl : 72 ≤ b.length) :
    c.scAuth (authRegion h b.length) = .ok (espDigest c.inst b, c.traced (.scAuth h)) ∧
      (c.traced (.scAuth h)).trlRdAuth ⟨h, b.length - 14⟩ = .ok (slice b (b.length - 12) 12) := by
  refine ⟨scAuth_eq (d := authRegion h b.length) hb (by simp [authRegion]; omega), ?_⟩
  have h2 := memRead_eq (c := c.traced (.scAuth h)) (off := b.length - 14 + 2) (n := 12) hb (by omega)
  have e : b.length - 14 + 2 = b.length - 12 := by omega
  unfold Ctx.trlRdAuth
  rw [e] at h2 ⊢
  exact h2

theorem stageVerifyMac_eq {c : Ctx} {h : Handle} {b : List Byte} {hv : View} (hb : c.mem.get h = some b)
    (hl : 72 ≤ b.length) (hm : espMacOk c.inst b) :
    stageVerifyMac h ⟨hv, ⟨h, b.length - 14⟩, b.length⟩ c = .ok ((c.traced (.scAuth h)).setDec .decrypt) := by
  obtain ⟨h1, h2⟩ := verifyMac_reads hb hl
  simp only [stageVerifyMac, h1, ok_bind, h2]
  rw [if_pos ((macOk_iff _ _).mpr hm)]

theorem stageVerifyMac_raised {c : Ctx} {h : Handle} {b : List Byte} {hv : View} (hb : c.mem.get h = some b)
    (hl : 72 ≤ b.length) (hm : ¬ espMacOk c.inst b) :
    stageVerifyMac h ⟨hv, ⟨h, b.length - 14⟩, b.length⟩ c
      = .error (.raised .authenticationFailed h (c.traced (.scAuth h))) := by
  obtain ⟨h1, h2⟩ := verifyMac_reads hb hl
  simp only [stageVerifyMac, h1, ok_bind, h2]
  rw [if_neg (fun e => hm ((macOk_iff _ _).mp e))]

theorem stageDecrypt_eq {c : Ctx} {h : Handle} {b : List Byte} {tv : View} (hb : c.mem.get h = some b)
    (hl : 72 ≤ b.length) (h16 : (b.length - 70) % 16 = 0) :
    stageDecrypt h ⟨⟨h, 34⟩, tv, b.length⟩ c
      = .ok (((c.withMem (c.mem.put h (splice b 58 (espPlain c.inst b)))).traced (.scDec h)).setDec .stripHeaders) := by
  have h1 := memRead_eq (c := c) (off := 34 + 8) (n := 16) hb (by omega)
  have h2 := scDec_eq (c := c) (iv := slice b (34 + 8) 16) (d := ctRegion h b.length) hb h16
    (by simp [ctRegion]; omega)
  have h0 : blockOk (b.length - 70) = true := by simp [blockOk, h16]; omega
  rw [stageDecrypt, if_pos h0]
  exact bind_of_ok h1 (bind_of_ok h2 rfl)

theorem stageDecrypt_raised {c : Ctx} {h : Handle} {tv : View} {n : Nat} (h16 : (n - 70) % 16 ≠ 0) :
    stageDecrypt h ⟨⟨h, 34⟩, tv, n⟩ c = .error (.raised .invalidBlockLength h c) := by
  simp [stageDecrypt, blockOk, h16]

theorem espPlain_length (x : Espc) (b : List Byte) (hl : 72 ≤ b.length) : (espPlain x b).length = b.length - 70 := by
  simp [espPlain, slice_length b 58 (b.length - 70) (by omega)]

/-- The byte that `StripHeaders` reads as `paddingLen` (R219). -/
theorem stripHeaders_reads {c : Ctx} {h : Handle} {b q : List Byte} (hl : 72 ≤ b.length)
    (hq : q.length = b.length - 70) (hb : c.mem.get h = some (splice b 58 q)) :
    c.trlRdPadlen ⟨h, b.length - 14⟩ = .ok (q.getD (b.length - 72) 0) := by
  have hlen : (splice b 58 q).length = b.length := splice_length _ _ _ (by omega)
  have h1 := readU8_eq (c := c) (v := ⟨h, b.length - 14⟩) (k := 0) hb (by simp [hlen]; omega)
  have hpad : byte1 (slice (splice b 58 q) (b.length - 14) 1) = q.getD (b.length - 72) 0 := by
    have hi := splice_inside b 58 q (b.length - 14) (by omega) (by omega) (by omega)
    rw [show b.length - 14 - 58 = b.length - 72 by omega] at hi
    simp [byte1, slice, List.getD_eq_getElem?_getD, List.getElem?_drop, hi]
  rw [← hpad]
  exact h1

/-- `StripHeaders` on the decrypted frame (R219). -/
theorem stageStripHeaders_eq {c : Ctx} {h : Handle} {b q : List Byte} {hv : View} (hl : 72 ≤ b.length)
    (hq : q.length = b.length - 70) (hb : c.mem.get h = some (splice b 58 q))
    (ht : (q.getD (b.length - 72) 0).toNat + 2 ≤ b.length - 70) :
    stageStripHeaders h ⟨hv, ⟨h, b.length - 14⟩, b.length⟩ c
      = .ok (c.withMem (c.mem.put h (b.take 14 ++ q.take (b.length - 72 - (q.getD (b.length - 72) 0).toNat)))) := by
  have hlen : (splice b 58 q).length = b.length := splice_length _ _ _ (by omega)
  refine bind_of_ok (stripHeaders_reads hl hq hb) ?_
  generalize (q.getD (b.length - 72) 0).toNat = pl at ht ⊢
  rw [if_pos (by simpa [trailerOk] using ht)]
  refine bind_of_ok (shrinkHead_eq (n := 44) hb (by omega)) ?_
  refine (shrinkTail_eq (Memory.get_put_same _ _ _) (by simp [hlen]; omega)).trans ?_
  simp only [Ctx.withMem_mem, Memory.put_put, Ctx.withMem_withMem]
  congr 3
  have ht14 : (splice b 58 q).take 14 = b.take 14 := by
    simp only [splice, List.append_assoc]
    rw [List.take_append_of_le_length (by simp; omega), List.take_take]; rfl
  have hd58 : (splice b 58 q).drop 58 = q ++ b.drop (58 + q.length) := by
    simp only [splice, List.append_assoc]
    rw [List.drop_append_of_le_length (by simp; omega)]
    simp
  rw [ht14, hd58, List.take_append, List.take_of_length_le (by simp; omega)]
  congr 1
  rw [List.take_append_of_le_length (by simp; omega)]
  congr 1
  simp; omega

theorem stageStripHeaders_raised {c : Ctx} {h : Handle} {b q : List Byte} {hv : View} (hl : 72 ≤ b.length)
    (hq : q.length = b.length - 70) (hb : c.mem.get h = some (splice b 58 q))
    (ht : b.length - 70 < (q.getD (b.length - 72) 0).toNat + 2) :
    stageStripHeaders h ⟨hv, ⟨h, b.length - 14⟩, b.length⟩ c = .error (.raised .malformedTrailer h c) := by
  refine bind_of_ok (stripHeaders_reads hl hq hb) ?_
  generalize (q.getD (b.length - 72) 0).toNat = pl at ht ⊢
  rw [if_neg (by simp [trailerOk]; omega)]

end Sys2Proof.Machine
end

