-- ==== Sys2Proof/Laws/Decode.lean ====
section
/-! SUPPORT. The operation map as a map: codes name operations, and only one each (30_encoding.md R87, R100). -/

namespace Sys2Proof

/-- The map finds the row whose code is the word. -/
theorem opOf_code (o : Op) : opOf o.row.code = some o := by
  cases o <;> rfl

/-- What the map finds has the word as its code. -/
theorem opOf_some {w : Byte} {o : Op} (h : opOf w = some o) : o.row.code = w := by
  simpa using List.find?_some h

/-- No two operations have one code. -/
theorem code_injective {o p : Op} (h : o.row.code = p.row.code) : o = p := by
  have ho := opOf_code o
  rw [h, opOf_code p] at ho
  exact (Option.some.inj ho).symm

/-- The arguments of an instruction are read back as that instruction. -/
theorem decodeArgs_args (i : Instr) : decodeArgs i.op i.args = some i := by
  cases i <;> rfl

end Sys2Proof
end

