-- ==== Sys2Proof/Laws/Encap.lean ====
section
/-! SUPPORT. What each stage of `ENC.PUSH` makes of the packet (42_encapsulation.md R182 to R191), the frame built up
from left to right as 42_encapsulation.md R196 lays it out. -/

namespace Sys2Proof.Machine

/-- A write over the middle of a packet given as three parts. -/
theorem memWrite_at {c : Ctx} {h : Handle} {off : Nat} {a m z v : List Byte}
    (hb : c.mem.get h = some (a ++ m ++ z)) (hoff : off = a.length) (hv : v.length = m.length) :
    c.memWrite h off v = .ok (c.withMem (c.mem.put h (a ++ v ++ z))) := by
  subst hoff
  rw [memWrite_eq hb (by simp [hv]), splice_append a m z v hv]

/-- A write of an IPv4 field over the middle of a packet given as three parts. -/
theorem ip4Write_at {c : Ctx} {h : Handle} {base k : Nat} {a m z v : List Byte}
    (hb : c.mem.get h = some (a ++ m ++ z)) (hoff : base + k = a.length) (hv : v.length = m.length)
    (hlen : base + 20 ≤ (a ++ m ++ z).length) :
    c.ip4Write h base k v = .ok (c.withMem (c.mem.put h (a ++ v ++ z))) := by
  have hw := memWrite_at hb hoff hv
  have := Ctx.ip4Write.eq_1 c h base k v
  rw [this]
  simp only [buffer_eq hb, ok_bind, Config.outerIpLen, hlen, decide_true, requireBounds_true]
  exact hw

/-- `ReceivePlain` of an eligible packet (R182). -/
theorem stageReceivePlain_eq {c : Ctx} {h : Handle} {b : List Byte} (hb : c.mem.get h = some b)
    (h34 : 34 ≤ b.length) (hfit : grownLength (b.length - 14) ≤ Config.maxLen) :
    stageReceivePlain h c = .ok (⟨b.length - 14, b.getD 23 0⟩, c.setEnc .growBuffer) := by
  have hr := ip4Read_eq (c := c) (base := 14) (k := 9) (n := 1) hb (by omega) (by omega)
  have h23 : byte1 (slice b 23 1) = b.getD 23 0 := by
    simp [byte1, slice, List.getD_eq_getElem?_getD, List.getElem?_drop]
  simp [stageReceivePlain, len_eq hb, eligible, longEnough, h34, hfit, Ctx.ip4RdProto, hr, h23]

/-- `GrowBuffer` (R184). -/
theorem stageGrowBuffer_eq {c : Ctx} {h : Handle} {b : List Byte} {pr : Byte} (hb : c.mem.get h = some b)
    (h34 : 34 ≤ b.length) (hfit : grownLength (b.length - 14) ≤ Config.maxLen) :
    stageGrowBuffer h ⟨b.length - 14, pr⟩ c = .ok (((c.withMem (c.mem.put h (b.take 14 ++ c.fill 44 ++ b.drop 14 ++
      fillBytes c.worker (c.inst.draws + 44) (padLength (b.length - 14) + 14)))).drawn
        (drawsOf (b.length - 14))).setEnc .stampOuterHeader) := by
  unfold grownLength at hfit
  refine bind_of_ok (growHead_eq (n := 44) hb (by omega) (by omega)) ?_
  refine bind_of_ok (growTail_eq (Memory.get_put_same _ _ _) (by simp [Ctx.fill]; omega)) ?_
  simp [Ctx.fill, drawsOf]

/-- `StampOuterHeader` over the first 20 of the inserted bytes (R185). -/
theorem stageStampOuterHeader_eq {c : Ctx} {h : Handle} {p : Plain} {e r : List Byte} {f : Nat → Byte}
    (he : e.length = 14)
    (hb : c.mem.get h = some (e ++ [f 0, f 1, f 2, f 3, f 4, f 5, f 6, f 7, f 8, f 9, f 10, f 11, f 12, f 13, f 14,
      f 15, f 16, f 17, f 18, f 19] ++ r)) :
    stageStampOuterHeader h p c = .ok ((c.withMem (c.mem.put h (e ++ ([0x45#8, f 1] ++
      toBe16 (totalLength (grownLength p.len)) ++ [f 4, f 5, f 6, f 7, f 8, 50#8, f 10, f 11] ++
      toBe32 c.inst.tunSrc ++ toBe32 c.inst.tunDst) ++ r))).setEnc .stampEspHeaderTrailer) := by
  refine bind_of_ok (ip4Write_at (base := 14) (k := 0) (a := e) (m := [f 0])
    (z := [f 1, f 2, f 3, f 4, f 5, f 6, f 7, f 8, f 9, f 10, f 11, f 12, f 13, f 14,
      f 15, f 16, f 17, f 18, f 19] ++ r) (v := [0x45#8]) (by simpa using hb) (by simp [he]) rfl
      (by simp [he]; omega)) ?_
  refine bind_of_ok (ip4Write_at (base := 14) (k := 2)
    (a := e ++ [0x45#8, f 1]) (m := [f 2, f 3])
    (z := [f 4, f 5, f 6, f 7, f 8, f 9, f 10, f 11, f 12, f 13, f 14,
      f 15, f 16, f 17, f 18, f 19] ++ r) (v := toBe16 (totalLength (grownLength p.len)))
    (by simp) (by simp [he]) (by simp) (by simp [he]; omega)) ?_
  refine bind_of_ok (ip4Write_at (base := 14) (k := 9)
    (a := e ++ [0x45#8, f 1] ++ toBe16 (totalLength (grownLength p.len)) ++ [f 4, f 5, f 6, f 7, f 8]) (m := [f 9])
    (z := [f 10, f 11, f 12, f 13, f 14, f 15, f 16, f 17, f 18, f 19] ++ r) (v := [50#8])
    (by simp) (by simp [he]) (by simp) (by simp [he]; omega)) ?_
  refine bind_of_ok (ip4Write_at (base := 14) (k := 12)
    (a := e ++ [0x45#8, f 1] ++ toBe16 (totalLength (grownLength p.len)) ++ [f 4, f 5, f 6, f 7, f 8, 50#8, f 10, f 11])
    (m := [f 12, f 13, f 14, f 15]) (z := [f 16, f 17, f 18, f 19] ++ r)
    (by simp) (by simp [he]) (by simp) (by simp [he]; omega)) ?_
  refine bind_of_ok (ip4Write_at (base := 14) (k := 16)
    (a := e ++ [0x45#8, f 1] ++ toBe16 (totalLength (grownLength p.len)) ++ [f 4, f 5, f 6, f 7, f 8, 50#8, f 10, f 11] ++
      toBe32 c.inst.tunSrc)
    (m := [f 16, f 17, f 18, f 19]) (z := r)
    (by simp) (by simp [he]) (by simp) (by simp [he]; omega)) ?_
  simp

/-- `StampESPHeaderTrailer` over the rest of the inserted bytes and the tail (R186 to R190). -/
theorem stageStampEsp_eq {c : Ctx} {h : Handle} {iv : List Byte} {pr : Byte} {a q t : List Byte} {g : Nat → Byte}
    (ha : a.length = 34) (hiv : iv.length = 16) (ht : t.length = padLength q.length + 14)
    (hb : c.mem.get h = some (a ++ [g 0, g 1, g 2, g 3, g 4, g 5, g 6, g 7, g 8, g 9, g 10, g 11, g 12, g 13, g 14,
      g 15, g 16, g 17, g 18, g 19, g 20, g 21, g 22, g 23] ++ q ++ t)) :
    stageStampEsp h iv ⟨q.length, pr⟩ c = .ok ((c.withMem (c.mem.put h (a ++ (toBe32 c.inst.saId ++
      [g 4, g 5, g 6, g 7] ++ iv) ++ (q ++ paddingBytes (padLength q.length) ++
      [BitVec.ofNat 8 (padLength q.length), pr]) ++ t.drop (padLength q.length + 2)))).setEnc .accumulateInBatch) := by
  obtain ⟨t1, t2, t3, t4, rfl, ht1, ht2, ht3⟩ : ∃ t1 t2 t3 t4 : List Byte, t = t1 ++ t2 ++ t3 ++ t4 ∧
      t1.length = padLength q.length ∧ t2.length = 1 ∧ t3.length = 1 :=
    by
      match hd : t.drop (padLength q.length), (by simp; omega : 2 ≤ (t.drop (padLength q.length)).length) with
      | x :: y :: z, _ =>
        exact ⟨t.take (padLength q.length), [x], [y], z, by simp [← hd], by simp; omega, rfl, rfl⟩
  have ht4 : t4.length = 12 := by simp at ht; omega
  have hd : (t1 ++ t2 ++ t3 ++ t4).drop (padLength q.length + 2) = t4 := by
    rw [show padLength q.length + 2 = (t1 ++ t2 ++ t3).length by simp; omega]
    exact List.drop_left
  rw [hd]
  refine bind_of_ok (hdrView_eq hb (by simp [ha]; omega)) ?_
  refine bind_of_ok (memWrite_at (a := a) (m := [g 0, g 1, g 2, g 3])
    (z := [g 4, g 5, g 6, g 7, g 8, g 9, g 10, g 11, g 12, g 13, g 14, g 15, g 16, g 17, g 18, g 19, g 20, g 21, g 22,
      g 23] ++ q ++ (t1 ++ t2 ++ t3 ++ t4)) (by simpa using hb) (by simp [ha]) rfl) ?_
  refine bind_of_ok (memWrite_at (a := a ++ toBe32 c.inst.saId ++ [g 4, g 5, g 6, g 7])
    (m := [g 8, g 9, g 10, g 11, g 12, g 13, g 14, g 15, g 16, g 17, g 18, g 19, g 20, g 21, g 22, g 23])
    (z := q ++ (t1 ++ t2 ++ t3 ++ t4)) (by simp) (by simp [ha]) (by simp [hiv])) ?_
  refine bind_of_ok (memWrite_at (a := a ++ toBe32 c.inst.saId ++ [g 4, g 5, g 6, g 7] ++ iv ++ q) (m := t1)
    (z := t2 ++ t3 ++ t4) (by simp) (by simp [ha, hiv]; omega) (by simp [ht1])) ?_
  refine bind_of_ok (trlView_eq (Memory.get_put_same _ _ _)
    (by simp [ha, hiv, ht2, ht3, ht4, grownLength]; omega)) ?_
  refine bind_of_ok (memWrite_at
    (a := a ++ toBe32 c.inst.saId ++ [g 4, g 5, g 6, g 7] ++ iv ++ q ++ paddingBytes (padLength q.length)) (m := t2)
    (z := t3 ++ t4) (by simp) (by simp [ha, hiv, grownLength]; omega) (by simp [ht2])) ?_
  refine bind_of_ok (memWrite_at
    (a := a ++ toBe32 c.inst.saId ++ [g 4, g 5, g 6, g 7] ++ iv ++ q ++ paddingBytes (padLength q.length) ++
      [BitVec.ofNat 8 (padLength q.length)]) (m := t3)
    (z := t4) (by simp) (by simp [ha, hiv, grownLength]; omega) (by simp [ht3])) ?_
  simp

/-- The 44 bytes inserted at the head, one by one: 20 under the outer header, 24 under the ESP header. -/
theorem fillBytes_44 (w d : Nat) : fillBytes w d 44 =
    [fillAt w d 0, fillAt w d 1, fillAt w d 2, fillAt w d 3, fillAt w d 4, fillAt w d 5, fillAt w d 6, fillAt w d 7,
      fillAt w d 8, fillAt w d 9, fillAt w d 10, fillAt w d 11, fillAt w d 12, fillAt w d 13, fillAt w d 14,
      fillAt w d 15, fillAt w d 16, fillAt w d 17, fillAt w d 18, fillAt w d 19] ++
    [fillAt w d 20, fillAt w d 21, fillAt w d 22, fillAt w d 23, fillAt w d 24, fillAt w d 25, fillAt w d 26,
      fillAt w d 27, fillAt w d 28, fillAt w d 29, fillAt w d 30, fillAt w d 31, fillAt w d 32, fillAt w d 33,
      fillAt w d 34, fillAt w d 35, fillAt w d 36, fillAt w d 37, fillAt w d 38, fillAt w d 39, fillAt w d 40,
      fillAt w d 41, fillAt w d 42, fillAt w d 43] := rfl

theorem drop_fillBytes (w d n m : Nat) : (fillBytes w d (n + m)).drop n = fillBytes w (d + n) m := by
  apply List.ext_getElem
  · simp
  · intro i _ _
    simp [fillBytes, Nat.add_assoc]

/-- The stages before the batch turn an eligible packet into its in-flight frame (R182 to R190, R196). -/
theorem encapsulate_eq {c : Ctx} {h : Handle} {iv b : List Byte} (hb : c.mem.get h = some b) (hiv : iv.length = 16)
    (h34 : 34 ≤ b.length) (hfit : grownLength (b.length - 14) ≤ Config.maxLen) :
    c.encapsulate h iv = (do
      let c ← stageAccumulate h ⟨b.length - 14, b.getD 23 0⟩ (((c.withMem
        (c.mem.put h (inFlightFrame c.inst (fillAt c.worker c.inst.draws) iv b))).drawn
          (drawsOf (b.length - 14))).setEnc .accumulateInBatch)
      .ok (finishOk .encap h c)) := by
  have hl : b.length - 14 = (b.drop 14).length := by simp
  refine bind_of_ok (stageReceivePlain_eq (c := c.setEnc .receivePlain) hb h34 hfit) ?_
  refine bind_of_ok (stageGrowBuffer_eq hb h34 hfit) ?_
  refine bind_of_ok (stageStampOuterHeader_eq (e := b.take 14) (f := fillAt c.worker c.inst.draws) (r := _) (by simp; omega) (by
    show (Memory.put _ h _).get h = _
    rw [Memory.get_put_same]
    dsimp only [Ctx.fill, Ctx.setEnc_worker, Ctx.setEnc_draws]
    rw [fillBytes_44 c.worker c.inst.draws]
    simp only [List.append_assoc]
    rfl)) ?_
  refine bind_of_ok (Eq.trans (b := stageStampEsp h iv ⟨(b.drop 14).length, b.getD 23 0⟩ _) (by rw [← hl])
    (stageStampEsp_eq (g := fun i => fillAt c.worker c.inst.draws (20 + i)) (q := b.drop 14)
      (t := fillBytes c.worker (c.inst.draws + 44) (padLength (b.length - 14) + 14))
      (a := b.take 14 ++ outerHeader c.inst (fillAt c.worker c.inst.draws) (grownLength (b.length - 14)))
      (by simp [outerHeader]; omega) hiv (by simp) (by
        show (Memory.put _ h _).get h = _
        rw [Memory.get_put_same]
        simp [outerHeader]))) ?_
  have hf : (fillBytes c.worker (c.inst.draws + 44) (padLength (b.length - 14) + 14)).drop (padLength (b.length - 14) + 2)
      = authFill (fillAt c.worker c.inst.draws) (padLength (b.length - 14)) := by
    rw [show padLength (b.length - 14) + 14 = padLength (b.length - 14) + 2 + 12 by omega, drop_fillBytes]
    simp only [fillBytes, authFill, fillAt]
    apply List.map_congr_left
    intro i _
    congr 1; omega
  rw [← hl]
  simp [hf, inFlightFrame, espHeader, innerPlaintext, outerHeader, drawsOf, Ctx.setEnc, Ctx.withMem]

end Sys2Proof.Machine
end

