-- ==== Sys2Proof/Laws/Frame.lean ====
section
/-! SUPPORT. The frames of encapsulation as byte strings: their lengths, the slot registered for one, and what the
flush makes of it (42_encapsulation.md R191, R196). -/

namespace Sys2Proof.Machine

@[simp] theorem outerHeader_length (x : Espc) (f : Nat → Byte) (n : Nat) : (outerHeader x f n).length = 20 := by
  simp [outerHeader]

theorem espHeader_length (x : Espc) (f : Nat → Byte) {iv : List Byte} (h : iv.length = 16) :
    (espHeader x f iv).length = 24 := by
  simp [espHeader, h]

theorem innerPlaintext_length (p : List Byte) :
    (innerPlaintext p).length = p.length + padLength p.length + 2 := by
  simp [innerPlaintext]; omega

@[simp] theorem authFill_length (f : Nat → Byte) (n : Nat) : (authFill f n).length = 12 := by
  simp [authFill]

theorem inFlightFrame_length (x : Espc) (f : Nat → Byte) {iv b : List Byte} (hiv : iv.length = 16) (h34 : 34 ≤ b.length) :
    (inFlightFrame x f iv b).length = grownLength (b.length - 14) := by
  simp [inFlightFrame, espHeader_length x f hiv, innerPlaintext_length, grownLength]; omega

theorem completedFrame_length (x : Espc) (f : Nat → Byte) {iv b : List Byte} (hiv : iv.length = 16) (h34 : 34 ≤ b.length) :
    (completedFrame x f iv b).length = grownLength (b.length - 14) := by
  simp [completedFrame, espHeader_length x f hiv, innerPlaintext_length, grownLength]; omega

/-- The flush completes an in-flight frame (R196). -/
theorem slotCompleted_inFlight (x : Espc) (h : Handle) (f : Nat → Byte) {iv b : List Byte} (hiv : iv.length = 16)
    (h34 : 34 ≤ b.length) :
    slotCompleted x (slotOf h (grownLength (b.length - 14))) (inFlightFrame x f iv b) = completedFrame x f iv b := by
  have hl : (b.drop 14).length = b.length - 14 := by simp
  have hT := innerPlaintext_length (b.drop 14)
  have hE := espHeader_length x f hiv
  rw [hl] at hT
  unfold slotCompleted slotAuthenticated slotEncrypted inFlightFrame completedFrame slotOf
  simp only [hl, Config.espOff, Config.ctOff, Config.authLen]
  generalize ho : outerHeader x f (grownLength (b.length - 14)) = o
  have hO : o.length = 20 := by simp [← ho]
  have e1 : slice (b.take 14 ++ o ++ espHeader x f iv ++ innerPlaintext (b.drop 14) ++
      authFill f (padLength (b.length - 14))) (34 + 8) 16 = iv := by
    have := slice_at (a := b.take 14 ++ o ++ (toBe32 x.saId ++ [f 24, f 25, f 26, f 27]))
      (m := iv) (z := innerPlaintext (b.drop 14) ++ authFill f (padLength (b.length - 14))) (off := 34 + 8) (n := 16)
      (by simp [hO]; omega) hiv.symm
    simpa [espHeader] using this
  have e2 : slice (b.take 14 ++ o ++ espHeader x f iv ++ innerPlaintext (b.drop 14) ++
      authFill f (padLength (b.length - 14))) 58 (grownLength (b.length - 14) - 70) = innerPlaintext (b.drop 14) :=
    slice_at (by simp [hO, hE]; omega) (by rw [hT]; unfold grownLength; omega)
  rw [e1, e2, splice_at (by simp [hO, hE]; omega) (by simp)]
  have hct : (Config.aesCbcEnc x.encKey.toList iv (innerPlaintext (b.drop 14))).length
      = b.length - 14 + padLength (b.length - 14) + 2 := by simp [hT]
  generalize Config.aesCbcEnc x.encKey.toList iv (innerPlaintext (b.drop 14)) = ct at hct ⊢
  have e3 : slice (b.take 14 ++ o ++ espHeader x f iv ++ ct ++ authFill f (padLength (b.length - 14))) 34
      (grownLength (b.length - 14) - 46) = espHeader x f iv ++ ct := by
    rw [List.append_assoc (b.take 14 ++ o)]
    exact slice_at (by simp [hO]; omega) (by simp [hE, hct, grownLength]; omega)
  rw [e3]
  have := splice_at (a := b.take 14 ++ o ++ espHeader x f iv ++ ct) (m := authFill f (padLength (b.length - 14)))
    (z := []) (off := grownLength (b.length - 14) - 12)
    (v := (Config.hmacSha1 x.authKey.toList (espHeader x f iv ++ ct)).take 12)
    (by simp [hO, hE, hct, grownLength]; omega) (by simp)
  simpa using this

theorem notInFlight_ne {x : Espc} {h : Handle} (hf : x.inFlight h = false) : ∀ sl ∈ x.batch, sl.pkt ≠ h := by
  simpa [Espc.inFlight] using hf

/-- The slot registered for a frame lies in it, in whole blocks. -/
theorem fits_slotOf {x : Espc} {h : Handle} {f : Nat → Byte} {iv b : List Byte} (m : Memory) (hiv : iv.length = 16)
    (h34 : 34 ≤ b.length) :
    Fits (m.put h (inFlightFrame x f iv b)) (slotOf h (grownLength (b.length - 14))) := by
  refine ⟨inFlightFrame x f iv b, by simp [slotOf], ?_⟩
  simp [inFlightFrame_length x f hiv h34, slotOf, grownLength]; omega

theorem slotOf_blocks (h : Handle) (l : Nat) : (slotOf h (grownLength l)).ctLen % 16 = 0 := by
  have := padLength_aligns l
  simp [slotOf, grownLength]; omega

/-- One more packet in a batch that can be flushed. -/
theorem BatchOk.push {m : Memory} {sls : List Slot} {sl : Slot} {b : List Byte} (hb : BatchOk m sls)
    (hne : ∀ q ∈ sls, q.pkt ≠ sl.pkt) (hf : Fits (m.put sl.pkt b) sl) (h16 : sl.ctLen % 16 = 0) :
    BatchOk (m.put sl.pkt b) (sls ++ [sl]) := by
  constructor
  · intro q hq
    rcases List.mem_append.mp hq with hq | hq
    · obtain ⟨⟨a, ha, hr⟩, h⟩ := hb.1 q hq
      exact ⟨⟨a, by rw [Memory.get_put_other _ _ _ _ (hne q hq)]; exact ha, hr⟩, h⟩
    · simp only [List.mem_singleton] at hq
      subst hq
      exact ⟨hf, h16⟩
  · rw [List.map_append, List.nodup_append]
    refine ⟨hb.2, by simp, ?_⟩
    intro a ha k hk
    obtain ⟨q, hq, rfl⟩ := List.mem_map.mp ha
    simp only [List.map_cons, List.map_nil, List.mem_singleton] at hk
    subst hk
    exact hne q hq

end Sys2Proof.Machine
end

