-- ==== Sys2Proof/Laws/PerInstr.lean ====
section
/-! SUPPORT. A fact of every instruction as syntax: the word its encoding has names it, and no other row (30_encoding.md
R87, R100). One lemma for each constructor. -/

namespace Sys2Proof.Laws.EncodedWordNamesInstr

/-- The encoding's word is the code of the instruction's row, the operation map finds that row under it, and the row's
mnemonic is the instruction's. -/
def Statement (i : Instr) : Prop :=
  (encode i).word = i.op.row.code ∧ opOf (encode i).word = some i.op ∧ i.mnemonic = i.op.row.mnemonic

theorem init (enc auth : List Byte) (src dst : U32) (primOk : Bool) :
    Statement (.init enc auth src dst primOk) := ⟨rfl, rfl, rfl⟩

theorem clone (w' : Nat) : Statement (.clone w') := ⟨rfl, rfl, rfl⟩

theorem destroy : Statement .destroy := ⟨rfl, rfl, rfl⟩

theorem hdrView (h : Handle) (off : Nat) : Statement (.hdrView h off) := ⟨rfl, rfl, rfl⟩

theorem hdrRdSpi (hv : View) : Statement (.hdrRdSpi hv) := ⟨rfl, rfl, rfl⟩

theorem hdrWrSpi (hv : View) (v : U32) : Statement (.hdrWrSpi hv v) := ⟨rfl, rfl, rfl⟩

theorem hdrRdSeq (hv : View) : Statement (.hdrRdSeq hv) := ⟨rfl, rfl, rfl⟩

theorem hdrWrSeq (hv : View) (v : U32) : Statement (.hdrWrSeq hv v) := ⟨rfl, rfl, rfl⟩

theorem hdrRdIv (hv : View) : Statement (.hdrRdIv hv) := ⟨rfl, rfl, rfl⟩

theorem hdrWrIv (hv : View) (iv : List Byte) : Statement (.hdrWrIv hv iv) := ⟨rfl, rfl, rfl⟩

theorem trlView (h : Handle) (off : Nat) : Statement (.trlView h off) := ⟨rfl, rfl, rfl⟩

theorem trlRdPadlen (tv : View) : Statement (.trlRdPadlen tv) := ⟨rfl, rfl, rfl⟩

theorem trlWrPadlen (tv : View) (v : Byte) : Statement (.trlWrPadlen tv v) := ⟨rfl, rfl, rfl⟩

theorem trlRdNext (tv : View) : Statement (.trlRdNext tv) := ⟨rfl, rfl, rfl⟩

theorem trlWrNext (tv : View) (v : Byte) : Statement (.trlWrNext tv v) := ⟨rfl, rfl, rfl⟩

theorem trlRdAuth (tv : View) : Statement (.trlRdAuth tv) := ⟨rfl, rfl, rfl⟩

theorem trlWrAuth (tv : View) (a : List Byte) : Statement (.trlWrAuth tv a) := ⟨rfl, rfl, rfl⟩

theorem scEnc (iv : List Byte) (d : Region) : Statement (.scEnc iv d) := ⟨rfl, rfl, rfl⟩

theorem scDec (iv : List Byte) (d : Region) : Statement (.scDec iv d) := ⟨rfl, rfl, rfl⟩

theorem scAuth (d : Region) : Statement (.scAuth d) := ⟨rfl, rfl, rfl⟩

theorem vcReg (sl : Slot) : Statement (.vcReg sl) := ⟨rfl, rfl, rfl⟩

theorem vcEncrypt (count : Nat) : Statement (.vcEncrypt count) := ⟨rfl, rfl, rfl⟩

theorem vcAuth (count : Nat) : Statement (.vcAuth count) := ⟨rfl, rfl, rfl⟩

theorem vcFlush : Statement .vcFlush := ⟨rfl, rfl, rfl⟩

theorem mbEnc (key : List Byte) (ivs xs : List (List Byte)) : Statement (.mbEnc key ivs xs) := ⟨rfl, rfl, rfl⟩

theorem mbHmac (key : List Byte) (lanes : List (List Byte)) : Statement (.mbHmac key lanes) := ⟨rfl, rfl, rfl⟩

theorem encPush (h : Handle) (iv : List Byte) : Statement (.encPush h iv) := ⟨rfl, rfl, rfl⟩

theorem encEnd : Statement .encEnd := ⟨rfl, rfl, rfl⟩

theorem dec (h : Handle) : Statement (.dec h) := ⟨rfl, rfl, rfl⟩

theorem bufGrowHead (h : Handle) (n : Nat) : Statement (.bufGrowHead h n) := ⟨rfl, rfl, rfl⟩

theorem bufGrowTail (h : Handle) (n : Nat) : Statement (.bufGrowTail h n) := ⟨rfl, rfl, rfl⟩

theorem bufShrinkHead (h : Handle) (n : Nat) : Statement (.bufShrinkHead h n) := ⟨rfl, rfl, rfl⟩

theorem bufShrinkTail (h : Handle) (n : Nat) : Statement (.bufShrinkTail h n) := ⟨rfl, rfl, rfl⟩

theorem bufRange (h : Handle) (off n : Nat) : Statement (.bufRange h off n) := ⟨rfl, rfl, rfl⟩

theorem bufLen (h : Handle) : Statement (.bufLen h) := ⟨rfl, rfl, rfl⟩

theorem ip4RdVihl (h : Handle) (base : Nat) : Statement (.ip4RdVihl h base) := ⟨rfl, rfl, rfl⟩

theorem ip4WrVihl (h : Handle) (base : Nat) (v : Byte) : Statement (.ip4WrVihl h base v) := ⟨rfl, rfl, rfl⟩

theorem ip4RdTotlen (h : Handle) (base : Nat) : Statement (.ip4RdTotlen h base) := ⟨rfl, rfl, rfl⟩

theorem ip4WrTotlen (h : Handle) (base : Nat) (v : U16) : Statement (.ip4WrTotlen h base v) := ⟨rfl, rfl, rfl⟩

theorem ip4RdProto (h : Handle) (base : Nat) : Statement (.ip4RdProto h base) := ⟨rfl, rfl, rfl⟩

theorem ip4WrProto (h : Handle) (base : Nat) (v : Byte) : Statement (.ip4WrProto h base v) := ⟨rfl, rfl, rfl⟩

theorem ip4RdSrc (h : Handle) (base : Nat) : Statement (.ip4RdSrc h base) := ⟨rfl, rfl, rfl⟩

theorem ip4WrSrc (h : Handle) (base : Nat) (v : U32) : Statement (.ip4WrSrc h base v) := ⟨rfl, rfl, rfl⟩

theorem ip4RdDst (h : Handle) (base : Nat) : Statement (.ip4RdDst h base) := ⟨rfl, rfl, rfl⟩

theorem ip4WrDst (h : Handle) (base : Nat) (v : U32) : Statement (.ip4WrDst h base v) := ⟨rfl, rfl, rfl⟩

end Sys2Proof.Laws.EncodedWordNamesInstr
end

