-- ==== Sys2Proof/Tests/Slice0.lean ====
section
/-! SUPPORT. Tests. Expected results come from spec/95_test_vectors.md (the vector's name stands in the comment) or are
written out from the rule named. After them, for each statement with hypotheses, a concrete state and operands that
meet them. -/

open Sys2Proof Sys2Proof.Machine

namespace Sys2Proof.Tests

/-! ### Small states -/

/-- The IV `00 .. 0F` of 95_test_vectors.md. -/
def iv0 : List Byte := (List.range 16).map (fun i => BitVec.ofNat 8 i)

/-- The key `AES128Key-16Char`. -/
def keyK : List Byte :=
  [0x41#8, 0x45#8, 0x53#8, 0x31#8, 0x32#8, 0x38#8, 0x4B#8, 0x65#8, 0x79#8, 0x2D#8, 0x31#8, 0x36#8, 0x43#8, 0x68#8,
    0x61#8, 0x72#8]

/-- The key of twenty `q`. -/
def keyA : List Byte := List.replicate 20 0x71#8

/-- An instance after `INIT` with the keys and addresses of 95_test_vectors.md. -/
def inst : Espc := Espc.created.construct 1234#32 (bytesOf keyK rfl) (bytesOf keyA rfl) 0xC0000201#32 0xC0000202#32

/-- One instance and one packet, of handle 7. -/
def one (x : Espc) (b : List Byte) : State := ⟨[x], ⟨[(7, b)]⟩, 0, []⟩

/-- The bytes of packet 7 in the next state. -/
def bytes7 : Outcome → Option (List Byte)
  | .next t => t.mem.get 7
  | .fault _ => none
  | .refused _ => none

/-- The result output of the next state. -/
def result : Outcome → Option Value
  | .next t => t.tuple?.map Espc.result
  | .fault _ => none
  | .refused _ => none

/-- The tuple in the next state. -/
def tupleAfter : Outcome → Option Espc
  | .next t => t.tuple?
  | .fault _ => none
  | .refused _ => none

/-- The fault the step ends in. -/
def faultOf : Outcome → Option Fault
  | .next _ => none
  | .fault r => some r
  | .refused _ => none

/-- The refusal the step ends in. -/
def refusalOf : Outcome → Option Refusal
  | .next _ => none
  | .fault _ => none
  | .refused r => some r

/-- The next state. -/
def stateAfter : Outcome → Option State
  | .next t => some t
  | .fault _ => none
  | .refused _ => none

/-- The V1 plain frame. -/
def v1 : List Byte :=
  [0x02#8, 0x00#8, 0x00#8, 0x00#8, 0x00#8, 0x02#8, 0x02#8, 0x00#8, 0x00#8, 0x00#8, 0x00#8, 0x01#8, 0x08#8, 0x00#8, 0x45#8, 0x00#8] ++
  [0x00#8, 0x2E#8, 0x00#8, 0x01#8, 0x00#8, 0x00#8, 0x40#8, 0x11#8, 0x66#8, 0xBC#8, 0x0A#8, 0x00#8, 0x00#8, 0x01#8, 0x0A#8, 0x00#8] ++
  [0x00#8, 0x02#8, 0x03#8, 0xE8#8, 0x07#8, 0xD0#8, 0x00#8, 0x1A#8, 0x00#8, 0x00#8, 0x00#8, 0x01#8, 0x02#8, 0x03#8, 0x04#8, 0x05#8] ++
  [0x06#8, 0x07#8, 0x08#8, 0x09#8, 0x0A#8, 0x0B#8, 0x0C#8, 0x0D#8, 0x0E#8, 0x0F#8, 0x10#8, 0x11#8]

/-- The V1 ESP frame. -/
def f1 : List Byte :=
  [0x02#8, 0x00#8, 0x00#8, 0x00#8, 0x00#8, 0x02#8, 0x02#8, 0x00#8, 0x00#8, 0x00#8, 0x00#8, 0x01#8, 0x08#8, 0x00#8, 0x45#8, 0x00#8] ++
  [0x00#8, 0x68#8, 0x00#8, 0x00#8, 0x00#8, 0x00#8, 0x00#8, 0x32#8, 0x00#8, 0x00#8, 0xC0#8, 0x00#8, 0x02#8, 0x01#8, 0xC0#8, 0x00#8] ++
  [0x02#8, 0x02#8, 0x00#8, 0x00#8, 0x04#8, 0xD2#8, 0x00#8, 0x00#8, 0x00#8, 0x00#8, 0x00#8, 0x01#8, 0x02#8, 0x03#8, 0x04#8, 0x05#8] ++
  [0x06#8, 0x07#8, 0x08#8, 0x09#8, 0x0A#8, 0x0B#8, 0x0C#8, 0x0D#8, 0x0E#8, 0x0F#8, 0xB5#8, 0x42#8, 0xEC#8, 0x60#8, 0x0C#8, 0xF3#8] ++
  [0xEF#8, 0x96#8, 0xAA#8, 0x64#8, 0x52#8, 0x53#8, 0x1E#8, 0x22#8, 0xAB#8, 0x29#8, 0x1C#8, 0xD5#8, 0x4C#8, 0x61#8, 0xAE#8, 0xDA#8] ++
  [0x8E#8, 0xE8#8, 0xE0#8, 0x28#8, 0x2D#8, 0x71#8, 0xA4#8, 0xB9#8, 0xA1#8, 0xD3#8, 0xDC#8, 0xFF#8, 0x53#8, 0x53#8, 0x8F#8, 0xEF#8] ++
  [0xF2#8, 0xE2#8, 0xED#8, 0xB3#8, 0x7F#8, 0xB7#8, 0x6E#8, 0x1F#8, 0xC0#8, 0xD1#8, 0x51#8, 0x2F#8, 0x54#8, 0x6B#8, 0x01#8, 0xA3#8] ++
  [0x80#8, 0x98#8, 0xC9#8, 0xD7#8, 0x53#8, 0x7D#8]

/-! ### WellFormed refuses ill-formed terms -/

theorem test_wf_hdrWrIv : (Instr.hdrWrIv ⟨7, 0⟩ (List.replicate 15 0)).wellFormed = false := rfl
theorem test_wf_trlWrAuth : (Instr.trlWrAuth ⟨7, 0⟩ (List.replicate 20 0)).wellFormed = false := rfl
theorem test_wf_scEnc : (Instr.scEnc (List.replicate 17 0) ⟨7, 0, 16⟩).wellFormed = false := rfl
theorem test_wf_scDec : (Instr.scDec [] ⟨7, 0, 16⟩).wellFormed = false := rfl
theorem test_wf_encPush : (Instr.encPush 7 (List.replicate 12 0)).wellFormed = false := rfl
theorem test_wf_mbEnc_key : (Instr.mbEnc (List.replicate 20 0) [] []).wellFormed = false := rfl
theorem test_wf_mbEnc_iv : (Instr.mbEnc keyK [iv0, []] []).wellFormed = false := rfl
theorem test_wf_mbEnc_data : (Instr.mbEnc keyK [iv0] [List.replicate 17 0]).wellFormed = false := rfl
theorem test_wf_mbHmac : (Instr.mbHmac keyK []).wellFormed = false := rfl

/-! ### Decoding: a word of every row of 30_encoding.md R100, `bits[7:4]` the family and `bits[3:0]` the operation -/

theorem test_decode_lifecycle :
    decode ⟨0b00000000#8, [.bytes keyK, .bytes keyA, .u32 1, .u32 2, .flag true]⟩ = .ok (.init keyK keyA 1 2 true) ∧
    decode ⟨0b00000001#8, [.nat 3]⟩ = .ok (.clone 3) ∧
    decode ⟨0b00000010#8, []⟩ = .ok .destroy := ⟨rfl, rfl, rfl⟩

theorem test_decode_header :
    decode ⟨0b00010000#8, [.handle 7, .nat 34]⟩ = .ok (.hdrView 7 34) ∧
    decode ⟨0b00010001#8, [.view ⟨7, 34⟩]⟩ = .ok (.hdrRdSpi ⟨7, 34⟩) ∧
    decode ⟨0b00010010#8, [.view ⟨7, 34⟩, .u32 5]⟩ = .ok (.hdrWrSpi ⟨7, 34⟩ 5) ∧
    decode ⟨0b00010011#8, [.view ⟨7, 34⟩]⟩ = .ok (.hdrRdSeq ⟨7, 34⟩) ∧
    decode ⟨0b00010100#8, [.view ⟨7, 34⟩, .u32 5]⟩ = .ok (.hdrWrSeq ⟨7, 34⟩ 5) ∧
    decode ⟨0b00010101#8, [.view ⟨7, 34⟩]⟩ = .ok (.hdrRdIv ⟨7, 34⟩) ∧
    decode ⟨0b00010110#8, [.view ⟨7, 34⟩, .bytes iv0]⟩ = .ok (.hdrWrIv ⟨7, 34⟩ iv0) :=
  ⟨rfl, rfl, rfl, rfl, rfl, rfl, rfl⟩

theorem test_decode_trailer :
    decode ⟨0b00100000#8, [.handle 7, .nat 104]⟩ = .ok (.trlView 7 104) ∧
    decode ⟨0b00100001#8, [.view ⟨7, 104⟩]⟩ = .ok (.trlRdPadlen ⟨7, 104⟩) ∧
    decode ⟨0b00100010#8, [.view ⟨7, 104⟩, .u8 9]⟩ = .ok (.trlWrPadlen ⟨7, 104⟩ 9) ∧
    decode ⟨0b00100011#8, [.view ⟨7, 104⟩]⟩ = .ok (.trlRdNext ⟨7, 104⟩) ∧
    decode ⟨0b00100100#8, [.view ⟨7, 104⟩, .u8 9]⟩ = .ok (.trlWrNext ⟨7, 104⟩ 9) ∧
    decode ⟨0b00100101#8, [.view ⟨7, 104⟩]⟩ = .ok (.trlRdAuth ⟨7, 104⟩) ∧
    decode ⟨0b00100110#8, [.view ⟨7, 104⟩, .bytes (List.replicate 12 1)]⟩
      = .ok (.trlWrAuth ⟨7, 104⟩ (List.replicate 12 1)) := ⟨rfl, rfl, rfl, rfl, rfl, rfl, rfl⟩

theorem test_decode_scalar :
    decode ⟨0b00110000#8, [.bytes iv0, .region ⟨7, 58, 48⟩]⟩ = .ok (.scEnc iv0 ⟨7, 58, 48⟩) ∧
    decode ⟨0b00110001#8, [.bytes iv0, .region ⟨7, 58, 48⟩]⟩ = .ok (.scDec iv0 ⟨7, 58, 48⟩) ∧
    decode ⟨0b00110010#8, [.region ⟨7, 34, 72⟩]⟩ = .ok (.scAuth ⟨7, 34, 72⟩) := ⟨rfl, rfl, rfl⟩

theorem test_decode_vector :
    decode ⟨0b01000000#8, [.slot ⟨7, 58, 48, 42, 34, 72, 106⟩]⟩ = .ok (.vcReg ⟨7, 58, 48, 42, 34, 72, 106⟩) ∧
    decode ⟨0b01000001#8, [.nat 8]⟩ = .ok (.vcEncrypt 8) ∧
    decode ⟨0b01000010#8, [.nat 7]⟩ = .ok (.vcAuth 7) ∧
    decode ⟨0b01000011#8, []⟩ = .ok .vcFlush ∧
    decode ⟨0b01001000#8, [.bytes keyK, .lanes [iv0], .lanes [iv0]]⟩ = .ok (.mbEnc keyK [iv0] [iv0]) ∧
    decode ⟨0b01001001#8, [.bytes keyA, .lanes [iv0]]⟩ = .ok (.mbHmac keyA [iv0]) :=
  ⟨rfl, rfl, rfl, rfl, rfl, rfl⟩

theorem test_decode_pipelines :
    decode ⟨0b01010000#8, [.handle 7, .bytes iv0]⟩ = .ok (.encPush 7 iv0) ∧
    decode ⟨0b01010001#8, []⟩ = .ok .encEnd ∧
    decode ⟨0b01100000#8, [.handle 7]⟩ = .ok (.dec 7) := ⟨rfl, rfl, rfl⟩

theorem test_decode_buffer :
    decode ⟨0b01110000#8, [.handle 7, .nat 44]⟩ = .ok (.bufGrowHead 7 44) ∧
    decode ⟨0b01110001#8, [.handle 7, .nat 14]⟩ = .ok (.bufGrowTail 7 14) ∧
    decode ⟨0b01110010#8, [.handle 7, .nat 44]⟩ = .ok (.bufShrinkHead 7 44) ∧
    decode ⟨0b01110011#8, [.handle 7, .nat 14]⟩ = .ok (.bufShrinkTail 7 14) ∧
    decode ⟨0b01110100#8, [.handle 7, .nat 58, .nat 48]⟩ = .ok (.bufRange 7 58 48) ∧
    decode ⟨0b01110101#8, [.handle 7]⟩ = .ok (.bufLen 7) := ⟨rfl, rfl, rfl, rfl, rfl, rfl⟩

theorem test_decode_ipv4 :
    decode ⟨0b10000000#8, [.handle 7, .nat 14]⟩ = .ok (.ip4RdVihl 7 14) ∧
    decode ⟨0b10000001#8, [.handle 7, .nat 14, .u8 0x45]⟩ = .ok (.ip4WrVihl 7 14 0x45) ∧
    decode ⟨0b10000010#8, [.handle 7, .nat 14]⟩ = .ok (.ip4RdTotlen 7 14) ∧
    decode ⟨0b10000011#8, [.handle 7, .nat 14, .u16 104]⟩ = .ok (.ip4WrTotlen 7 14 104) ∧
    decode ⟨0b10000100#8, [.handle 7, .nat 14]⟩ = .ok (.ip4RdProto 7 14) ∧
    decode ⟨0b10000101#8, [.handle 7, .nat 14, .u8 50]⟩ = .ok (.ip4WrProto 7 14 50) ∧
    decode ⟨0b10000110#8, [.handle 7, .nat 14]⟩ = .ok (.ip4RdSrc 7 14) ∧
    decode ⟨0b10000111#8, [.handle 7, .nat 14, .u32 9]⟩ = .ok (.ip4WrSrc 7 14 9) ∧
    decode ⟨0b10001000#8, [.handle 7, .nat 14]⟩ = .ok (.ip4RdDst 7 14) ∧
    decode ⟨0b10001001#8, [.handle 7, .nat 14, .u32 9]⟩ = .ok (.ip4WrDst 7 14 9) :=
  ⟨rfl, rfl, rfl, rfl, rfl, rfl, rfl, rfl, rfl, rfl⟩

/-- Reserved codes next to rows of the map, and arguments that are not the operation's, are rejected by name (R95). -/
theorem test_decode_rejects :
    decode ⟨0x03#8, []⟩ = .error (.reservedCode 0x03#8) ∧ decode ⟨0x27#8, []⟩ = .error (.reservedCode 0x27#8) ∧
    decode ⟨0x44#8, []⟩ = .error (.reservedCode 0x44#8) ∧ decode ⟨0xFF#8, []⟩ = .error (.reservedCode 0xFF#8) ∧
    decode ⟨0x60#8, []⟩ = .error (.operandShape "DEC") ∧
    decode ⟨0x50#8, [.handle 7, .bytes []]⟩ = .error (.operandLength "ENC.PUSH") := ⟨rfl, rfl, rfl, rfl, rfl, rfl⟩

/-- Exactly 45 of the 256 words are operations (R100). -/
theorem test_45_codes : ((List.range 256).filter (fun w => (decodeTableWord 8 w).isSome)).length = 45 := by
  decide +kernel

/-! ### Step and reset -/

theorem test_reset_wf : State.reset.mem.wf = true := rfl

/-- A code of class `I` on the host port is refused; the same command on the internal port is performed (R95, R100). -/
theorem test_ports :
    refusalOf (step { one inst f1 with inputs := [.command 0 .host ⟨0x75#8, [.handle 7]⟩] })
      = some (.notAHostCommand "BUF.LEN") ∧
    result (step { one inst f1 with inputs := [.command 0 .internal ⟨0x75#8, [.handle 7]⟩] })
      = some (.length 118) := by decide

/-- `withFetchWord` makes the very next step run the word. -/
theorem test_withFetchWord :
    stateAfter (step ((one inst f1).withFetchWord 8 0x02)) = some (one inst f1) ∧
    step (State.reset.withFetchWord 8 0x01) = exec (.clone 0) State.reset :=
  ⟨by decide, rfl⟩

/-- The host changes a packet between commands, but none that is in flight (P3 line 7; 70_reset_and_hazards.md R314). -/
theorem test_host_put :
    bytes7 (step { one inst f1 with inputs := [.put 7 []] }) = some [] ∧
    refusalOf (step { one { inst with count := 1, slots := Vector.replicate 8 ⟨7, 58, 48, 42, 34, 72, 106⟩ } f1 with
      inputs := [.free 7] }) = some .inFlight := by decide +kernel

/-! ### The wire codec (vectors W1 to W15) -/

theorem test_W1_to_W6 :
    result (exec (.hdrRdSpi ⟨7, 34⟩) (one inst f1)) = some (.u32 1234#32) ∧
    result (exec (.hdrRdSeq ⟨7, 34⟩) (one inst f1)) = some (.u32 0#32) ∧
    result (exec (.hdrRdIv ⟨7, 34⟩) (one inst f1)) = some (.bytes iv0) ∧
    result (exec (.trlRdAuth ⟨7, 104⟩) (one inst f1)) = some (.bytes
    [0x51#8, 0x2F#8, 0x54#8, 0x6B#8, 0x01#8, 0xA3#8, 0x80#8, 0x98#8, 0xC9#8, 0xD7#8, 0x53#8, 0x7D#8]) ∧
    result (exec (.trlRdPadlen ⟨7, 104⟩) (one inst f1)) = some (.u8 0xC0#8) ∧
    result (exec (.trlRdNext ⟨7, 104⟩) (one inst f1)) = some (.u8 0xD1#8) := by decide +kernel
theorem test_W7 : bytes7 (exec (.hdrWrSpi ⟨7, 0⟩ 0x01020304#32) (one inst (List.replicate 24 0xFF#8)))
    = some ([1#8, 2#8, 3#8, 4#8] ++ List.replicate 20 0xFF#8) := by decide
theorem test_W8 : bytes7 (exec (.hdrWrSpi ⟨7, 0⟩ 1234#32) (one inst (List.replicate 24 0xFF#8)))
    = some ([0#8, 0#8, 0x04#8, 0xD2#8] ++ List.replicate 20 0xFF#8) := by decide
theorem test_W9 : bytes7 (exec (.hdrWrSeq ⟨7, 0⟩ 0xFFFFFFFF#32) (one inst (List.replicate 24 0#8)))
    = some (List.replicate 4 0#8 ++ List.replicate 4 0xFF#8 ++ List.replicate 16 0#8) := by decide
theorem test_W10 : bytes7 (exec (.hdrWrIv ⟨7, 0⟩ (List.replicate 16 0xAA#8)) (one inst (List.replicate 24 1#8)))
    = some (List.replicate 8 1#8 ++ List.replicate 16 0xAA#8) := by decide
theorem test_W11 : bytes7 (exec (.trlWrNext ⟨7, 0⟩ 4#8) (one inst (0x0F#8 :: List.replicate 13 0#8)))
    = some (0x0F#8 :: 4#8 :: List.replicate 12 0#8) := by decide
theorem test_W12 : bytes7 (exec (.trlWrPadlen ⟨7, 0⟩ 255#8) (one inst (List.replicate 14 0#8)))
    = some (0xFF#8 :: List.replicate 13 0#8) := by decide
theorem test_W13 : bytes7 (exec (.trlWrAuth ⟨7, 0⟩ ((List.range 12).map (fun i => BitVec.ofNat 8 (i + 1))))
    (one inst (List.replicate 14 0#8)))
    = some ([0#8, 0#8] ++ (List.range 12).map (fun i => BitVec.ofNat 8 (i + 1))) := by decide
theorem test_W14_W15 :
    faultOf (exec (.hdrView 7 95) (one inst f1)) = some .codecBounds ∧
    result (exec (.hdrView 7 94) (one inst f1)) = some (.headerView ⟨7, 94⟩) ∧
    faultOf (exec (.trlView 7 105) (one inst f1)) = some .codecBounds ∧
    result (exec (.trlView 7 104) (one inst f1)) = some (.trailerView ⟨7, 104⟩) := by decide +kernel

/-! ### The IPv4 accessor, on the V1 frame (section 6, and the examples of R249 to R258) -/

theorem test_ip4_reads :
    result (exec (.ip4RdVihl 7 14) (one inst f1)) = some (.u8 0x45#8) ∧
    result (exec (.ip4RdTotlen 7 14) (one inst f1)) = some (.u16 104#16) ∧
    result (exec (.ip4RdProto 7 14) (one inst f1)) = some (.u8 50#8) ∧
    result (exec (.ip4RdSrc 7 14) (one inst f1)) = some (.u32 0xC0000201#32) ∧
    result (exec (.ip4RdDst 7 14) (one inst f1)) = some (.u32 0xC0000202#32) := by decide +kernel
theorem test_ip4_plain_proto : result (exec (.ip4RdProto 7 14) (one inst v1)) = some (.u8 17#8) := by decide
theorem test_ip4_wrTotlen : (bytes7 (exec (.ip4WrTotlen 7 14 104#16) (one inst v1))).map (fun b => slice b 14 6)
    = some [0x45#8, 0#8, 0#8, 0x68#8, 0#8, 1#8] := by decide
theorem test_ip4_wrVihl : (bytes7 (exec (.ip4WrVihl 7 14 0x46#8) (one inst v1))).map (fun b => slice b 13 3)
    = some [0#8, 0x46#8, 0#8] := by decide
theorem test_ip4_wrProto : (bytes7 (exec (.ip4WrProto 7 14 50#8) (one inst v1))).map (fun b => slice b 22 3)
    = some [0x40#8, 0x32#8, 0x66#8] := by decide
theorem test_ip4_wrSrc : (bytes7 (exec (.ip4WrSrc 7 14 0xC0000201#32) (one inst v1))).map (fun b => slice b 25 6)
    = some [0xBC#8, 0xC0#8, 0#8, 2#8, 1#8, 0x0A#8] := by decide
theorem test_ip4_wrDst : (bytes7 (exec (.ip4WrDst 7 14 0xC0000202#32) (one inst v1))).map (fun b => slice b 29 6)
    = some [1#8, 0xC0#8, 0#8, 2#8, 2#8, 0x03#8] := by decide

/-! ### The buffer provider (vectors B4 to B6; R243, R244) -/

theorem test_B4 : faultOf (exec (.bufShrinkHead 7 44) (one inst (List.replicate 57 0))) = some .contractViolation := rfl
theorem test_shrinkHead : bytes7 (exec (.bufShrinkHead 7 2) (one inst iv0))
    = some (iv0.take 14) := by decide
theorem test_shrinkTail : bytes7 (exec (.bufShrinkTail 7 3) (one inst iv0)) = some (iv0.take 13) := by decide
theorem test_B5_B6 :
    result (exec (.bufLen 7) (one inst f1)) = some (.length 118) ∧
    result (exec (.bufRange 7 58 48) (one inst f1)) = some (.range ⟨7, 58, 48⟩) := by decide +kernel

/-! ### Lifecycle (vectors L1 to L7) -/

theorem test_L1 : tupleAfter (exec (.init keyK keyA 0xC0000201#32 0xC0000202#32 true) (one Espc.created []))
    = some inst := by decide
theorem test_L2 : (tupleAfter (exec (.init [0x73#8] keyA 0 0 true) (one Espc.created []))).map
    (fun x => (x.phase, x.verdicts)) = some (.halted, [.constructionError]) := by decide
theorem test_L5 : refusalOf (exec (.init keyK keyA 0 0 true) (one inst [])) = some .wrongPhase := rfl
theorem test_L6 : refusalOf (exec (.dec 7) (one { inst with phase := .halted } f1)) = some .wrongPhase ∧
    refusalOf (exec .destroy (one { inst with phase := .halted } f1)) = some .wrongPhase := by decide
theorem test_L7 : stateAfter (exec .destroy (one { inst with count := 3 } f1)) = some (one { inst with count := 3 } f1) := rfl
/-- The example of R260: worker 1 cloned from worker 0. -/
theorem test_clone : tupleAfter (exec (.clone 0) ⟨[inst, Espc.created], ⟨[]⟩, 1, []⟩) = some inst := by decide

/-- A growth counts the draws of its own instance and of no other (60_exceptions.md R283). -/
theorem test_draws_per_instance : ∃ t, exec (.bufGrowTail 7 2) ⟨[inst, inst], ⟨[(7, iv0)]⟩, 1, []⟩ = .next t ∧
    t.workers.map Espc.draws = [0, 2] ∧ t.mem.get 7 = some (iv0 ++ [Config.fillByte 1 0, Config.fillByte 1 1]) := by
  have hx : (⟨[inst, inst], ⟨[(7, iv0)]⟩, 1, []⟩ : State).tuple? = some inst := rfl
  have h := growTail_eq (c := ⟨inst, ⟨[(7, iv0)]⟩, 1⟩) (h := 7) (n := 2) (b := iv0) rfl
    (le_trans (by decide) maxLen_ge)
  simp only [exec, execBufGrowTail]
  exact ⟨_, runOn_of_ok hx h, rfl, Memory.get_put_same _ _ _⟩

/-! ### The crypto contexts (vectors X4, X5, X9 to X11) -/

theorem test_X4 : (tupleAfter (exec (.scEnc iv0 ⟨7, 0, 17⟩) (one inst f1))).map (fun x => (x.verdicts, x.trace))
    = some ([.drop .invalidBlockLength 7], []) := by decide
theorem test_X5_and_scAuth :
    (tupleAfter (exec (.scDec iv0 ⟨7, 0, 0⟩) (one inst f1))).map Espc.trace = some [.scDec 7] ∧
    (tupleAfter (exec (.scAuth ⟨7, 34, 72⟩) (one inst f1))).map Espc.trace = some [.scAuth 7] := by decide +kernel

theorem test_X9 : stateAfter (exec (.vcEncrypt 0) (one inst f1)) = some (one inst f1) ∧
    stateAfter (exec (.vcAuth 0) (one inst f1)) = some (one inst f1) ∧
    stateAfter (exec .vcFlush (one inst f1)) = some (one inst f1) := by decide
theorem test_X10 : faultOf (exec (.vcEncrypt 9) (one inst f1)) = some .contractViolation ∧
    faultOf (exec (.vcAuth 9) (one inst f1)) = some .contractViolation := by decide
theorem test_X11 : faultOf (exec (.vcReg ⟨7, 58, 48, 42, 34, 72, 106⟩) (one { inst with count := 8 } f1)) = some .contractViolation := rfl
/-- 93_implementation_defined.md U12: seven lanes. -/
theorem test_seven_lanes : faultOf (exec (.mbHmac keyA (List.replicate 7 [])) (one inst f1)) = some .contractViolation ∧
    (tupleAfter (exec (.mbHmac keyA (List.replicate 8 [])) (one inst f1))).map Espc.trace = some [.mbHmac] := by decide
theorem test_mbEnc : (tupleAfter (exec (.mbEnc keyK (List.replicate 8 iv0) (List.replicate 8 iv0)) (one inst f1))).map
    Espc.trace = some [.mbEnc] := by rfl

/-! ### Padding (table T1) -/

theorem test_T1 : (padLength 20, padLength 30, padLength 31, padLength 46, padLength 1500) = (10, 0, 15, 0, 2) ∧
    (grownLength 20, grownLength 46, grownLength 1520) = (102, 118, 1606) ∧ totalLength 1606 = 0x0638#16 := by decide
theorem test_slot_V1 : slotOf 7 118 = ⟨7, 58, 48, 42, 34, 72, 106⟩ := rfl

/-! ### The pipelines (vectors V1, V4, N2, N3) -/

/-- V1: the in-flight frame, apart from its `FILL` bytes: VIHL, total length, protocol, addresses and SPI, IV and
plaintext with the two trailer bytes. -/
theorem test_V1_frame : (inFlightFrame inst (fillAt 0 0) iv0 v1).take 15 = f1.take 15 ∧
    slice (inFlightFrame inst (fillAt 0 0) iv0 v1) 16 2 = [0x00#8, 0x68#8] ∧
    slice (inFlightFrame inst (fillAt 0 0) iv0 v1) 23 1 = [0x32#8] ∧
    slice (inFlightFrame inst (fillAt 0 0) iv0 v1) 26 12 = slice f1 26 12 ∧
    slice (inFlightFrame inst (fillAt 0 0) iv0 v1) 42 64 = iv0 ++ v1.drop 14 ++ [0x00#8, 0x11#8] := by decide +kernel

/-- V1: the push of a 60-byte plain frame makes its in-flight frame and registers the slot of the vector. -/
theorem test_V1_push (b : List Byte) (hl : b.length = 60) : ∃ t x, exec (.encPush 7 iv0) (one inst b) = .next t ∧
    t.tuple? = some x ∧ t.mem.get 7 = some (inFlightFrame inst (fillAt 0 0) iv0 b) ∧ x.count = 1 ∧
    x.batch = [⟨7, 58, 48, 42, 34, 72, 106⟩] ∧ x.verdicts = [.ok 7] ∧ x.trace = [] := by
  have hx : (one inst b).tuple? = some inst := rfl
  have hb : (one inst b).mem.get 7 = some b := rfl
  have hfit : grownLength (b.length - 14) ≤ Config.maxLen := le_trans (by rw [hl]; decide) maxLen_ge
  have hg : grownLength (60 - 14) = 118 := by decide
  have he := encapsulate_eq (c := ⟨inst, (one inst b).mem, 0⟩) (iv := iv0) hb rfl (by omega) hfit
  rw [hl] at he
  simp only [exec, execEncPush]
  refine ⟨_, _, runOn_of_ok hx (bind_of_ok (a := ()) rfl (bind_of_ok (requireReady_eq rfl) (bind_of_ok (buffer_eq hb)
    (bind_of_ok (requireNotInFlight_eq rfl) (he.trans (bind_of_ok
      (bind_of_ok (vcReg_eq (show 0 < 8 by decide) (slotOf_blocks 7 46)) (if_neg (show ¬ false = true by decide)))
        rfl)))))), rfl, ?_⟩
  refine ⟨Memory.get_put_same _ _ _, rfl, ?_, rfl, rfl⟩
  exact (batch_register inst _ (by decide)).trans (by rw [hg]; rfl)

/-- V4: the least eligible packet cut to 33 bytes. -/
theorem test_short_push : (tupleAfter (exec (.encPush 7 iv0) (one inst (v1.take 33)))).map Espc.verdicts
    = some [.drop .shortBuffer 7] := by decide

/-- N2: a wrong SPI. -/
theorem test_N2 : (tupleAfter (exec (.dec 7) (one inst (splice f1 37 [0xD3#8])))).map (fun x => (x.verdicts, x.trace))
    = some ([.drop .unknownSpi 7], []) := by decide +kernel

/-- N3: the first 71 bytes of the frame. -/
theorem test_N3 : (tupleAfter (exec (.dec 7) (one inst (f1.take 71)))).map Espc.verdicts
    = some [.drop .shortBuffer 7] := by decide

/-- X9, `ENC.END` on an empty batch. -/
theorem test_end_empty : stateAfter (exec .encEnd (one inst f1)) = some (one inst f1) := rfl

/-! ### Witnesses: a concrete state and operands that meet the hypotheses of each statement, each clause at a boundary -/

/-- `n` zero bytes. -/
def zeros (n : Nat) : List Byte := List.replicate n 0

theorem one_tuple (x : Espc) (b : List Byte) : (one x b).tuple? = some x := rfl
theorem one_get (x : Espc) (b : List Byte) : (one x b).mem.get 7 = some b := rfl

/-- Every instance is `inst`, and packet 7 has 34 bytes. -/
def dutiful (is : List Input) : State := ⟨List.replicate Config.nWorkers inst, ⟨[(7, zeros 34)]⟩, 0, is⟩

/-- A slot for a packet of 44 bytes: the IV first, then one block of ciphertext, then `auth`. -/
def slot44 (h : Handle) : Slot := ⟨h, 16, 16, 0, 16, 16, 32⟩

/-- An instance with the packets 0 to 7, of 44 bytes each, in its slots, `n` of them registered. -/
def loaded (n : Nat) : Espc := { inst with
  count := n, slots := #v[slot44 0, slot44 1, slot44 2, slot44 3, slot44 4, slot44 5, slot44 6, slot44 7] }

/-- The packets of `loaded`, and packet 9, of 34 bytes, the least eligible. -/
def store44 : Memory := ⟨(List.range 8).map (fun i => (i, zeros 44)) ++ [(9, zeros 34)]⟩

/-- One instance with a batch of `n`. -/
def batched (n : Nat) : State := ⟨[loaded n], store44, 0, []⟩

theorem batchOk_of {m : Memory} {sls : List Slot} (h : ∀ sl ∈ sls, m.get sl.pkt = some (zeros 44) ∧
    sl.ctOff + sl.ctLen ≤ 44 ∧ sl.ivOff + 16 ≤ 44 ∧ sl.auOff + sl.auLen ≤ 44 ∧ sl.adOff + 12 ≤ 44 ∧
    sl.ctLen % 16 = 0) (hn : (sls.map Slot.pkt).Nodup) : BatchOk m sls :=
  ⟨fun sl hsl => let ⟨h0, h1, h2, h3, h4, h5⟩ := h sl hsl
    ⟨⟨zeros 44, h0, by simpa [zeros] using h1, by simpa [zeros] using h2, by simpa [zeros] using h3,
      by simpa [zeros] using h4⟩, h5⟩, hn⟩

theorem loaded_ok : ∀ n ∈ [1, 7, 8], BatchOk store44 (loaded n).batch := by
  intro n hn
  simp only [List.mem_cons, List.not_mem_nil, or_false] at hn
  rcases hn with rfl | rfl | rfl <;> exact batchOk_of (by decide) (by decide)

theorem dutiful_inv (is : List Input) : HostInv (dutiful is) := by
  have hx : ∀ x ∈ (dutiful is).workers, x = inst := fun x hx => List.eq_of_mem_replicate hx
  have h34 : (zeros 34).length ≤ Config.maxLen := le_trans (by decide) maxLen_ge
  refine ⟨⟨rfl, (Memory.bounded_iff _).mpr (fun p hp => ?_), List.length_replicate, fun x h => ?_⟩, fun x h => ?_⟩
  · rw [List.mem_singleton.mp hp]; exact h34
  · rw [hx x h]; exact ⟨by decide, rfl, rfl, fun _ => rfl, fun sl hsl => by cases hsl⟩
  · rw [hx x h]; exact ⟨by decide, fun sl hsl => by cases hsl⟩

/-! The command port -/

/-- Commands on both ports; a buffer supplied, a buffer taken away, each with its refusals. -/
theorem witness_StepServesTheNextInput :
    (one inst [1]).inputs = [] ∧ (one inst [1]).inFlightAnywhere 7 = false ∧
    ([] : List Byte).length ≤ Config.maxLen ∧ Config.maxLen < (List.replicate (Config.maxLen + 1) (0 : Byte)).length ∧
    ((one inst [1]).mem.get 7).isSome = true ∧ (one inst [1]).mem.get 8 = none ∧
    (one { inst with count := 1, slots := Vector.replicate 8 ⟨7, 58, 48, 42, 34, 72, 106⟩ } f1).inFlightAnywhere 7
      = true ∧
    decode ⟨0x02#8, []⟩ = .ok .destroy ∧ portAccepts .host .destroy = true ∧
    decode ⟨0x75#8, [.handle 7]⟩ = .ok (.bufLen 7) ∧ portAccepts .internal (.bufLen 7) = true :=
  ⟨rfl, rfl, Nat.zero_le _, by simp, rfl, rfl, by decide, rfl, rfl, rfl, rfl⟩
theorem witness_DecodeUndoesEncode : (Instr.encPush 7 iv0).wellFormed = true := rfl
theorem witness_EncodeUndoesDecode : decode ⟨0x50#8, [.handle 7, .bytes iv0]⟩ = .ok (.encPush 7 iv0) := rfl
theorem witness_UnacceptedCommandsAreRefused :
    (∀ op : Op, op.row.code ≠ 0x8A#8) ∧ Op.bufLen.row.code = 0x75#8 ∧ Op.bufLen.row.cls ≠ .H ∧
    decode ⟨0x60#8, [.handle 7]⟩ = .ok (.dec 7) ∧ (Instr.dec 7).cls = .H ∧ Espc.created.phase ≠ .ready ∧
    (Espc.created.phase = .unconstructed → (Instr.dec 7).op ≠ .init ∧ (Instr.dec 7).op ≠ .clone) :=
  ⟨fun op => by cases op <;> decide, rfl, by decide, rfl, rfl, by decide, by decide⟩
theorem witness_StepKeepsInv : MachineInv (dutiful [.command 0 .host ⟨0x02#8, []⟩]) ∧
    ∃ t, step (dutiful [.command 0 .host ⟨0x02#8, []⟩]) = .next t := ⟨(dutiful_inv _).1, _, rfl⟩
theorem witness_DutifulHostNeverFaults : HostInv (dutiful [hostCommand 0 (.encPush 7 iv0)]) ∧
    Dutiful (dutiful []) (hostCommand 0 (.encPush 7 iv0)) ∧ Dutiful (dutiful []) (.put 7 []) := by
  refine ⟨dutiful_inv _, ⟨rfl, fun i hi h hh w' x hw hx => ?_⟩, trivial⟩
  rw [List.eq_of_mem_replicate (List.mem_of_getElem? hx)]
  rfl

/-! Lifecycle -/

theorem witness_InitConstructs : (one Espc.created []).tuple? = some Espc.created ∧
    Espc.created.phase = .unconstructed ∧ keyK.length = 16 ∧ keyA.length = 20 ∧ (one inst []).tuple? = some inst ∧
    inst.phase ≠ .unconstructed := ⟨rfl, rfl, rfl, rfl, rfl, by decide⟩
theorem witness_ConstructionErrorHalts :
    (one Espc.created []).tuple? = some Espc.created ∧ Espc.created.phase = .unconstructed ∧ (zeros 15).length ≠ 16 ∧ (zeros 17).length ≠ 16 ∧ (zeros 19).length ≠ 20 ∧ (zeros 21).length ≠ 20 ∧
    (one { inst with phase := .halted } []).tuple? = some { inst with phase := .halted } ∧ (Instr.dec 7).cls = .H :=
  ⟨rfl, rfl, by decide, by decide, by decide, by decide, rfl, rfl⟩
/-- Instance 1 from instance 0; and an instance from itself. -/
theorem witness_CloneCopiesConfiguration :
    (⟨[inst, Espc.created], ⟨[]⟩, 1, []⟩ : State).tuple? = some Espc.created ∧ inst.phase = .ready ∧
    (one Espc.created []).workers[0]? = some Espc.created ∧
    ¬ (Espc.created.phase = .unconstructed ∧ Espc.created.phase = .ready) := ⟨rfl, rfl, rfl, by decide⟩
theorem witness_DestroyChangesNothing : (one inst []).tuple? = some inst ∧ inst.phase = .ready ∧
    (one Espc.created []).tuple? = some Espc.created ∧ Espc.created.phase ≠ .ready := ⟨rfl, rfl, rfl, by decide⟩

/-! The codec and the IPv4 accessor: `one_tuple` and `one_get` meet the first two hypotheses -/

theorem witness_ViewsNeedTheirBytes : (∀ n, (one inst (zeros n)).tuple? = some inst ∧
      (one inst (zeros n)).mem.get 7 = some (zeros n)) ∧
    0 + 24 ≤ (zeros 24).length ∧ (zeros 24).length < 1 + 24 ∧
    0 + 14 ≤ (zeros 14).length ∧ (zeros 14).length < 1 + 14 :=
  ⟨fun _ => ⟨rfl, rfl⟩, by decide, by decide, by decide, by decide⟩
theorem witness_FieldReads : (one inst (zeros 24)).tuple? = some inst ∧
    (one inst (zeros 24)).mem.get 7 = some (zeros 24) ∧ 0 + 24 ≤ (zeros 24).length ∧ 0 + 14 ≤ (zeros 14).length :=
  ⟨rfl, rfl, by decide, by decide⟩
theorem witness_FieldWrites : (one inst (zeros 14)).tuple? = some inst ∧
    (one inst (zeros 14)).mem.get 7 = some (zeros 14) ∧ 0 + 24 ≤ (zeros 24).length ∧ 0 + 14 ≤ (zeros 14).length ∧
    iv0.length = 16 ∧ (zeros 12).length = 12 := ⟨rfl, rfl, by decide, by decide, rfl, rfl⟩
theorem witness_AccessPastTheEndFaults :
    (∀ n, (one inst (zeros n)).tuple? = some inst ∧ (one inst (zeros n)).mem.get 7 = some (zeros n)) ∧
    (Instr.hdrWrIv ⟨7, 0⟩ iv0).wellFormed = true ∧ fieldStored (.hdrWrIv ⟨7, 0⟩ iv0) = some (7, 8, 16) ∧
    (zeros 23).length < 8 + 16 ∧ fieldStored (.ip4WrDst 7 0 0) = some (7, 16, 4) ∧ (zeros 19).length < 16 + 4 ∧
    (zeros 19).length < 0 + 20 ∧ inst.phase = .ready ∧ iv0.length = 16 ∧ (zeros 15).length < 0 + 16 ∧ 16 % 16 = 0 ∧
    (zeros 16).length < 17 + 0 ∧
    (zeros 3).length < 0 + 4 ∧ (zeros 7).length < 0 + 8 ∧ (zeros 23).length < 0 + 24 ∧ (zeros 0).length < 0 + 1 ∧
    (zeros 1).length < 0 + 2 ∧ (zeros 13).length < 0 + 14 ∧ (zeros 19).length < 0 + 20 :=
  ⟨fun _ => ⟨rfl, rfl⟩, by decide⟩
theorem witness_FieldWriteFrame : (Instr.trlWrNext ⟨7, 0⟩ 4).wellFormed = true ∧
    fieldStored (.trlWrNext ⟨7, 0⟩ 4) = some (7, 1, 1) ∧
    ∃ t, exec (.trlWrNext ⟨7, 0⟩ 4) (one inst (zeros 2)) = .next t := ⟨rfl, rfl, _, rfl⟩
theorem witness_ReadOnlyFrame : readsOnly (.bufLen 7) = true ∧ ∃ t, exec (.bufLen 7) (one inst []) = .next t :=
  ⟨rfl, _, rfl⟩
theorem witness_FieldReadAfterWrite :
    (∃ t, exec (.hdrWrSpi ⟨7, 0⟩ 5) (one inst (zeros 24)) = .next t) ∧
    (∃ t, exec (.hdrWrSeq ⟨7, 0⟩ 5) (one inst (zeros 24)) = .next t) ∧
    (∃ t, exec (.hdrWrIv ⟨7, 0⟩ iv0) (one inst (zeros 24)) = .next t) ∧
    (∃ t, exec (.trlWrPadlen ⟨7, 0⟩ 5) (one inst (zeros 14)) = .next t) ∧
    (∃ t, exec (.trlWrNext ⟨7, 0⟩ 5) (one inst (zeros 14)) = .next t) ∧
    (∃ t, exec (.trlWrAuth ⟨7, 0⟩ (zeros 12)) (one inst (zeros 14)) = .next t) ∧
    (∃ t, exec (.ip4WrVihl 7 0 5) (one inst (zeros 20)) = .next t) ∧
    (∃ t, exec (.ip4WrTotlen 7 0 5) (one inst (zeros 20)) = .next t) ∧
    (∃ t, exec (.ip4WrProto 7 0 5) (one inst (zeros 20)) = .next t) ∧
    (∃ t, exec (.ip4WrSrc 7 0 5) (one inst (zeros 20)) = .next t) ∧
    ∃ t, exec (.ip4WrDst 7 0 5) (one inst (zeros 20)) = .next t :=
  ⟨⟨_, rfl⟩, ⟨_, rfl⟩, ⟨_, rfl⟩, ⟨_, rfl⟩, ⟨_, rfl⟩, ⟨_, rfl⟩, ⟨_, rfl⟩, ⟨_, rfl⟩, ⟨_, rfl⟩, ⟨_, rfl⟩, _, rfl⟩
/-- The writes are those of `witness_FieldReadAfterWrite`; the reads before them answer as well. -/
theorem witness_FieldWriteKeepsOtherFields :
    Answers (exec (.hdrRdSpi ⟨7, 0⟩) (one inst (zeros 24))) (.u32 0) ∧
    Answers (exec (.hdrRdSeq ⟨7, 0⟩) (one inst (zeros 24))) (.u32 0) ∧
    Answers (exec (.hdrRdIv ⟨7, 0⟩) (one inst (zeros 24))) (.bytes (zeros 16)) ∧
    Answers (exec (.trlRdPadlen ⟨7, 0⟩) (one inst (zeros 14))) (.u8 0) ∧
    Answers (exec (.trlRdNext ⟨7, 0⟩) (one inst (zeros 14))) (.u8 0) ∧
    Answers (exec (.trlRdAuth ⟨7, 0⟩) (one inst (zeros 14))) (.bytes (zeros 12)) :=
  ⟨⟨_, _, rfl, rfl, rfl⟩, ⟨_, _, rfl, rfl, rfl⟩, ⟨_, _, rfl, rfl, rfl⟩, ⟨_, _, rfl, rfl, rfl⟩, ⟨_, _, rfl, rfl, rfl⟩,
    _, _, rfl, rfl, rfl⟩
theorem witness_Ip4Reads : (one inst (zeros 20)).tuple? = some inst ∧
    (one inst (zeros 20)).mem.get 7 = some (zeros 20) ∧ 0 + 20 ≤ (zeros 20).length := ⟨rfl, rfl, by decide⟩
theorem witness_Ip4Writes : (one inst f1).tuple? = some inst ∧ (one inst f1).mem.get 7 = some f1 ∧
    14 + 20 ≤ f1.length ∧ 98 + 20 ≤ f1.length := ⟨rfl, rfl, by decide, by decide⟩

/-! The scalar context -/

theorem witness_ScEncEncryptsInPlace : (one inst iv0).tuple? = some inst ∧ inst.phase = .ready ∧ iv0.length = 16 ∧
    (one inst iv0).mem.get 7 = some iv0 ∧ 16 % 16 = 0 ∧ 0 + 16 ≤ iv0.length ∧ 16 + 0 ≤ iv0.length :=
  ⟨rfl, rfl, rfl, rfl, rfl, by decide, by decide⟩
theorem witness_ScDecDecryptsInPlace : (one inst f1).tuple? = some inst ∧ inst.phase = .ready ∧ iv0.length = 16 ∧
    (one inst f1).mem.get 7 = some f1 ∧ 48 % 16 = 0 ∧ 70 + 48 ≤ f1.length := ⟨rfl, rfl, rfl, rfl, rfl, by decide⟩
theorem witness_ScAuthDigests : (one inst f1).tuple? = some inst ∧ inst.phase = .ready ∧
    (one inst f1).mem.get 7 = some f1 ∧ 46 + 72 ≤ f1.length ∧ 118 + 0 ≤ f1.length :=
  ⟨rfl, rfl, rfl, by decide, by decide⟩
theorem witness_PartialBlockIsDropped : (one inst f1).tuple? = some inst ∧ inst.phase = .ready ∧ iv0.length = 16 ∧
    15 % 16 ≠ 0 ∧ 17 % 16 ≠ 0 := ⟨rfl, rfl, rfl, by decide, by decide⟩
theorem witness_CipherFrame : (∃ t, exec (.scEnc iv0 ⟨7, 0, 16⟩) (one inst iv0) = .next t) ∧
    ∃ t, exec (.scDec iv0 ⟨7, 0, 16⟩) (one inst iv0) = .next t := ⟨⟨_, rfl⟩, _, rfl⟩
theorem witness_CipherRoundTrip :
    (∃ t u, exec (.scEnc iv0 ⟨7, 0, 16⟩) (one inst iv0) = .next t ∧ exec (.scDec iv0 ⟨7, 0, 16⟩) t = .next u) ∧
    ∃ t u, exec (.scDec iv0 ⟨7, 0, 16⟩) (one inst iv0) = .next t ∧ exec (.scEnc iv0 ⟨7, 0, 16⟩) t = .next u :=
  ⟨⟨_, _, rfl, rfl⟩, _, _, rfl, rfl⟩

/-! The vector context -/

theorem witness_VcRegRegisters : (one inst []).tuple? = some inst ∧ inst.phase = .ready ∧ inst.count < 8 ∧
    (loaded 7).count < 8 ∧ (slot44 3).ctLen % 16 = 0 ∧ 8 ≤ (loaded 8).count ∧
    ({ slot44 3 with ctLen := 15 } : Slot).ctLen % 16 ≠ 0 := ⟨rfl, rfl, by decide, by decide, rfl, by decide, by decide⟩
theorem witness_CountZeroIsNoOp : (one inst []).tuple? = some inst ∧ inst.phase = .ready := ⟨rfl, rfl⟩
theorem witness_CountOutsideTheBatchFaults : (batched 7).tuple? = some (loaded 7) ∧ (loaded 7).phase = .ready ∧
    8 < 9 ∧ (0 < 8 ∧ (loaded 7).count < 8) ∧ (0 < 1 ∧ inst.count < 1) := ⟨rfl, rfl, by decide, by decide, by decide⟩
theorem witness_VcEncryptEncryptsEachSlot : (batched 8).tuple? = some (loaded 8) ∧ (loaded 8).phase = .ready ∧
    8 ≤ (loaded 8).count ∧ 7 ≤ (loaded 8).count ∧ BatchOk (batched 8).mem ((loaded 8).slots.toList.take 8) ∧
    BatchOk (batched 8).mem ((loaded 8).slots.toList.take 7) :=
  ⟨rfl, rfl, le_refl _, by decide, loaded_ok 8 (by decide), loaded_ok 7 (by decide)⟩
theorem witness_VcAuthAuthenticatesEachSlot : (batched 1).tuple? = some (loaded 1) ∧ (loaded 1).phase = .ready ∧
    1 ≤ (loaded 1).count ∧ 8 ≤ (loaded 8).count ∧ BatchOk (batched 1).mem ((loaded 1).slots.toList.take 1) ∧
    BatchOk (batched 8).mem ((loaded 8).slots.toList.take 8) :=
  ⟨rfl, rfl, le_refl _, le_refl _, loaded_ok 1 (by decide), loaded_ok 8 (by decide)⟩
theorem witness_VcFlushCompletesTheBatch : (batched 8).tuple? = some (loaded 8) ∧ (loaded 8).phase = .ready ∧
    (loaded 8).count ≤ 8 ∧
    BatchOk (batched 8).mem (loaded 8).batch ∧ BatchOk (batched 1).mem (loaded 1).batch :=
  ⟨rfl, rfl, le_refl _, loaded_ok 8 (by decide), loaded_ok 1 (by decide)⟩
/-- A full batch and a batch of one, flushed. -/
theorem witness_VectorAndScalarPathsAgree : ∀ n ∈ [1, 8], (batched n).tuple? = some (loaded n) ∧
    (loaded n).phase = .ready ∧ 1 ≤ (loaded n).count ∧
    (loaded n).count ≤ 8 ∧ BatchOk (batched n).mem (loaded n).batch ∧ (∃ t, exec .vcFlush (batched n) = .next t) ∧
    slot44 0 ∈ (loaded n).batch ∧ (batched n).mem.get (slot44 0).pkt = some (zeros 44) := by
  intro n hn
  have hx : (batched n).tuple? = some (loaded n) := rfl
  have hb : BatchOk (batched n).mem (loaded n).batch := loaded_ok n (by revert hn; simp; omega)
  have hn8 : (loaded n).count ≤ 8 ∧ 1 ≤ (loaded n).count ∧ slot44 0 ∈ (loaded n).batch := by
    clear hb hx
    revert n
    decide
  obtain ⟨m', -, h⟩ := vcFlush_eq (c := ⟨loaded n, store44, 0⟩) hn8.1 hb
  refine ⟨hx, rfl, hn8.2.1, hn8.1, hb, ?_, hn8.2.2, rfl⟩
  simp only [exec, execVcFlush]
  exact ⟨_, runOn_of_ok hx (bind_of_ok (requireReady_eq rfl) h)⟩
theorem witness_MbEncLanes : (one inst []).tuple? = some inst ∧
    (Instr.mbEnc keyK (List.replicate 8 iv0) (List.replicate 8 (zeros 16))).wellFormed = true ∧
    (List.replicate 8 iv0).length = 8 ∧ (List.replicate 8 (zeros 16)).length = 8 ∧
    (Instr.mbEnc keyK (List.replicate 7 iv0) (List.replicate 8 [])).wellFormed = true ∧
    (List.replicate 7 iv0).length ≠ 8 := ⟨rfl, rfl, rfl, rfl, rfl, by decide⟩
theorem witness_MbHmacLanes : (one inst []).tuple? = some inst ∧ keyA.length = 20 ∧
    (List.replicate 8 [0#8]).length = 8 ∧ (List.replicate 9 [0#8]).length ≠ 8 := ⟨rfl, rfl, rfl, by decide⟩

/-! Encapsulation -/

/-- The least eligible packet is eligible whatever `MAX_LEN` is. -/
theorem eligible_34 : 34 ≤ (zeros 34).length ∧ grownLength ((zeros 34).length - 14) ≤ Config.maxLen ∧
    (zeros 34).length - 14 + 87 ≤ Config.maxLen :=
  ⟨by decide, le_trans (by decide) maxLen_ge, le_trans (by decide) maxLen_ge⟩
theorem witness_PaddingIsMinimal : (20 + 10 + 2) % 16 = 0 ∧ (30 + 0 + 2) % 16 = 0 ∧ grownLength 20 ≤ Config.maxLen :=
  ⟨rfl, rfl, eligible_34.2.1⟩
theorem witness_EncPushAccumulates : (batched 1).tuple? = some (loaded 1) ∧ (loaded 1).phase = .ready ∧
    iv0.length = 16 ∧ (batched 1).mem.get 9 = some (zeros 34) ∧ (loaded 1).inFlight 9 = false ∧
    34 ≤ (zeros 34).length ∧ grownLength ((zeros 34).length - 14) ≤ Config.maxLen ∧ (loaded 1).count < 7 ∧
    (loaded 6).count < 7 ∧ (loaded 6).inFlight 9 = false :=
  ⟨rfl, rfl, rfl, rfl, by decide, eligible_34.1, eligible_34.2.1, by decide, by decide, by decide⟩
theorem witness_EighthPushFlushes : (batched 7).tuple? = some (loaded 7) ∧ (loaded 7).phase = .ready ∧
    iv0.length = 16 ∧ (batched 7).mem.get 9 = some (zeros 34) ∧ (loaded 7).inFlight 9 = false ∧
    34 ≤ (zeros 34).length ∧ grownLength ((zeros 34).length - 14) ≤ Config.maxLen ∧ (loaded 7).count = 7 ∧
    BatchOk (batched 7).mem (loaded 7).batch :=
  ⟨rfl, rfl, rfl, rfl, by decide, eligible_34.1, eligible_34.2.1, rfl, loaded_ok 7 (by decide)⟩
/-- A packet of 33 bytes, and one that `MAX_LEN` holds but not with its headers. -/
theorem witness_IneligiblePushIsDropped : (∀ b, (one inst b).tuple? = some inst ∧ (one inst b).mem.get 7 = some b) ∧
    inst.phase = .ready ∧ iv0.length = 16 ∧ (one inst (zeros 33)).mem.get 7 = some (zeros 33) ∧ inst.inFlight 7 = false ∧
    (zeros 33).length < 34 ∧ Config.maxLen < grownLength ((zeros Config.maxLen).length - 14) := by
  have := maxLen_ge
  refine ⟨fun _ => ⟨rfl, rfl⟩, rfl, rfl, rfl, rfl, by decide, ?_⟩
  simp only [zeros, List.length_replicate, grownLength]
  omega
theorem witness_FailedPreconditionsAreRefused : (one Espc.created []).tuple? = some Espc.created ∧
    Espc.created.phase ≠ .ready ∧ (Instr.scAuth ⟨7, 0, 0⟩).wellFormed = true ∧ needsReady Op.scAuth = true ∧
    (Instr.bufLen 8).wellFormed = true ∧ packetNamed (.bufLen 8) = some 8 ∧ (one inst []).mem.get 8 = none ∧
    packetNamed (.scEnc iv0 ⟨8, 0, 16⟩) = some 8 ∧ packetNamed (.scDec iv0 ⟨8, 0, 0⟩) = some 8 ∧
    (Instr.scEnc iv0 ⟨8, 0, 16⟩).wellFormed = true ∧
    ((batched 7).mem.get 6).isSome = true ∧ (loaded 7).inFlight 6 = true ∧ (loaded 7).inFlight 7 = false ∧
    (zeros 15).length ≠ 16 ∧ (zeros 13).length ≠ 12 ∧ (zeros 19).length ≠ 20 := by decide
theorem witness_EncEndFlushesTheRest : (one inst []).tuple? = some inst ∧ inst.phase = .ready ∧ inst.count = 0 ∧
    (batched 7).tuple? = some (loaded 7) ∧ (loaded 7).phase = .ready ∧ 1 ≤ (loaded 1).count ∧ (loaded 7).count ≤ 7 ∧
    BatchOk (batched 1).mem (loaded 1).batch ∧ BatchOk (batched 7).mem (loaded 7).batch :=
  ⟨rfl, rfl, rfl, rfl, rfl, le_refl _, le_refl _, loaded_ok 1 (by decide), loaded_ok 7 (by decide)⟩
theorem witness_EncapMakesTheEspFrame : (batched 7).tuple? = some (loaded 7) ∧
    (loaded 7).phase = .ready ∧ iv0.length = 16 ∧ (batched 7).mem.get 9 = some (zeros 34) ∧ (loaded 7).inFlight 9 = false ∧ 34 ≤ (zeros 34).length ∧
    grownLength ((zeros 34).length - 14) ≤ Config.maxLen ∧ (loaded 7).count ≤ 7 ∧
    BatchOk (batched 7).mem (loaded 7).batch ∧ (one inst (zeros 34)).mem.get 7 = some (zeros 34) ∧
    inst.inFlight 7 = false ∧ BatchOk (one inst (zeros 34)).mem inst.batch :=
  ⟨rfl, rfl, rfl, rfl, by decide, eligible_34.1, eligible_34.2.1, le_refl _, loaded_ok 7 (by decide), rfl, rfl,
    ⟨fun _ h => (List.not_mem_nil h).elim, List.nodup_nil⟩⟩
theorem witness_DecapUndoesEncap : (batched 7).tuple? = some (loaded 7) ∧
    (loaded 7).phase = .ready ∧ iv0.length = 16 ∧ (batched 7).mem.get 9 = some (zeros 34) ∧ (loaded 7).inFlight 9 = false ∧ 34 ≤ (zeros 34).length ∧
    (zeros 34).length - 14 + 87 ≤ Config.maxLen ∧ (loaded 7).count ≤ 7 ∧ BatchOk (batched 7).mem (loaded 7).batch :=
  ⟨rfl, rfl, rfl, rfl, by decide, eligible_34.1, eligible_34.2.2, le_refl _, loaded_ok 7 (by decide)⟩

/-! Decapsulation -/

/-- A frame up to its `auth`: the SPI, one block of ciphertext of `q`, and more bytes. -/
def body (q more : List Byte) : List Byte :=
  zeros 34 ++ [0#8, 0#8, 0x04#8, 0xD2#8] ++ zeros 4 ++ iv0 ++ Config.aesCbcEnc inst.encKey.toList iv0 q ++ more

/-- The MAC of a frame up to its `auth`. -/
def mac (p : List Byte) : List Byte := (Config.hmacSha1 inst.authKey.toList (p.drop 34)).take 12

theorem mac_length (p : List Byte) : (mac p).length = 12 := by simp [mac]

theorem espMacOk_append {p a : List Byte} (hp : 34 ≤ p.length) (ha : a.length = 12) :
    espMacOk inst (p ++ a) ↔ mac p = a := by
  have h1 : slice (p ++ a) 34 ((p ++ a).length - 46) = p.drop 34 := by
    simp only [slice, List.length_append, ha]
    rw [List.drop_append_of_le_length hp, List.take_append_of_le_length (by simp)]
    exact List.take_of_length_le (by simp)
  have h2 : slice (p ++ a) ((p ++ a).length - 12) 12 = a := by
    simp [slice, ha]
  unfold espMacOk espDigest
  rw [h1, h2]
  rfl

/-- A frame with its MAC. -/
def sealed (p : List Byte) : List Byte := p ++ mac p

/-- A frame with another MAC, each byte one more than its own. -/
def spoiled (p : List Byte) : List Byte := p ++ (mac p).map (· + 1)

theorem sealed_ok {p : List Byte} (hp : 34 ≤ p.length) : espMacOk inst (sealed p) :=
  (espMacOk_append hp (mac_length p)).mpr rfl

theorem spoiled_not_ok {p : List Byte} (hp : 34 ≤ p.length) : ¬ espMacOk inst (spoiled p) := by
  rw [spoiled, espMacOk_append hp (by simp [mac_length])]
  intro h
  have h0 := congrArg (fun l : List Byte => l.getD 0 0) h
  match hm : mac p, mac_length p with
  | b :: _, _ =>
    rw [hm] at h0
    simp only [List.map_cons, List.getD_cons_zero] at h0
    exact absurd h0 ((by decide : ∀ b : Byte, b ≠ b + 1) b)

theorem body_length {q : List Byte} (more : List Byte) (hq : q.length = 16) : (body q more).length = 74 + more.length := by
  simp [body, zeros, iv0, hq]; omega

theorem body_spi (q more a : List Byte) : be32 (slice (body q more ++ a) 34 4) = inst.saId := by
  have : slice (body q more ++ a) 34 4 = [0#8, 0#8, 0x04#8, 0xD2#8] := by
    have := slice_at (a := zeros 34) (m := [0#8, 0#8, 0x04#8, 0xD2#8])
      (z := zeros 4 ++ iv0 ++ Config.aesCbcEnc inst.encKey.toList iv0 q ++ more ++ a) (off := 34) (n := 4) rfl rfl
    simpa [body] using this
  rw [this]; rfl

theorem body_plain {q a : List Byte} (hq : q.length = 16) (ha : a.length = 12) : espPlain inst (body q [] ++ a) = q := by
  have h1 : slice (body q [] ++ a) 42 16 = iv0 := by
    have := slice_at (a := zeros 34 ++ [0#8, 0#8, 0x04#8, 0xD2#8] ++ zeros 4) (m := iv0)
      (z := Config.aesCbcEnc inst.encKey.toList iv0 q ++ a) (off := 42) (n := 16) rfl rfl
    simpa [body] using this
  have h2 : slice (body q [] ++ a) 58 ((body q [] ++ a).length - 70) = Config.aesCbcEnc inst.encKey.toList iv0 q := by
    have := slice_at (a := zeros 34 ++ [0#8, 0#8, 0x04#8, 0xD2#8] ++ zeros 4 ++ iv0)
      (m := Config.aesCbcEnc inst.encKey.toList iv0 q)
      (z := a) (off := 58) (n := 16) rfl (by simp [hq])
    simpa [body, zeros, iv0, hq, ha] using this
  rw [espPlain, h1, h2, aesCbcDec_aesCbcEnc]

/-- A plaintext block whose padding length is 14, the greatest that fits. -/
def fits14 : List Byte := zeros 14 ++ [14#8, 0#8]

/-- A plaintext block whose padding length is 15, the least that does not fit. -/
def over15 : List Byte := zeros 14 ++ [15#8, 0#8]

theorem sealed_length {q : List Byte} (more : List Byte) (hq : q.length = 16) :
    (sealed (body q more)).length = 86 + more.length := by
  simp [sealed, mac_length, body_length more hq]; omega

/-- The five ways to fail: 71 bytes; 72 bytes of zeros; a wrong MAC; 87 bytes with a right one; a padding length of 15
in a region of 16. -/
theorem witness_DecTestsInOrder : (∀ b, (one inst b).tuple? = some inst ∧ (one inst b).mem.get 7 = some b) ∧
    inst.phase = .ready ∧ inst.inFlight 7 = false ∧ (zeros 71).length < 72 ∧
    (72 ≤ (zeros 72).length ∧ be32 (slice (zeros 72) 34 4) ≠ inst.saId) ∧
    (72 ≤ (spoiled (body fits14 [])).length ∧ be32 (slice (spoiled (body fits14 [])) 34 4) = inst.saId ∧
      ¬ espMacOk inst (spoiled (body fits14 []))) ∧
    (72 ≤ (sealed (body fits14 [0])).length ∧ be32 (slice (sealed (body fits14 [0])) 34 4) = inst.saId ∧
      espMacOk inst (sealed (body fits14 [0])) ∧ ((sealed (body fits14 [0])).length - 70) % 16 ≠ 0) ∧
    72 ≤ (sealed (body over15 [])).length ∧ be32 (slice (sealed (body over15 [])) 34 4) = inst.saId ∧
      espMacOk inst (sealed (body over15 [])) ∧ ((sealed (body over15 [])).length - 70) % 16 = 0 ∧
      (sealed (body over15 [])).length - 70 < espPadLen inst (sealed (body over15 [])) + 2 := by
  have hb : ∀ q more : List Byte, q.length = 16 → 34 ≤ (body q more).length := fun q more hq => by
    rw [body_length more hq]; omega
  have hs : (spoiled (body fits14 [])).length = 86 := by
    simp [spoiled, mac_length, body_length [] (show fits14.length = 16 from rfl)]
  refine ⟨fun _ => ⟨rfl, rfl⟩, rfl, rfl, by decide, ⟨by decide, by decide⟩,
    ⟨by omega, body_spi _ _ _, spoiled_not_ok (hb _ _ rfl)⟩,
    ⟨by rw [sealed_length _ rfl]; decide, body_spi _ _ _, sealed_ok (hb _ _ rfl), by rw [sealed_length _ rfl]; decide⟩,
    by rw [sealed_length _ rfl]; decide, body_spi _ _ _, sealed_ok (hb _ _ rfl), by rw [sealed_length _ rfl]; rfl, ?_⟩
  have hp : espPlain inst (sealed (body over15 [])) = over15 := body_plain rfl (mac_length _)
  rw [espPadLen, hp, sealed_length _ rfl]
  decide

/-- A frame with the greatest padding length that fits. -/
theorem witness_DecRestoresThePacket : (one inst (sealed (body fits14 []))).tuple? = some inst ∧
    inst.phase = .ready ∧ (one inst (sealed (body fits14 []))).mem.get 7 = some (sealed (body fits14 [])) ∧
    inst.inFlight 7 = false ∧ 72 ≤ (sealed (body fits14 [])).length ∧
    be32 (slice (sealed (body fits14 [])) 34 4) = inst.saId ∧ espMacOk inst (sealed (body fits14 [])) ∧
    ((sealed (body fits14 [])).length - 70) % 16 = 0 ∧
    espPadLen inst (sealed (body fits14 [])) + 2 ≤ (sealed (body fits14 [])).length - 70 := by
  refine ⟨rfl, rfl, rfl, rfl, by rw [sealed_length _ rfl]; decide, body_spi _ _ _,
    sealed_ok (by rw [body_length [] rfl]; decide), by rw [sealed_length _ rfl]; rfl, ?_⟩
  have hp : espPlain inst (sealed (body fits14 [])) = fits14 := body_plain rfl (mac_length _)
  rw [espPadLen, hp, sealed_length _ rfl]
  decide

/-- A frame of the right SPI with a wrong MAC is decapsulated to its end, a drop. -/
theorem witness_DecFailsClosed : (∀ b, (one inst b).tuple? = some inst ∧ (one inst b).mem.get 7 = some b) ∧
    72 ≤ (spoiled (body fits14 [])).length ∧
    ¬ espMacOk inst (spoiled (body fits14 [])) ∧
    ∃ t, exec (.dec 7) (one inst (spoiled (body fits14 []))) = .next t := by
  have hs : 72 ≤ (spoiled (body fits14 [])).length := by
    simp [spoiled, mac_length, body_length [] (show fits14.length = 16 from rfl)]
  have hn := spoiled_not_ok (p := body fits14 []) (by rw [body_length [] rfl]; decide)
  have hspi : be32 (slice (spoiled (body fits14 [])) 34 4) = inst.saId := body_spi _ _ _
  generalize spoiled (body fits14 []) = b at *
  refine ⟨fun _ => ⟨rfl, rfl⟩, hs, hn, ?_⟩
  simp only [exec, execDec]
  exact ⟨_, runOn_of_raised (one_tuple inst b) (bind_of_ok (requireReady_eq rfl) (bind_of_ok (buffer_eq (one_get inst b))
    (bind_of_ok (requireNotInFlight_eq rfl) (bind_of_ok (stageReceiveEsp_eq (one_get inst b) hs)
      (bind_of_ok (stageLookupSa_eq (one_get inst b) hs hspi)
        (bind_of_error (stageVerifyMac_raised (one_get inst b) hs hn)))))))⟩

/-- A frame of 86 bytes with a padding length of 14 is decapsulated to the 14 bytes of its Ethernet header (the length
`LEN - 58 - padLen` of 43_decapsulation.md R219). -/
theorem test_dec_to_the_end : ∃ t, exec (.dec 7) (one inst (sealed (body fits14 []))) = .next t ∧
    t.mem.get 7 = some (zeros 14) := by
  obtain ⟨-, -, -, -, hs, hspi, hm, h16, ht⟩ := witness_DecRestoresThePacket
  have hp : espPlain inst (sealed (body fits14 [])) = fits14 := body_plain rfl (mac_length _)
  have hl : (sealed (body fits14 [])).length = 86 := sealed_length _ rfl
  have h14 : (sealed (body fits14 [])).take 14 = zeros 14 := by simp [sealed, body, zeros]
  generalize sealed (body fits14 []) = b at *
  have hq := espPlain_length inst b hs
  have h := stageStripHeaders_eq (c := ⟨{ inst with decState := .stripHeaders, trace := [.scAuth 7, .scDec 7] },
    (one inst b).mem.put 7 (splice b 58 (espPlain inst b)), 0⟩) (hv := ⟨7, 34⟩) hs hq (Memory.get_put_same _ _ _) ht
  simp only [exec, execDec]
  refine ⟨_, runOn_of_ok (one_tuple inst b) (bind_of_ok (requireReady_eq rfl) (bind_of_ok (buffer_eq (one_get inst b))
    (bind_of_ok (requireNotInFlight_eq rfl) (bind_of_ok (stageReceiveEsp_eq (one_get inst b) hs)
      (bind_of_ok (stageLookupSa_eq (one_get inst b) hs hspi) (bind_of_ok (stageVerifyMac_eq (one_get inst b) hs hm)
        (bind_of_ok (stageDecrypt_eq (one_get inst b) hs h16) (bind_of_ok h rfl)))))))), ?_⟩
  refine (Memory.get_put_same _ _ _).trans ?_
  rw [hp, h14, hl]
  rfl

/-- Two frames that differ in their first 34 bytes alone; and a frame that `DEC` shortens. -/
theorem witness_DecIgnoresTheOuterHeaders : (one inst []).tuple? = some inst ∧ (zeros 72).length = (List.replicate 34 1#8 ++ zeros 38).length ∧
    (zeros 72).drop 34 = (List.replicate 34 1#8 ++ zeros 38).drop 34 ∧
    (∃ t, exec (.dec 7) { one inst [] with mem := (one inst []).mem.put 7 (zeros 72) } = .next t) ∧
    ∃ t c, exec (.dec 7) { one inst [] with mem := (one inst []).mem.put 7 (sealed (body fits14 [])) } = .next t ∧
      t.mem.get 7 = some c ∧ c.length < (sealed (body fits14 [])).length := by
  obtain ⟨t, h, hc⟩ := test_dec_to_the_end
  exact ⟨rfl, rfl, by decide, ⟨_, rfl⟩, t, _, h, hc, by rw [sealed_length _ rfl]; decide⟩

/-! The buffer provider -/

theorem witness_BufGrowInsertsFill : (∀ b, (one inst b).tuple? = some inst) ∧
    (one inst (zeros 14)).mem.get 7 = some (zeros 14) ∧ 14 ≤ (zeros 14).length ∧
    (zeros 14).length + (Config.maxLen - 14) ≤ Config.maxLen ∧ (zeros 13).length < 14 ∧
    Config.maxLen < (zeros 14).length + (Config.maxLen - 13) ∧ (zeros 0).length + Config.maxLen ≤ Config.maxLen ∧
    Config.maxLen < (zeros 1).length + Config.maxLen := by
  have := maxLen_ge
  refine ⟨fun _ => rfl, rfl, by decide, ?_, by decide, ?_, ?_, ?_⟩ <;> simp only [zeros, List.length_replicate] <;> omega
theorem witness_BufShrinkRemoves : (∀ b, (one inst b).tuple? = some inst) ∧
    (one inst (zeros 14)).mem.get 7 = some (zeros 14) ∧ 14 + 0 ≤ (zeros 14).length ∧
    (zeros 14).length < 14 + 1 ∧ 14 ≤ (zeros 14).length ∧ (zeros 14).length < 15 :=
  ⟨fun _ => rfl, rfl, by decide, by decide, by decide, by decide⟩
theorem witness_ShrinkUndoesGrow : (∃ t, exec (.bufGrowHead 7 44) (one inst (zeros 14)) = .next t) ∧
    ∃ t, exec (.bufGrowTail 7 14) (one inst (zeros 0)) = .next t := by
  simp only [exec, execBufGrowHead, execBufGrowTail]
  exact ⟨⟨_, runOn_of_ok (one_tuple _ _) (growHead_eq (one_get inst (zeros 14)) (by decide) (le_trans (by decide) maxLen_ge))⟩,
    _, runOn_of_ok (one_tuple _ _) (growTail_eq (one_get inst (zeros 0)) (le_trans (by decide) maxLen_ge))⟩
theorem witness_BufRangeAndLen : (∀ b, (one inst b).tuple? = some inst) ∧
    (one inst (zeros 5)).mem.get 7 = some (zeros 5) ∧ 2 + 3 ≤ (zeros 5).length ∧
    (zeros 5).length < 3 + 3 ∧ 5 + 0 ≤ (zeros 5).length :=
  ⟨fun _ => rfl, rfl, by decide, by decide, by decide⟩

/-! The whole machine -/

theorem witness_PipelineMemoryFrame : (∃ t, exec (.encPush 7 iv0) (one inst (zeros 33)) = .next t) ∧
    (∃ t, exec .encEnd (one inst []) = .next t) ∧ (∃ t, exec .vcFlush (batched 8) = .next t) ∧
    (∃ t, exec (.vcEncrypt 0) (batched 7) = .next t) ∧ (∃ t, exec (.dec 7) (one inst (zeros 71)) = .next t) ∧
    ¬ InSlotBytes (loaded 8).batch 3 15 ∧ InSlotBytes (loaded 8).batch 3 16 := by
  obtain ⟨-, -, -, -, -, hf, -⟩ := witness_VectorAndScalarPathsAgree 8 (by decide)
  refine ⟨⟨_, rfl⟩, ⟨_, rfl⟩, hf, ⟨_, rfl⟩, ⟨_, rfl⟩, ?_, slot44 3, by decide, rfl, by decide⟩
  have : ∀ sl ∈ (loaded 8).batch, ¬ (sl.pkt = 3 ∧
      ((sl.ctOff ≤ 15 ∧ 15 < sl.ctOff + sl.ctLen) ∨ (sl.adOff ≤ 15 ∧ 15 < sl.adOff + Config.authLen))) := by decide
  rintro ⟨sl, hsl, h⟩
  exact this sl hsl h
theorem witness_NoCommandCreatesOrDeletesAPacket : (∃ t, exec .destroy (one inst []) = .next t) ∧
    (∃ t, exec (.vcReg (slot44 7)) (one inst []) = .next t) ∧
    Op.vcReg ∈ [Op.init, Op.clone, Op.destroy, Op.vcReg, Op.mbEnc, Op.mbHmac, Op.scAuth] := ⟨⟨_, rfl⟩, ⟨_, rfl⟩, by decide⟩
theorem witness_OtherInstancesUntouched :
    (∃ t, exec (.clone 0) ⟨[inst, Espc.created], ⟨[]⟩, 1, []⟩ = .next t) ∧ 0 ≠ 1 ∧
    (Instr.dec 7).op ≠ .clone ∧ (one inst f1).tuple? = some inst ∧
    (⟨[inst, Espc.created], ⟨[(7, f1)]⟩, 0, [.put 8 []]⟩ : State).tuple? = some inst ∧
    (one inst f1).mem = ⟨[(7, f1)]⟩ ∧ (one inst f1).active = 0 := ⟨⟨_, rfl⟩, by decide, by decide, rfl, rfl, rfl, rfl⟩
theorem witness_ConstructedIsNeverMutated : (∃ t, step (dutiful [.command 0 .host ⟨0x02#8, []⟩]) = .next t) ∧
    (dutiful []).workers[0]? = some inst ∧ inst.phase ≠ .unconstructed := ⟨⟨_, rfl⟩, rfl, by decide⟩
theorem witness_OutputsOnlyGrow : (∃ t, step (dutiful [.command 0 .host ⟨0x60#8, [.handle 7]⟩]) = .next t) ∧
    (dutiful []).workers[0]? = some inst ∧ inst.phase ≠ .unconstructed := ⟨⟨_, rfl⟩, rfl, by decide⟩
theorem witness_TraceChangesNoResult :
    (one inst []).untraced = (one { inst with trace := [.mbEnc, .mbHmac] } []).untraced := rfl

end Sys2Proof.Tests
end

/-! ## A field read back after it was written (40_wire_codec.md R137, 44_collaborators_lifecycle.md R248) -/

namespace Sys2Proof.Machine

/-- Wherever the write `w` completes, it raises no drop, and the read `r` of the context it leaves gives `a`. -/
def ReadsBack {α : Type} (w : Ctx → Except Stop Ctx) (r : Ctx → Except Stop α) (a : α) : Prop :=
  ∀ c, Post (fun c' => c'.worker = c.worker ∧ r c' = .ok a) (fun _ _ _ => False) (w c)

/-! ### From the operations to the commands -/

/-- The command that reads, run after the command that wrote, answers what the read gives. -/
theorem ReadsBack.answers {α : Type} {w : Ctx → Except Stop Ctx} {r : Ctx → Except Stop α} {a : α} {s t : State}
    (hwr : ReadsBack w r a) (val : α → Value) (hw : runOn .none s w = .next t) :
    Answers (runOn .none t (answering val r)) (val a) := by
  obtain ⟨x, hx, ⟨c, hc, rfl⟩ | ⟨e, k, c, hc, -⟩⟩ := runOn_inv hw
  · obtain ⟨hworker, hr⟩ : c.worker = s.active ∧ r c = .ok a := (hwr _).of_ok hc
    have hread : answering val r ⟨c.inst, c.mem, s.active⟩ = .ok (c.answered (val a)) := by
      rw [← hworker]; exact bind_of_ok hr rfl
    have htuple := State.withCtx_tuple? c s x hx
    exact ⟨_, _, runOn_of_ok htuple hread, State.withCtx_tuple? _ _ _ htuple, Ctx.answered_result c (val a)⟩
  · exact ((hwr _).of_raised hc).elim

/-- A read that decodes the bytes it finds gives the value they encode. -/
theorem ReadsBack.decoded {α β : Type} {w : Ctx → Except Stop Ctx} {r : Ctx → Except Stop α} {a : α} {b : β}
    (hwr : ReadsBack w r a) (f : α → β) (hf : f a = b) :
    ReadsBack w (fun c => r c >>= fun x => .ok (f x)) b :=
  fun c => (hwr c).mono (fun _ ⟨hworker, hr⟩ => ⟨hworker, bind_of_ok hr (congrArg Except.ok hf)⟩) fun _ _ _ h => h

/-- A write that first refuses a byte string of the wrong length completes with a right one only. -/
theorem ReadsBack.guarded {α : Type} {w : Ctx → Except Stop Ctx} {r : Ctx → Except Stop α} {a : α} {ok : Bool}
    (hwr : ok = true → ReadsBack w r a) : ReadsBack (fun c => requireOperand ok >>= fun _ => w c) r a :=
  fun c => (requireOperand_post ok).bind fun _ hok => hwr hok c

/-! ### Packet bytes -/

theorem memWrite_readsBack (h : Handle) (off : Nat) {v : List Byte} {n : Nat} (hv : v.length = n) :
    ReadsBack (fun c => c.memWrite h off v) (fun c => c.memRead h off n) v := by
  subst hv
  refine fun c => (memWrite_post c h off v).mono ?_ fun _ _ _ h => h
  rintro _ ⟨b, -, hn, rfl⟩
  exact ⟨rfl, (memRead_eq (Memory.get_put_same _ _ _) (by rwa [splice_length b off v hn])).trans
    (congrArg Except.ok (slice_splice_same b off v hn))⟩

theorem ip4Write_readsBack (h : Handle) (base k : Nat) {v : List Byte} {n : Nat} (hv : v.length = n)
    (hk : k + n ≤ 20) : ReadsBack (fun c => c.ip4Write h base k v) (fun c => c.ip4Read h base k n) v := by
  subst hv
  refine fun c => (ip4Write_post c h base k v).mono ?_ fun _ _ _ h => h
  rintro _ ⟨b, -, hheader, hn, rfl⟩
  exact ⟨rfl, (ip4Read_eq (Memory.get_put_same _ _ _) (by rwa [splice_length b (base + k) v hn]) hk).trans
    (congrArg Except.ok (slice_splice_same b (base + k) v hn))⟩

/-! ### The fields of the two views -/

theorem hdrSpi_readsBack (hv : View) (v : U32) :
    ReadsBack (fun c => c.hdrWrSpi hv v) (fun c => c.hdrRdSpi hv) v :=
  (memWrite_readsBack hv.h (hv.off + 0) (toBe32_length v)).decoded be32 (be32_toBe32 v)

theorem hdrSeq_readsBack (hv : View) (v : U32) :
    ReadsBack (fun c => c.hdrWrSeq hv v) (fun c => c.hdrRdSeq hv) v :=
  (memWrite_readsBack hv.h (hv.off + 4) (toBe32_length v)).decoded be32 (be32_toBe32 v)

theorem hdrIv_readsBack (hv : View) {iv : List Byte} (hiv : isBytes16 iv = true) :
    ReadsBack (fun c => c.hdrWrIv hv iv) (fun c => c.hdrRdIv hv) iv :=
  memWrite_readsBack hv.h (hv.off + 8) (beq_iff_eq.mp hiv)

theorem trlPadlen_readsBack (tv : View) (v : Byte) :
    ReadsBack (fun c => c.trlWrPadlen tv v) (fun c => c.trlRdPadlen tv) v :=
  (memWrite_readsBack tv.h (tv.off + 0) (List.length_singleton (a := v))).decoded byte1 rfl

theorem trlNext_readsBack (tv : View) (v : Byte) :
    ReadsBack (fun c => c.trlWrNext tv v) (fun c => c.trlRdNext tv) v :=
  (memWrite_readsBack tv.h (tv.off + 1) (List.length_singleton (a := v))).decoded byte1 rfl

theorem trlAuth_readsBack (tv : View) {a : List Byte} (ha : isBytes12 a = true) :
    ReadsBack (fun c => c.trlWrAuth tv a) (fun c => c.trlRdAuth tv) a :=
  memWrite_readsBack tv.h (tv.off + 2) (beq_iff_eq.mp ha)

/-! ### The fields of the IPv4 header -/

theorem ip4Vihl_readsBack (h : Handle) (base : Nat) (v : Byte) :
    ReadsBack (fun c => c.ip4WrVihl h base v) (fun c => c.ip4RdVihl h base) v :=
  (ip4Write_readsBack h base 0 (List.length_singleton (a := v)) (by decide)).decoded byte1 rfl

theorem ip4Totlen_readsBack (h : Handle) (base : Nat) (v : U16) :
    ReadsBack (fun c => c.ip4WrTotlen h base v) (fun c => c.ip4RdTotlen h base) v :=
  (ip4Write_readsBack h base 2 (toBe16_length v) (by decide)).decoded be16 (be16_toBe16 v)

theorem ip4Proto_readsBack (h : Handle) (base : Nat) (v : Byte) :
    ReadsBack (fun c => c.ip4WrProto h base v) (fun c => c.ip4RdProto h base) v :=
  (ip4Write_readsBack h base 9 (List.length_singleton (a := v)) (by decide)).decoded byte1 rfl

theorem ip4Src_readsBack (h : Handle) (base : Nat) (v : U32) :
    ReadsBack (fun c => c.ip4WrSrc h base v) (fun c => c.ip4RdSrc h base) v :=
  (ip4Write_readsBack h base 12 (toBe32_length v) (by decide)).decoded be32 (be32_toBe32 v)

theorem ip4Dst_readsBack (h : Handle) (base : Nat) (v : U32) :
    ReadsBack (fun c => c.ip4WrDst h base v) (fun c => c.ip4RdDst h base) v :=
  (ip4Write_readsBack h base 16 (toBe32_length v) (by decide)).decoded be32 (be32_toBe32 v)

/-- Settles O20: each field's write stores the bytes that the field's read decodes, so the read after it answers the
value written. -/
theorem fieldReadAfterWrite : Obligations.FieldReadAfterWrite := by
  intro s t h off
  refine ⟨?spi, ?seq, ?iv, ?padlen, ?next, ?auth, ?vihl, ?totlen, ?proto, ?src, ?dst⟩
  case spi => exact fun v hw => (hdrSpi_readsBack ⟨h, off⟩ v).answers .u32 hw
  case seq => exact fun v hw => (hdrSeq_readsBack ⟨h, off⟩ v).answers .u32 hw
  case iv => exact fun _ hw => (ReadsBack.guarded (hdrIv_readsBack ⟨h, off⟩)).answers .bytes hw
  case padlen => exact fun v hw => (trlPadlen_readsBack ⟨h, off⟩ v).answers .u8 hw
  case next => exact fun v hw => (trlNext_readsBack ⟨h, off⟩ v).answers .u8 hw
  case auth => exact fun _ hw => (ReadsBack.guarded (trlAuth_readsBack ⟨h, off⟩)).answers .bytes hw
  case vihl => exact fun v hw => (ip4Vihl_readsBack h off v).answers .u8 hw
  case totlen => exact fun v hw => (ip4Totlen_readsBack h off v).answers .u16 hw
  case proto => exact fun v hw => (ip4Proto_readsBack h off v).answers .u8 hw
  case src => exact fun v hw => (ip4Src_readsBack h off v).answers .u32 hw
  case dst => exact fun v hw => (ip4Dst_readsBack h off v).answers .u32 hw

end Sys2Proof.Machine

/-! ## Every operation as a body run on the active tuple

`exec` has one arm for each operation, and each arm runs a body on the context of the active tuple. The facts that hold
of all 45 operations are proved of the bodies. -/

namespace Sys2Proof.Machine

/-- The state machine for which an operation takes a drop. -/
def pipelineOf : Instr → Pipeline
  | .encPush _ _ => .encap
  | .encEnd => .encap
  | .dec _ => .decap
  | _ => .none

/-- What an operation does to the context it runs on. `source` gives the tuples that `CLONE` may copy from. -/
def body (source : Nat → Option Espc) : Instr → Ctx → Except Stop Ctx
  | .init k a src dst p => fun c => c.init k a src dst p
  | .clone w' => fun c => c.clone (source w')
  | .destroy => fun c => c.requireReady >>= fun _ => .ok c
  | .hdrView h off => answering .headerView fun c => c.hdrView h off
  | .hdrRdSpi v => answering .u32 fun c => c.hdrRdSpi v
  | .hdrWrSpi v x => fun c => c.hdrWrSpi v x
  | .hdrRdSeq v => answering .u32 fun c => c.hdrRdSeq v
  | .hdrWrSeq v x => fun c => c.hdrWrSeq v x
  | .hdrRdIv v => answering .bytes fun c => c.hdrRdIv v
  | .hdrWrIv v b => fun c => requireOperand (isBytes16 b) >>= fun _ => c.hdrWrIv v b
  | .trlView h off => answering .trailerView fun c => c.trlView h off
  | .trlRdPadlen v => answering .u8 fun c => c.trlRdPadlen v
  | .trlWrPadlen v x => fun c => c.trlWrPadlen v x
  | .trlRdNext v => answering .u8 fun c => c.trlRdNext v
  | .trlWrNext v x => fun c => c.trlWrNext v x
  | .trlRdAuth v => answering .bytes fun c => c.trlRdAuth v
  | .trlWrAuth v b => fun c => requireOperand (isBytes12 b) >>= fun _ => c.trlWrAuth v b
  | .scEnc iv d => fun c => requireOperand (isBytes16 iv) >>= fun _ => c.requireReady >>= fun _ => c.scEnc iv d
  | .scDec iv d => fun c => requireOperand (isBytes16 iv) >>= fun _ => c.requireReady >>= fun _ => c.scDec iv d
  | .scAuth d => fun c => c.requireReady >>= fun _ => c.scAuth d >>= fun r => .ok (r.2.answered (.bytes r.1))
  | .vcReg sl => fun c => c.requireReady >>= fun _ => c.vcReg sl
  | .vcEncrypt n => fun c => c.requireReady >>= fun _ => c.vcEncrypt n
  | .vcAuth n => fun c => c.requireReady >>= fun _ => c.vcAuth n
  | .vcFlush => fun c => c.requireReady >>= fun _ => c.vcFlush
  | .mbEnc key ivs xs => fun c => requireOperand (isBytes16 key && ivs.all isBytes16) >>= fun _ =>
      c.mbEnc key ivs xs >>= fun r => .ok (r.2.answered (.lanes r.1))
  | .mbHmac key lanes => fun c => requireOperand (isBytes20 key) >>= fun _ =>
      c.mbHmac key lanes >>= fun r => .ok (r.2.answered (.lanes r.1))
  | .encPush h iv => fun c => requireOperand (isBytes16 iv) >>= fun _ => c.requireReady >>= fun _ =>
      c.buffer h >>= fun _ => c.requireNotInFlight h >>= fun _ => c.encapsulate h iv
  | .encEnd => fun c => c.requireReady >>= fun _ => if 0 < c.inst.count then c.vcFlush else .ok c
  | .dec h => fun c => c.requireReady >>= fun _ => c.buffer h >>= fun _ => c.requireNotInFlight h >>= fun _ =>
      c.decapsulate h
  | .bufGrowHead h n => fun c => c.growHead h n
  | .bufGrowTail h n => fun c => c.growTail h n
  | .bufShrinkHead h n => fun c => c.shrinkHead h n
  | .bufShrinkTail h n => fun c => c.shrinkTail h n
  | .bufRange h off n => answering .range fun c => c.byteRangeAt h off n
  | .bufLen h => answering .length fun c => c.len h
  | .ip4RdVihl h base => answering .u8 fun c => c.ip4RdVihl h base
  | .ip4WrVihl h base v => fun c => c.ip4WrVihl h base v
  | .ip4RdTotlen h base => answering .u16 fun c => c.ip4RdTotlen h base
  | .ip4WrTotlen h base v => fun c => c.ip4WrTotlen h base v
  | .ip4RdProto h base => answering .u8 fun c => c.ip4RdProto h base
  | .ip4WrProto h base v => fun c => c.ip4WrProto h base v
  | .ip4RdSrc h base => answering .u32 fun c => c.ip4RdSrc h base
  | .ip4WrSrc h base v => fun c => c.ip4WrSrc h base v
  | .ip4RdDst h base => answering .u32 fun c => c.ip4RdDst h base
  | .ip4WrDst h base v => fun c => c.ip4WrDst h base v

/-- Each arm of `exec` runs the operation's body on the active tuple. -/
theorem exec_eq_runOn (i : Instr) (s : State) :
    exec i s = runOn (pipelineOf i) s (body (fun w => s.workers[w]?) i) := by
  cases i <;> rfl

/-- Only `CLONE` looks at another tuple. -/
theorem body_source {i : Instr} (hi : i.op ≠ .clone) (f g : Nat → Option Espc) : body f i = body g i := by
  cases i with
  | clone w' => exact absurd rfl hi
  | _ => rfl

/-! ### From the body's end to the outcome -/

/-- The outcome of a command of pipeline `p` in state `s`, from the end of its body. -/
def conclude (p : Pipeline) (s : State) : Except Stop Ctx → Outcome
  | .ok c => .next (s.withCtx c)
  | .error (.raised e h c) => .next (s.withCtx (takeDrop p e h c))
  | .error (.fault f) => .fault f
  | .error (.refused r) => .refused r

theorem runOn_eq_conclude {p : Pipeline} {s : State} {f : Ctx → Except Stop Ctx} {x : Espc}
    (hx : s.tuple? = some x) : runOn p s f = conclude p s (f ⟨x, s.mem, s.active⟩) := by
  match hf : f ⟨x, s.mem, s.active⟩ with
  | .ok _ => exact runOn_of_ok hx hf
  | .error (.raised _ _ _) => exact runOn_of_raised hx hf
  | .error (.fault _) => exact runOn_of_fault hx hf
  | .error (.refused _) => exact runOn_of_refused hx hf

theorem runOn_of_noTuple {p : Pipeline} {s : State} {f : Ctx → Except Stop Ctx} (hs : s.tuple? = none) :
    runOn p s f = .refused .noSuchWorker := by
  have hctx : s.ctx? = none := by simpa [State.ctx?, State.tuple?] using hs
  simp [runOn, hctx]

theorem exec_eq_conclude {i : Instr} {s : State} {x : Espc} (hx : s.tuple? = some x) :
    exec i s = conclude (pipelineOf i) s (body (fun w => s.workers[w]?) i ⟨x, s.mem, s.active⟩) :=
  (exec_eq_runOn i s).trans (runOn_eq_conclude hx)

/-- A body that refuses makes the command refused. -/
theorem exec_of_body_refused {i : Instr} {s : State} {x : Espc} {r : Refusal} (hx : s.tuple? = some x)
    (hb : ∀ source, body source i ⟨x, s.mem, s.active⟩ = .error (.refused r)) : exec i s = .refused r := by
  rw [exec_eq_conclude hx, hb]; rfl

/-- A triple of the body, as what the next state is. -/
theorem exec_post {i : Instr} {s t : State} {Q : Espc → Ctx → Prop} (h : exec i s = .next t)
    (hbody : ∀ x, s.tuple? = some x → Post (Q x) (fun e k c => Q x (takeDrop (pipelineOf i) e k c))
      (body (fun w => s.workers[w]?) i ⟨x, s.mem, s.active⟩)) :
    ∃ x c, s.tuple? = some x ∧ t = s.withCtx c ∧ Q x c :=
  runOn_post ((exec_eq_runOn i s).symm.trans h) hbody

/-- A command writes back the active tuple and the packet store, and nothing else. -/
theorem exec_next_withCtx {i : Instr} {s t : State} (h : exec i s = .next t) : ∃ c, t = s.withCtx c := by
  obtain ⟨_, -, ⟨c, -, ht⟩ | ⟨e, k, c, -, ht⟩⟩ := runOn_inv ((exec_eq_runOn i s).symm.trans h)
  · exact ⟨c, ht⟩
  · exact ⟨takeDrop (pipelineOf i) e k c, ht⟩

/-- Settles O57: a command writes back one tuple and the store, and its body sees that tuple, its index and the store
only, `CLONE` excepted. -/
theorem otherInstancesUntouched : Obligations.OtherInstancesUntouched := by
  refine ⟨fun i s t h => ?_, fun i s s' x hi hx hx' hmem hact => ?_⟩
  · obtain ⟨c, rfl⟩ := exec_next_withCtx h
    exact ⟨fun w hw => State.withCtx_other c s w hw, rfl, rfl⟩
  · have hs' : exec i s' = conclude (pipelineOf i) s' (body (fun w => s.workers[w]?) i ⟨x, s.mem, s.active⟩) := by
      rw [exec_eq_conclude hx', hmem, hact, body_source hi]
    rw [exec_eq_conclude hx, hs']
    match body (fun w => s.workers[w]?) i ⟨x, s.mem, s.active⟩ with
    | .ok c =>
      refine ⟨nofun, nofun, ?_⟩
      rintro _ ⟨⟩
      exact ⟨c.inst, State.withCtx_tuple? c s x hx, rfl⟩
    | .error (.raised e h c) =>
      refine ⟨nofun, nofun, ?_⟩
      rintro _ ⟨⟩
      exact ⟨_, State.withCtx_tuple? _ s x hx, rfl⟩
    | .error (.fault _) => exact ⟨fun _ h => by cases h; rfl, nofun, nofun⟩
    | .error (.refused _) => exact ⟨nofun, fun _ h => by cases h; rfl, nofun⟩

end Sys2Proof.Machine

/-! ## Refusals -/

namespace Sys2Proof.Machine

/-! ### A handle that names no packet -/

section UnknownHandle

variable {c : Ctx} {h : Handle} (hb : c.mem.get h = none)
include hb

theorem len_refused : c.len h = .error (.refused .unknownHandle) := bind_of_error (buffer_refused hb)

theorem memRead_refused (off n : Nat) : c.memRead h off n = .error (.refused .unknownHandle) :=
  bind_of_error (buffer_refused hb)

theorem memWrite_refused (off : Nat) (v : List Byte) : c.memWrite h off v = .error (.refused .unknownHandle) :=
  bind_of_error (buffer_refused hb)

theorem hdrView_refused (off : Nat) : c.hdrView h off = .error (.refused .unknownHandle) :=
  bind_of_error (buffer_refused hb)

theorem trlView_refused (off : Nat) : c.trlView h off = .error (.refused .unknownHandle) :=
  bind_of_error (buffer_refused hb)

theorem byteRangeAt_refused (off n : Nat) : c.byteRangeAt h off n = .error (.refused .unknownHandle) :=
  bind_of_error (buffer_refused hb)

theorem growHead_refused (n : Nat) : c.growHead h n = .error (.refused .unknownHandle) :=
  bind_of_error (buffer_refused hb)

theorem growTail_refused (n : Nat) : c.growTail h n = .error (.refused .unknownHandle) :=
  bind_of_error (buffer_refused hb)

theorem shrinkHead_refused (n : Nat) : c.shrinkHead h n = .error (.refused .unknownHandle) :=
  bind_of_error (buffer_refused hb)

theorem shrinkTail_refused (n : Nat) : c.shrinkTail h n = .error (.refused .unknownHandle) :=
  bind_of_error (buffer_refused hb)

theorem ip4Read_refused (base k n : Nat) : c.ip4Read h base k n = .error (.refused .unknownHandle) :=
  bind_of_error (buffer_refused hb)

theorem ip4Write_refused (base k : Nat) (v : List Byte) : c.ip4Write h base k v = .error (.refused .unknownHandle) :=
  bind_of_error (buffer_refused hb)

end UnknownHandle

theorem readU32_refused {c : Ctx} {v : View} (hb : c.mem.get v.h = none) (k : Nat) :
    c.readU32 v k = .error (.refused .unknownHandle) :=
  bind_of_error (memRead_refused hb _ _)

theorem readU8_refused {c : Ctx} {v : View} (hb : c.mem.get v.h = none) (k : Nat) :
    c.readU8 v k = .error (.refused .unknownHandle) :=
  bind_of_error (memRead_refused hb _ _)

theorem scEnc_refused {c : Ctx} {d : Region} (iv : List Byte) (h16 : d.n % Config.block = 0)
    (hb : c.mem.get d.h = none) : c.scEnc iv d = .error (.refused .unknownHandle) :=
  (if_pos h16).trans (bind_of_error (memRead_refused hb _ _))

theorem scDec_refused {c : Ctx} {d : Region} (iv : List Byte) (h16 : d.n % Config.block = 0)
    (hb : c.mem.get d.h = none) : c.scDec iv d = .error (.refused .unknownHandle) :=
  (if_pos h16).trans (bind_of_error (memRead_refused hb _ _))

theorem requireOperand_bind {β : Type} {b : Bool} (hb : b = true) (f : Unit → Except Stop β) :
    (requireOperand b >>= f) = f () := by
  subst hb; rfl

theorem requireReady_bind {β : Type} {c : Ctx} (hphase : c.inst.phase = .ready) (f : Unit → Except Stop β) :
    (c.requireReady >>= f) = f () :=
  bind_of_ok (requireReady_eq hphase) rfl

/-- The body of an operation on a handle that names no packet, its operands and `PHASE` being right. -/
theorem body_unknownHandle {source : Nat → Option Espc} {i : Instr} {c : Ctx} {h : Handle}
    (hwf : i.wellFormed = true) (hp : packetNamed i = some h)
    (hready : needsReady i.op = true → c.inst.phase = .ready) (hb : c.mem.get h = none) :
    body source i c = .error (.refused .unknownHandle) := by
  cases i with
  | init | clone | destroy | vcReg | vcEncrypt | vcAuth | vcFlush | mbEnc | mbHmac | encEnd => cases hp
  | hdrView g off => cases hp; exact bind_of_error (hdrView_refused hb off)
  | trlView g off => cases hp; exact bind_of_error (trlView_refused hb off)
  | bufRange g off n => cases hp; exact bind_of_error (byteRangeAt_refused hb off n)
  | bufLen g => cases hp; exact bind_of_error (len_refused hb)
  | hdrRdSpi v => cases hp; exact bind_of_error (readU32_refused hb 0)
  | hdrRdSeq v => cases hp; exact bind_of_error (readU32_refused hb 4)
  | trlRdPadlen v => cases hp; exact bind_of_error (readU8_refused hb 0)
  | trlRdNext v => cases hp; exact bind_of_error (readU8_refused hb 1)
  | hdrRdIv v => cases hp; exact bind_of_error (memRead_refused hb _ _)
  | trlRdAuth v => cases hp; exact bind_of_error (memRead_refused hb _ _)
  | hdrWrSpi v x => cases hp; exact memWrite_refused hb _ _
  | hdrWrSeq v x => cases hp; exact memWrite_refused hb _ _
  | trlWrPadlen v x => cases hp; exact memWrite_refused hb _ _
  | trlWrNext v x => cases hp; exact memWrite_refused hb _ _
  | hdrWrIv v iv => cases hp; exact (requireOperand_bind hwf _).trans (memWrite_refused hb _ _)
  | trlWrAuth v a => cases hp; exact (requireOperand_bind hwf _).trans (memWrite_refused hb _ _)
  | bufGrowHead g n => cases hp; exact growHead_refused hb n
  | bufGrowTail g n => cases hp; exact growTail_refused hb n
  | bufShrinkHead g n => cases hp; exact shrinkHead_refused hb n
  | bufShrinkTail g n => cases hp; exact shrinkTail_refused hb n
  | ip4RdVihl g base | ip4RdTotlen g base | ip4RdProto g base | ip4RdSrc g base | ip4RdDst g base =>
    cases hp; exact bind_of_error (bind_of_error (ip4Read_refused hb _ _ _))
  | ip4WrVihl g base v | ip4WrTotlen g base v | ip4WrProto g base v | ip4WrSrc g base v | ip4WrDst g base v =>
    cases hp; exact ip4Write_refused hb _ _ _
  | scAuth d =>
    cases hp
    exact (requireReady_bind (hready rfl) _).trans (bind_of_error (bind_of_error (memRead_refused hb _ _)))
  | scEnc iv d =>
    obtain ⟨h16, rfl⟩ : d.n % Config.block = 0 ∧ d.h = h := by simpa [packetNamed] using hp
    exact (requireOperand_bind hwf _).trans ((requireReady_bind (hready rfl) _).trans (scEnc_refused iv h16 hb))
  | scDec iv d =>
    obtain ⟨h16, rfl⟩ : d.n % Config.block = 0 ∧ d.h = h := by simpa [packetNamed] using hp
    exact (requireOperand_bind hwf _).trans ((requireReady_bind (hready rfl) _).trans (scDec_refused iv h16 hb))
  | encPush g iv =>
    cases hp
    exact (requireOperand_bind hwf _).trans
      ((requireReady_bind (hready rfl) _).trans (bind_of_error (buffer_refused hb)))
  | dec g => cases hp; exact (requireReady_bind (hready rfl) _).trans (bind_of_error (buffer_refused hb))

/-! ### The other preconditions -/

/-- The body of an operation that needs `PHASE = Ready`, in another `PHASE`, its operands being right. -/
theorem body_wrongPhase {source : Nat → Option Espc} {i : Instr} {c : Ctx} (hwf : i.wellFormed = true)
    (hi : needsReady i.op = true) (hphase : c.inst.phase ≠ .ready) :
    body source i c = .error (.refused .wrongPhase) := by
  have notReady {β : Type} (f : Unit → Except Stop β) : (c.requireReady >>= f) = .error (.refused .wrongPhase) :=
    bind_of_error (requireReady_refused hphase)
  cases i with
  | destroy | scAuth | vcReg | vcEncrypt | vcAuth | vcFlush | encEnd | dec => exact notReady _
  | scEnc iv d | scDec iv d | encPush h iv => exact (requireOperand_bind hwf _).trans (notReady _)
  | _ => cases hi

/-- An operand of the wrong length stops an operation that checks it first. -/
theorem operand_malformed {β : Type} {b : Bool} (hb : b = false) (f : Unit → Except Stop β) :
    (requireOperand b >>= f) = .error (.refused .malformedOperand) := by
  subst hb; rfl

theorem isBytes16_eq_false {l : List Byte} (h : l.length ≠ 16) : isBytes16 l = false := by simpa [isBytes16] using h

theorem isBytes12_eq_false {l : List Byte} (h : l.length ≠ 12) : isBytes12 l = false := by simpa [isBytes12] using h

theorem isBytes20_eq_false {l : List Byte} (h : l.length ≠ 20) : isBytes20 l = false := by simpa [isBytes20] using h

theorem requireNotInFlight_refused {c : Ctx} {h : Handle} (hf : c.inst.inFlight h = true) :
    c.requireNotInFlight h = .error (.refused .inFlight) := by
  simp [Ctx.requireNotInFlight, hf]

/-- Settles O41: each precondition is checked before anything is read or written, in the order operand, `PHASE`,
handle, in flight. -/
theorem failedPreconditionsAreRefused : Obligations.FailedPreconditionsAreRefused := by
  intro s x hx
  refine ⟨?phase, ?handle, ?inFlight, ?iv, ?auth, ?key20, ?key16⟩
  case phase => exact fun i hwf hi hphase => exec_of_body_refused hx fun _ => body_wrongPhase hwf hi hphase
  case handle =>
    exact fun i h hwf hp hready hb => exec_of_body_refused hx fun _ => body_unknownHandle hwf hp hready hb
  case inFlight =>
    intro h iv hphase hiv hsome hflight
    obtain ⟨b, hb⟩ := Option.isSome_iff_exists.mp hsome
    have checked {β : Type} (f : Unit → Except Stop β) : ((⟨x, s.mem, s.active⟩ : Ctx).requireReady >>= fun _ =>
        (⟨x, s.mem, s.active⟩ : Ctx).buffer h >>= fun _ => (⟨x, s.mem, s.active⟩ : Ctx).requireNotInFlight h >>= f)
          = .error (.refused .inFlight) :=
      bind_of_ok (requireReady_eq hphase) (bind_of_ok (buffer_eq hb)
        (bind_of_error (requireNotInFlight_refused hflight)))
    have hiv16 : isBytes16 iv = true := by simpa [isBytes16] using hiv
    refine ⟨exec_of_body_refused hx fun _ => ?_, exec_of_body_refused hx fun _ => checked _⟩
    exact bind_of_ok (congrArg requireOperand hiv16) (checked _)
  case iv =>
    intro hv iv d h hiv
    have hiv16 := isBytes16_eq_false hiv
    exact ⟨exec_of_body_refused hx fun _ => operand_malformed hiv16 _,
      exec_of_body_refused hx fun _ => operand_malformed hiv16 _,
      exec_of_body_refused hx fun _ => operand_malformed hiv16 _,
      exec_of_body_refused hx fun _ => operand_malformed hiv16 _⟩
  case auth =>
    exact fun tv a ha => exec_of_body_refused hx fun _ => operand_malformed (isBytes12_eq_false ha) _
  case key20 =>
    exact fun k lanes hk => exec_of_body_refused hx fun _ => operand_malformed (isBytes20_eq_false hk) _
  case key16 =>
    rintro k ivs xs (hk | ⟨iv, hmem, hiv⟩)
    · exact exec_of_body_refused hx fun _ => operand_malformed (by simp [isBytes16_eq_false hk]) _
    · have hall : ivs.all isBytes16 = false := List.all_eq_false.mpr ⟨iv, hmem, by simp [isBytes16_eq_false hiv]⟩
      exact exec_of_body_refused hx fun _ => operand_malformed (by simp [hall]) _

/-! ## Reset and construction errors -/

/-- Every tuple after reset is a created one. -/
theorem mem_reset_workers {x : Espc} (hx : x ∈ State.reset.workers) : x = Espc.created :=
  List.eq_of_mem_replicate hx

theorem created_batch : Espc.created.batch = [] := List.take_zero

/-- Settles O6. -/
theorem resetTuples : Obligations.ResetTuples := by
  refine ⟨List.length_replicate, fun x hx => ?_⟩
  rw [mem_reset_workers hx]
  exact ⟨rfl, rfl, created_batch, rfl, rfl, rfl, rfl⟩

theorem created_ok : Espc.created.Ok :=
  ⟨Nat.zero_le _, rfl, rfl, nofun, fun sl hsl => by rw [created_batch] at hsl; cases hsl⟩

/-- Settles O7: the store is empty and every tuple is a created one. -/
theorem invariantsHoldAtReset : Obligations.InvariantsHoldAtReset := by
  have hinv : MachineInv State.reset :=
    ⟨reset_mem_wf, rfl, List.length_replicate, fun x hx => by rw [mem_reset_workers hx]; exact created_ok⟩
  refine ⟨hinv, hinv, fun x hx => ?_⟩
  rw [mem_reset_workers hx, created_batch]
  exact ⟨Nat.zero_le _, nofun⟩

/-- The six operations of class `H` (30_encoding.md R100). -/
theorem host_cases {i : Instr} (hi : i.cls = .H) :
    (∃ k a src dst ok, i = .init k a src dst ok) ∨ (∃ w', i = .clone w') ∨ i = .destroy ∨
      (∃ h iv, i = .encPush h iv) ∨ i = .encEnd ∨ ∃ h, i = .dec h := by
  cases i with
  | init k a src dst ok => exact .inl ⟨k, a, src, dst, ok, rfl⟩
  | clone w' => exact .inr (.inl ⟨w', rfl⟩)
  | destroy => exact .inr (.inr (.inl rfl))
  | encPush h iv => exact .inr (.inr (.inr (.inl ⟨h, iv, rfl⟩)))
  | encEnd => exact .inr (.inr (.inr (.inr (.inl rfl))))
  | dec h => exact .inr (.inr (.inr (.inr (.inr ⟨h, rfl⟩))))
  | _ => cases hi

/-- `INIT` outside `Unconstructed` (44_collaborators_lifecycle.md R259). -/
theorem init_refused {c : Ctx} {k a : List Byte} {src dst : U32} {ok : Bool}
    (hphase : c.inst.phase ≠ .unconstructed) :
    c.init k a src dst ok = .error (.refused .wrongPhase) :=
  if_neg hphase

/-- `CLONE` outside `Unconstructed` (R260). -/
theorem clone_refused {c : Ctx} (hphase : c.inst.phase ≠ .unconstructed) (source : Option Espc) :
    ∃ r, c.clone source = .error (.refused r) := by
  cases source with
  | none => exact ⟨_, rfl⟩
  | some y => exact ⟨_, if_neg fun h => hphase h.1⟩

/-- An operation whose first check is an operand's length and whose second is `PHASE = Ready`. -/
theorem operand_ready_refused {β : Type} {c : Ctx} (hphase : c.inst.phase ≠ .ready) (b : Bool)
    (f : Unit → Except Stop β) :
    ∃ r, (requireOperand b >>= fun _ => c.requireReady >>= f) = .error (.refused r) := by
  cases b with
  | false => exact ⟨_, rfl⟩
  | true => exact ⟨_, bind_of_ok requireOperand_true (bind_of_error (requireReady_refused hphase))⟩

/-- No operation of class `H` is accepted while `PHASE = Halted`. -/
theorem halted_refuses {i : Instr} {c : Ctx} {source : Nat → Option Espc} (hi : i.cls = .H)
    (hphase : c.inst.phase = .halted) : ∃ r, body source i c = .error (.refused r) := by
  have hready : c.inst.phase ≠ .ready := by simp [hphase]
  have hfresh : c.inst.phase ≠ .unconstructed := by simp [hphase]
  obtain ⟨k, a, src, dst, ok, rfl⟩ | ⟨w', rfl⟩ | rfl | ⟨h, iv, rfl⟩ | rfl | ⟨h, rfl⟩ := host_cases hi
  · exact ⟨_, init_refused hfresh⟩
  · exact clone_refused hfresh _
  · exact ⟨_, body_wrongPhase rfl rfl hready⟩
  · exact operand_ready_refused hready _ _
  · exact ⟨_, body_wrongPhase rfl rfl hready⟩
  · exact ⟨_, body_wrongPhase rfl rfl hready⟩

/-- Settles O11. -/
theorem constructionErrorHalts : Obligations.ConstructionErrorHalts := by
  refine ⟨fun s x k a src dst ok hx hphase hbad => ?_, rfl, fun s x i hx hphase hi => ?_⟩
  · have hnot : ¬ (k.length = 16 ∧ a.length = 20 ∧ ok = true) := by
      rintro ⟨hk, ha, rfl⟩
      simp [hk, ha] at hbad
    exact runOn_of_ok hx ((if_pos hphase).trans (dif_neg hnot))
  · obtain ⟨r, hr⟩ := halted_refuses (c := ⟨x, s.mem, s.active⟩) (source := fun w => s.workers[w]?) hi hphase
    exact ⟨r, by rw [exec_eq_conclude hx, hr]; rfl⟩

end Sys2Proof.Machine

/-! ## What a command may do: moves under a licence

Every body is a sequence of elementary updates, here `Move`s. A `Licence` says which of them a command may use. That
a body stays within its licence is proved once for each shared operation, and the invariants are then facts about a
single move. -/

namespace Sys2Proof.Machine

/-- Which updates a command may use. -/
structure Licence where
  /-- The state machine it may drive. -/
  pipe : Pipeline
  /-- Whether it may change the batch. -/
  batch : Prop
  /-- The `SA.id` values it may install. -/
  ids : U32 → Prop
  /-- The packets it may change in every way. -/
  resize : Handle → Prop
  /-- The bytes it may overwrite in place. -/
  write : Handle → Nat → Prop

/-- The licence without the batch. -/
def Licence.frozen (L : Licence) : Licence := { L with batch := False }

/-- The licence allows to overwrite the `n` bytes of packet `h` from `off`. -/
def Licence.Covers (L : Licence) (h : Handle) (off n : Nat) : Prop :=
  L.resize h ∨ ∀ o, off ≤ o → o < off + n → L.write h o

theorem Licence.Covers.mono {L : Licence} {h : Handle} {off n m : Nat} (hL : L.Covers h off m) (hn : n ≤ m) :
    L.Covers h off n :=
  hL.imp_right fun hw o h1 h2 => hw o h1 (by omega)

/-- One elementary update of a context. -/
inductive Move (L : Licence) (c : Ctx) : Ctx → Prop
  | setEnc (st : EncState) (hL : L.pipe = .encap) : Move L c (c.setEnc st)
  | setDec (st : DecState) (hL : L.pipe = .decap) : Move L c (c.setDec st)
  | traced (ev : Event) : Move L c (c.traced ev)
  | emitted (hs : List Handle) : Move L c (c.emitted hs)
  | reported (v : Verdict) : Move L c (c.reported v)
  | answered (v : Value) : Move L c (c.answered v)
  | drawn (n : Nat) : Move L c (c.drawn n)
  | stored {h : Handle} {b b' : List Byte} (hb : c.mem.get h = some b) (hlen : b'.length ≤ max b.length Config.maxLen)
      (hL : L.resize h ∨ b'.length = b.length ∧ ∀ o, ¬ L.write h o → b'[o]? = b[o]?) :
      Move L c (c.withMem (c.mem.put h b'))
  | registered (sl : Slot) (hcount : c.inst.count < 8) (hblocks : sl.ctLen % 16 = 0) (hL : L.batch) :
      Move L c { c with inst := { c.inst with
        slots := c.inst.slots.setIfInBounds c.inst.count sl, count := c.inst.count + 1 } }
  | emptied (hL : L.batch) : Move L c { c with inst := { c.inst with count := 0 } }
  | constructed (id : U32) (k : Vector Byte 16) (a : Vector Byte 20) (src dst : U32)
      (hphase : c.inst.phase = .unconstructed) (hbatch : L.batch) (hL : L.ids id) :
      Move L c { c with inst := c.inst.construct id k a src dst }
  | halted (hphase : c.inst.phase = .unconstructed) : Move L c { c with inst := { c.inst with phase := .halted } }

/-- Any number of updates. -/
def Moves (L : Licence) : Ctx → Ctx → Prop := Relation.ReflTransGen (Move L)

variable {L : Licence} {c c' c'' : Ctx}

theorem Moves.refl (c : Ctx) : Moves L c c := Relation.ReflTransGen.refl

theorem Move.moves (h : Move L c c') : Moves L c c' := Relation.ReflTransGen.single h

theorem Moves.trans (h : Moves L c c') (h' : Moves L c' c'') : Moves L c c'' := Relation.ReflTransGen.trans h h'

theorem Moves.step (h : Moves L c c') (h' : Move L c' c'') : Moves L c c'' := Relation.ReflTransGen.tail h h'

/-- What every single move keeps, any number of moves keep. -/
theorem Moves.preserves {P : Ctx → Prop} (hP : ∀ c c', Move L c c' → P c → P c') (h : Moves L c c') (hc : P c) :
    P c' := by
  induction h with
  | refl => exact hc
  | tail _ hstep ih => exact hP _ _ hstep ih

/-- What no single move changes, no number of moves changes. -/
theorem Moves.unchanged {α : Type} {f : Ctx → α} (hf : ∀ c c', Move L c c' → f c' = f c) (h : Moves L c c') :
    f c' = f c :=
  h.preserves (P := fun d => f d = f c) (fun _ _ hstep hd => (hf _ _ hstep).trans hd) rfl

/-! ### What the moves of a licence leave alone -/

/-- A store of one packet, as it appears to the reader of any packet. -/
theorem Move.get_of_ne {h : Handle} {b : List Byte} {g : Handle} (hg : g ≠ h) :
    (c.withMem (c.mem.put h b)).mem.get g = c.mem.get g :=
  Memory.get_put_other _ _ _ _ hg

theorem Moves.sameHandles (h : Moves L c c') (g : Handle) : (c'.mem.get g).isSome = (c.mem.get g).isSome := by
  refine h.unchanged (f := fun d => (d.mem.get g).isSome) fun c c' hmove => ?_
  cases hmove with
  | @stored k b b' hb _ _ =>
    by_cases hg : g = k
    · subst hg; simp [hb]
    · exact congrArg _ (Move.get_of_ne hg)
  | _ => rfl

/-- A packet that may not be resized keeps its length. -/
theorem Moves.length_kept (h : Moves L c c') {g : Handle} (hg : ¬ L.resize g) :
    (c'.mem.get g).map List.length = (c.mem.get g).map List.length := by
  refine h.unchanged (f := fun d => (d.mem.get g).map List.length) fun c c' hmove => ?_
  cases hmove with
  | @stored k b b' hb _ hL =>
    by_cases hk : g = k
    · subst hk
      obtain hL | ⟨hlen, -⟩ := hL
      · exact absurd hL hg
      · simp [hb, hlen]
    · exact congrArg _ (Move.get_of_ne hk)
  | _ => rfl

/-- A byte that may not be written, of a packet that may not be resized, reads as before. -/
theorem Moves.byteAt_kept (h : Moves L c c') {g : Handle} {o : Nat} (hg : ¬ L.resize g) (ho : ¬ L.write g o) :
    c'.mem.byteAt g o = c.mem.byteAt g o := by
  refine h.unchanged (f := fun d => d.mem.byteAt g o) fun c c' hmove => ?_
  cases hmove with
  | @stored k b b' hb _ hL =>
    by_cases hk : g = k
    · subst hk
      obtain hL | ⟨-, hbytes⟩ := hL
      · exact absurd hL hg
      · simp [Memory.byteAt, hb, hbytes o ho]
    · exact congrArg (fun p => Option.bind p _) (Move.get_of_ne hk)
  | _ => rfl

/-- A licence without the batch keeps `COUNT` and the slots. -/
theorem Moves.batch_kept (h : Moves L c c') (hL : ¬ L.batch) :
    c'.inst.count = c.inst.count ∧ c'.inst.slots = c.inst.slots := by
  have hkept := h.unchanged (f := fun d => (d.inst.count, d.inst.slots)) fun c c' hmove => by
    cases hmove with
    | registered _ _ _ hbatch => exact absurd hbatch hL
    | emptied hbatch => exact absurd hbatch hL
    | constructed _ _ _ _ _ _ hbatch => exact absurd hbatch hL
    | _ => rfl
  exact Prod.mk.inj hkept

theorem Moves.encState_idle (h : Moves L c c') (hL : L.pipe ≠ .encap) (hc : c.inst.encState = .idle) :
    c'.inst.encState = .idle := by
  refine h.preserves (P := fun d => d.inst.encState = .idle) (fun c c' hmove hidle => ?_) hc
  cases hmove with
  | setEnc _ hpipe => exact absurd hpipe hL
  | constructed => rfl
  | _ => exact hidle

theorem Moves.decState_idle (h : Moves L c c') (hL : L.pipe ≠ .decap) (hc : c.inst.decState = .idle) :
    c'.inst.decState = .idle := by
  refine h.preserves (P := fun d => d.inst.decState = .idle) (fun c c' hmove hidle => ?_) hc
  cases hmove with
  | setDec _ hpipe => exact absurd hpipe hL
  | constructed => rfl
  | _ => exact hidle

/-- `y` is the tuple `x` some commands later, `x` having been built or halted: `PHASE`, SA and endpoints as they were,
the outputs grown (10_state.md R21 to R23, R36, R37). -/
structure Later (x y : Espc) : Prop where
  phase : y.phase = x.phase
  saId : y.saId = x.saId
  encKey : y.encKey = x.encKey
  authKey : y.authKey = x.authKey
  tunSrc : y.tunSrc = x.tunSrc
  tunDst : y.tunDst = x.tunDst
  out : x.out <+: y.out
  trace : x.trace <+: y.trace
  verdicts : x.verdicts <+: y.verdicts

theorem Later.refl (x : Espc) : Later x x :=
  ⟨rfl, rfl, rfl, rfl, rfl, rfl, List.prefix_rfl, List.prefix_rfl, List.prefix_rfl⟩

theorem Moves.later (h : Moves L c c') (hphase : c.inst.phase ≠ .unconstructed) : Later c.inst c'.inst := by
  refine h.preserves (P := fun d => Later c.inst d.inst) (fun d d' hmove hd => ?_) (Later.refl _)
  have hbuilt : d.inst.phase ≠ .unconstructed := hd.phase ▸ hphase
  cases hmove with
  | traced ev => exact { hd with trace := hd.trace.trans (List.prefix_append _ _) }
  | emitted hs => exact { hd with out := hd.out.trans (List.prefix_append _ _) }
  | reported v => exact { hd with verdicts := hd.verdicts.trans (List.prefix_append _ _) }
  | constructed _ _ _ _ _ hfresh => exact absurd hfresh hbuilt
  | halted hfresh => exact absurd hfresh hbuilt
  | _ => exact { hd with }

/-- The part of the machine's invariant that holds after every single update: all of it but `Idle`. -/
structure CtxInv (c : Ctx) : Prop where
  wf : c.mem.wf = true
  bounded : c.mem.bounded = true
  count : c.inst.count ≤ 8
  saId : c.inst.phase = .ready → c.inst.saId = Config.spiFixed
  blocks : ∀ sl ∈ c.inst.batch, sl.ctLen % 16 = 0

theorem Moves.inv (h : Moves L c c') (hL : ∀ id, L.ids id → id = Config.spiFixed) (hc : CtxInv c) : CtxInv c' := by
  refine h.preserves (P := CtxInv) (fun d d' hmove hd => ?_) hc
  cases hmove with
  | @stored k b b' hb hlen _ =>
    have hb' := Memory.get_bounded _ _ _ hd.bounded hb
    exact { hd with wf := Memory.put_wf _ _ _ hd.wf, bounded := Memory.put_bounded _ _ _ hd.bounded (by omega) }
  | registered sl hcount hblocks =>
    refine { hd with count := hcount, blocks := fun q hq => ?_ }
    rw [batch_register _ _ hcount] at hq
    obtain hq | hq := List.mem_append.mp hq
    · exact hd.blocks q hq
    · exact List.mem_singleton.mp hq ▸ hblocks
  | emptied => exact { hd with count := Nat.zero_le _, blocks := fun q hq => by simp [Espc.batch] at hq }
  | constructed id _ _ _ _ _ _ hid =>
    exact { hd with
      count := Nat.zero_le _
      saId := fun _ => hL id hid
      blocks := fun q hq => by simp [Espc.batch, Espc.construct] at hq }
  | halted => exact { hd with saId := nofun }
  | _ => exact { hd with }

/-! ### Running within a licence -/

/-- The computation moves the context `c` within the licence, however it ends. -/
def Within (L : Licence) (c : Ctx) (r : Except Stop Ctx) : Prop := Post (Moves L c) (fun _ _ c' => Moves L c c') r

/-- A computation that gives a value beside the context. -/
def WithinSnd {α : Type} (L : Licence) (c : Ctx) (r : Except Stop (α × Ctx)) : Prop :=
  Post (fun a => Moves L c a.2) (fun _ _ c' => Moves L c c') r

theorem Within.trans {r : Except Stop Ctx} (hr : Within L c' r) (h : Moves L c c') : Within L c r :=
  Post.mono hr (fun _ h' => h.trans h') fun _ _ _ h' => h.trans h'

theorem Within.bind {r : Except Stop Ctx} {f : Ctx → Except Stop Ctx} (hr : Within L c r)
    (hf : ∀ d, Moves L c d → Within L d (f d)) : Within L c (r >>= f) :=
  Post.bind hr fun d hd => (hf d hd).trans hd

theorem WithinSnd.bind {α : Type} {r : Except Stop (α × Ctx)} {f : α × Ctx → Except Stop Ctx} (hr : WithinSnd L c r)
    (hf : ∀ a, Moves L c a.2 → Within L a.2 (f a)) : Within L c (r >>= f) :=
  Post.bind hr fun a ha => (hf a ha).trans ha

/-- A computation that only looks, and then moves within the licence. -/
theorem Within.after {α : Type} {Q : α → Prop} {r : Except Stop α} {f : α → Except Stop Ctx}
    (hr : Post Q (fun _ _ _ => False) r) (hf : ∀ a, Q a → Within L c (f a)) : Within L c (r >>= f) :=
  hr.quiet.bind hf

/-- What a computation answers is described, and the description is within the licence. -/
theorem Within.of_post {Q : Ctx → Prop} {r : Except Stop Ctx} (hr : Post Q (fun _ _ _ => False) r)
    (hQ : ∀ d, Q d → Moves L c d) : Within L c r :=
  hr.mono hQ fun _ _ _ h => h.elim

theorem Moves.unfreeze (h : Moves L.frozen c c') : Moves L c c' := by
  refine h.preserves (P := Moves L c) (fun d d' hmove hd => hd.step ?_) (Moves.refl c)
  cases hmove with
  | setEnc st hL => exact .setEnc st hL
  | setDec st hL => exact .setDec st hL
  | traced ev => exact .traced ev
  | emitted hs => exact .emitted hs
  | reported v => exact .reported v
  | answered v => exact .answered v
  | drawn n => exact .drawn n
  | stored hb hlen hL => exact .stored hb hlen hL
  | registered _ _ _ hL => exact hL.elim
  | emptied hL => exact hL.elim
  | constructed _ _ _ _ _ _ hL => exact hL.elim
  | halted hphase => exact .halted hphase

theorem Moves.frozen_batch (h : Moves L.frozen c c') : c'.inst.batch = c.inst.batch := by
  obtain ⟨hcount, hslots⟩ := h.batch_kept not_false
  rw [Espc.batch, hcount, hslots, Espc.batch]

/-- A computation that leaves the batch alone, and one that goes on from there. -/
theorem Within.bind_frozen {r : Except Stop Ctx} {f : Ctx → Except Stop Ctx} (hr : Within L.frozen c r)
    (hf : ∀ d, Moves L.frozen c d → Within L d (f d)) : Within L c (r >>= f) :=
  Post.bind (hr.mono (fun _ h => h) fun _ _ _ h => h.unfreeze) fun d hd => (hf d hd).trans hd.unfreeze

theorem WithinSnd.bind_frozen {α : Type} {r : Except Stop (α × Ctx)} {f : α × Ctx → Except Stop Ctx}
    (hr : WithinSnd L.frozen c r) (hf : ∀ a, Moves L.frozen c a.2 → Within L a.2 (f a)) : Within L c (r >>= f) :=
  Post.bind (hr.mono (fun _ h => h) fun _ _ _ h => h.unfreeze) fun a ha => (hf a ha).trans ha.unfreeze

end Sys2Proof.Machine

/-! ## Every operation stays within its licence -/

namespace Sys2Proof.Machine

variable {L : Licence} {c : Ctx}

/-! ### Packet bytes and the buffer provider -/

/-- A splice inside a packet is a store within a licence that covers the spliced range. -/
theorem Moves.splice {h : Handle} {off : Nat} {v b : List Byte} (hb : c.mem.get h = some b)
    (hn : off + v.length ≤ b.length) (hL : L.Covers h off v.length) :
    Moves L c (c.withMem (c.mem.put h (splice b off v))) := by
  have hlen := splice_length b off v hn
  refine (Move.stored hb (by omega) (hL.imp_right fun hw => ⟨hlen, fun o ho => ?_⟩)).moves
  exact splice_outside b off v o hn (by by_contra hin; exact ho (hw o (by omega) (by omega)))

theorem memWrite_within {h : Handle} {off : Nat} {v : List Byte} (hL : L.Covers h off v.length) :
    Within L c (c.memWrite h off v) :=
  .of_post (memWrite_post c h off v) fun _ ⟨_, hb, hn, hd⟩ => hd ▸ .splice hb hn hL

theorem ip4Write_within {h : Handle} {base k : Nat} {v : List Byte} (hL : L.Covers h (base + k) v.length) :
    Within L c (c.ip4Write h base k v) :=
  .of_post (ip4Write_post c h base k v) fun _ ⟨_, hb, _, hn, hd⟩ => hd ▸ .splice hb hn hL

theorem writeAll_within (l : List (Region × List Byte)) (hL : ∀ p ∈ l, L.Covers p.1.h p.1.off p.2.length) :
    Within L c (c.writeAll l) := by
  induction l generalizing c with
  | nil => exact Moves.refl c
  | cons p t ih =>
    exact (memWrite_within (hL p (by simp))).bind fun d _ => ih fun q hq => hL q (List.mem_cons_of_mem _ hq)

section Resize

variable {h : Handle} (hL : L.resize h)
include hL

theorem growHead_within (n : Nat) : Within L c (c.growHead h n) := by
  refine .of_post (growHead_post c h n) fun d ⟨b, hb, h14, hmax, hd⟩ => ?_
  subst hd
  exact (Move.stored hb (by simp [Ctx.fill]; omega) (.inl hL)).moves.step (.drawn n)

theorem growTail_within (n : Nat) : Within L c (c.growTail h n) := by
  refine .of_post (growTail_post c h n) fun d ⟨b, hb, hmax, hd⟩ => ?_
  subst hd
  exact (Move.stored hb (by simp [Ctx.fill]; omega) (.inl hL)).moves.step (.drawn n)

theorem shrinkHead_within (n : Nat) : Within L c (c.shrinkHead h n) :=
  .of_post (shrinkHead_post c h n) fun _ ⟨_, hb, _, hd⟩ => hd ▸ (Move.stored hb (by simp; omega) (.inl hL)).moves

theorem shrinkTail_within (n : Nat) : Within L c (c.shrinkTail h n) :=
  .of_post (shrinkTail_post c h n) fun _ ⟨_, hb, _, hd⟩ => hd ▸ (Move.stored hb (by simp) (.inl hL)).moves

end Resize

/-! ### The crypto contexts -/

theorem scEnc_within {iv : List Byte} {d : Region} (hL : L.Covers d.h d.off d.n) : Within L c (c.scEnc iv d) := by
  refine (scEnc_post c iv d).mono ?_ fun _ _ _ ⟨_, _, _, hc⟩ => hc.symm ▸ Moves.refl c
  rintro _ ⟨-, b, hb, hn, rfl⟩
  have hlen := slice_length b d.off d.n hn
  exact (Moves.splice hb (by simp [hlen, hn]) (by simpa [hlen] using hL)).step (.traced _)

theorem scDec_within {iv : List Byte} {d : Region} (hL : L.Covers d.h d.off d.n) : Within L c (c.scDec iv d) := by
  refine (scDec_post c iv d).mono ?_ fun _ _ _ ⟨_, _, _, hc⟩ => hc.symm ▸ Moves.refl c
  rintro _ ⟨-, b, hb, hn, rfl⟩
  have hlen := slice_length b d.off d.n hn
  exact (Moves.splice hb (by simp [hlen, hn]) (by simpa [hlen] using hL)).step (.traced _)

theorem scAuth_within (d : Region) : WithinSnd L c (c.scAuth d) :=
  (scAuth_post c d).mono (fun _ ⟨_, _, _, ha⟩ => ha ▸ (Move.traced _).moves) fun _ _ _ h => h.elim

theorem mbEnc_within (key : List Byte) (ivs xs : List (List Byte)) : WithinSnd L c (c.mbEnc key ivs xs) :=
  (mbEnc_post c key ivs xs).mono (fun _ ⟨_, _, _, ha⟩ => ha ▸ (Move.traced _).moves) fun _ _ _ h => h.elim

theorem mbHmac_within (key : List Byte) (lanes : List (List Byte)) : WithinSnd L c (c.mbHmac key lanes) :=
  (mbHmac_post c key lanes).mono (fun _ ⟨_, ha⟩ => ha ▸ (Move.traced _).moves) fun _ _ _ h => h.elim

theorem vcReg_within (hL : L.batch) (sl : Slot) : Within L c (c.vcReg sl) :=
  .of_post (vcReg_post c sl) fun _ ⟨hcount, hblocks, hd⟩ => hd ▸ (Move.registered sl hcount hblocks hL).moves

theorem scEncAll_within (l : List (Slot × List Byte)) (hL : ∀ p ∈ l, L.Covers p.1.pkt p.1.ctOff p.1.ctLen) :
    Within L c (c.scEncAll l) := by
  induction l generalizing c with
  | nil => exact Moves.refl c
  | cons p t ih =>
    exact (scEnc_within (d := p.1.ct) (hL p (by simp))).bind fun d _ =>
      ih fun q hq => hL q (List.mem_cons_of_mem _ hq)

theorem scAuthAll_within (sls : List Slot) : WithinSnd L c (c.scAuthAll sls) := by
  induction sls generalizing c with
  | nil => exact Moves.refl c
  | cons sl t ih =>
    refine Post.bind (scAuth_within sl.au) fun r hr => ?_
    exact Post.bind (ih.mono (fun _ h => hr.trans h) fun _ _ _ h => hr.trans h) fun _ h => h

/-- The bytes read have the lengths of their regions. -/
theorem readAll_post (c : Ctx) (rs : List Region) :
    Post (fun xs => List.Forall₂ (fun r x => x.length = r.n) rs xs) (fun _ _ _ => False) (c.readAll rs) := by
  induction rs with
  | nil => exact .nil
  | cons r t ih =>
    refine (memRead_post c r.h r.off r.n).bind fun x ⟨b, _, hn, hx⟩ => ih.bind fun xs hxs => ?_
    exact .cons (by rw [hx, slice_length b _ _ hn]) hxs

/-- The lanes of `MB.ENC` have the lengths of the regions they were read from. -/
theorem mem_zip_lanes {key : List Byte} {rs : List Region} {ivs xs : List (List Byte)}
    (hxs : List.Forall₂ (fun r x => x.length = r.n) rs xs) {p : Region × List Byte}
    (hp : p ∈ rs.zip (List.zipWith (Config.aesCbcEnc key) ivs xs)) : p.1 ∈ rs ∧ p.2.length = p.1.n := by
  induction hxs generalizing ivs with
  | nil => simp at hp
  | @cons r x rs xs hrx _ ih =>
    cases ivs with
    | nil => simp at hp
    | cons iv ivs =>
      simp only [List.zipWith_cons_cons, List.zip_cons_cons, List.mem_cons] at hp
      obtain rfl | hp := hp
      · exact ⟨List.mem_cons_self, by simpa using hrx⟩
      · exact ⟨List.mem_cons_of_mem _ (ih hp).1, (ih hp).2⟩

theorem mem_truncated {ds : List (List Byte)} {v : List Byte} (hv : v ∈ truncated ds) : v.length ≤ 12 := by
  obtain ⟨d, -, rfl⟩ := List.mem_map.mp hv
  simp

/-- `Encrypt` writes the ciphertext regions of the first `n` slots. -/
theorem vcEncrypt_within {n : Nat} (hL : ∀ sl ∈ c.inst.slots.toList.take n, L.Covers sl.pkt sl.ctOff sl.ctLen) :
    Within L c (c.vcEncrypt n) := by
  unfold Ctx.vcEncrypt
  split
  · exact Moves.refl c
  · refine .after (requireContract_post _) fun _ _ => .after (readSlots_post c n) fun sls ⟨_, hsls⟩ => ?_
    subst hsls
    refine .after (readAll_post c _) fun ivs _ => ?_
    split
    · refine .after (readAll_post c _) fun xs hxs => ?_
      refine Post.bind ((mbEnc_post c _ ivs xs).mono (fun _ h => h) fun _ _ _ h => h.elim) fun r hr => ?_
      obtain ⟨-, -, -, rfl⟩ := hr
      refine (writeAll_within _ fun p hp => ?_).trans (Move.traced .mbEnc).moves
      obtain ⟨hreg, hlen⟩ := mem_zip_lanes hxs hp
      obtain ⟨sl, hsl, hp1⟩ := List.mem_map.mp hreg
      rw [hlen, ← hp1]
      exact hL sl hsl
    · exact scEncAll_within _ fun p hp => hL p.1 (List.of_mem_zip hp).1

/-- The digests of `Authenticate`, by the path the number of slots selects (41_crypto_contexts.md R159). -/
def Ctx.slotDigests (c : Ctx) (n : Nat) (sls : List Slot) : Except Stop (List (List Byte) × Ctx) :=
  if n = Config.vector then c.readAll (sls.map Slot.au) >>= fun xs => c.mbHmac c.inst.authKey.toList xs
  else c.scAuthAll sls

/-- `Authenticate` takes the digests and then writes them. -/
theorem vcAuth_eq_slotDigests (c : Ctx) {n : Nat} (hn : n ≠ 0) :
    c.vcAuth n = (requireContract (decide (n ≤ Config.vector)) >>= fun _ => c.readSlots n >>= fun sls =>
      c.slotDigests n sls >>= fun r => r.2.writeAll ((sls.map Slot.ad).zip (truncated r.1))) := by
  rw [Ctx.vcAuth, if_neg hn]
  congr 1; funext _; congr 1; funext sls
  rw [Ctx.slotDigests]
  split
  · cases c.readAll (sls.map Slot.au) <;> rfl
  · rfl

theorem slotDigests_within (n : Nat) (sls : List Slot) : WithinSnd L c (c.slotDigests n sls) := by
  unfold Ctx.slotDigests
  split
  · exact (readAll_post c _).quiet.bind fun xs _ => mbHmac_within _ xs
  · exact scAuthAll_within _

/-- `Authenticate` writes the auth-destination views of the first `n` slots. -/
theorem vcAuth_within {n : Nat} (hL : ∀ sl ∈ c.inst.slots.toList.take n, L.Covers sl.pkt sl.adOff 12) :
    Within L c (c.vcAuth n) := by
  by_cases hn : n = 0
  · subst hn; exact Moves.refl c
  · rw [vcAuth_eq_slotDigests c hn]
    refine .after (requireContract_post _) fun _ _ => .after (readSlots_post c n) fun sls ⟨_, hsls⟩ => ?_
    subst hsls
    refine (slotDigests_within n _).bind fun r _ => writeAll_within _ fun p hp => ?_
    obtain ⟨hreg, hdig⟩ := List.of_mem_zip hp
    obtain ⟨sl, hsl, hp1⟩ := List.mem_map.mp hreg
    rw [← hp1]
    exact (hL sl hsl).mono (mem_truncated hdig)

/-- The flush writes the ciphertext regions and the auth-destination views of the batch. -/
theorem vcFlush_within (hbatch : L.batch)
    (hL : ∀ sl ∈ c.inst.batch, L.Covers sl.pkt sl.ctOff sl.ctLen ∧ L.Covers sl.pkt sl.adOff 12) :
    Within L c c.vcFlush := by
  refine (vcEncrypt_within (L := L.frozen) fun sl hsl => (hL sl hsl).1).bind_frozen fun d hd => ?_
  refine (vcAuth_within fun sl hsl => ?_).bind fun e _ => ?_
  · rw [(hd.batch_kept not_false).2] at hsl
    exact (hL sl hsl).2
  · exact (Move.emitted _).moves.step (.emptied hbatch)

end Sys2Proof.Machine

/-! ## The pipelines and the whole operation map stay within their licences -/

namespace Sys2Proof.Machine

variable {L : Licence} {c : Ctx} {h : Handle}

/-! ### The codec reads of the pipelines only look -/

theorem hdrRdIv_post (c : Ctx) (v : View) :
    Post (fun _ => True) (fun _ _ _ => False) (c.hdrRdIv v) :=
  (memRead_post c _ _ _).mono (fun _ _ => trivial) fun _ _ _ h => h

theorem trlRdAuth_post (c : Ctx) (v : View) :
    Post (fun _ => True) (fun _ _ _ => False) (c.trlRdAuth v) :=
  (memRead_post c _ _ _).mono (fun _ _ => trivial) fun _ _ _ h => h

theorem ip4RdProto_post (c : Ctx) (h : Handle) (base : Nat) :
    Post (fun _ => True) (fun _ _ _ => False) (c.ip4RdProto h base) :=
  (ip4Read_post c h base 9 1).bind fun _ _ => trivial

/-! ### Encapsulation -/

section Encap

variable (hpipe : L.pipe = .encap)
include hpipe

theorem stageReceivePlain_within : WithinSnd L c (stageReceivePlain h c) := by
  refine (len_post c h).quiet.bind fun len _ => ?_
  split
  · exact (ip4RdProto_post c h _).quiet.bind fun _ _ => (Move.setEnc _ hpipe).moves
  · exact Moves.refl c

theorem finishOk_encap_moves (h : Handle) (c : Ctx) : Moves L c (finishOk .encap h c) :=
  (((Move.setEnc .done hpipe).moves.step (.reported _)).step (.setEnc _ hpipe))

variable (hres : L.resize h)
include hres

theorem stageGrowBuffer_within (p : Plain) : Within L c (stageGrowBuffer h p c) :=
  (growHead_within hres _).bind fun _ _ => (growTail_within hres _).bind fun _ _ => (Move.setEnc _ hpipe).moves

theorem stageStampOuterHeader_within (p : Plain) : Within L c (stageStampOuterHeader h p c) :=
  (ip4Write_within (.inl hres)).bind fun _ _ => (ip4Write_within (.inl hres)).bind fun _ _ =>
    (ip4Write_within (.inl hres)).bind fun _ _ => (ip4Write_within (.inl hres)).bind fun _ _ =>
      (ip4Write_within (.inl hres)).bind fun _ _ => (Move.setEnc _ hpipe).moves

theorem stageStampEsp_within (iv : List Byte) (p : Plain) : Within L c (stageStampEsp h iv p c) := by
  refine .after (hdrView_post c h _) fun hv ⟨hhv, _⟩ => ?_
  subst hhv
  refine (memWrite_within (.inl hres)).bind fun _ _ => (memWrite_within (.inl hres)).bind fun _ _ =>
    (memWrite_within (.inl hres)).bind fun d _ => ?_
  refine .after (trlView_post d h _) fun tv ⟨htv, _⟩ => ?_
  subst htv
  exact (memWrite_within (.inl hres)).bind fun _ _ => (memWrite_within (.inl hres)).bind fun _ _ =>
    (Move.setEnc _ hpipe).moves

variable (hbatch : L.batch)
include hbatch

/-- The packet of the new slot is `h` itself, so a flush writes that packet and the regions of the old batch. -/
theorem stageAccumulate_within (p : Plain)
    (hL : ∀ sl ∈ c.inst.batch, L.Covers sl.pkt sl.ctOff sl.ctLen ∧ L.Covers sl.pkt sl.adOff 12) :
    Within L c (stageAccumulate h p c) := by
  refine Post.bind ((vcReg_post c _).mono (fun _ h => h) fun _ _ _ h => h.elim) ?_
  rintro _ ⟨hcount, hblocks, rfl⟩
  refine Within.trans ?_ (Move.registered _ hcount hblocks hbatch).moves
  split
  · refine Within.trans (vcFlush_within hbatch fun sl hsl => ?_) (Move.setEnc .flushVector hpipe).moves
    rw [Ctx.setEnc_batch, batch_register _ _ hcount] at hsl
    obtain hsl | hsl := List.mem_append.mp hsl
    · exact hL sl hsl
    · rw [List.mem_singleton.mp hsl]
      exact ⟨.inl hres, .inl hres⟩
  · exact Moves.refl _

theorem encapsulate_within (iv : List Byte)
    (hL : ∀ sl ∈ c.inst.batch, L.Covers sl.pkt sl.ctOff sl.ctLen ∧ L.Covers sl.pkt sl.adOff 12) :
    Within L c (c.encapsulate h iv) := by
  refine Within.trans ?_ (Move.setEnc .receivePlain hpipe).moves
  refine (stageReceivePlain_within (L := L.frozen) hpipe).bind_frozen fun r hr => ?_
  refine (stageGrowBuffer_within (L := L.frozen) hpipe hres r.1).bind_frozen fun _ hgrow => ?_
  refine (stageStampOuterHeader_within (L := L.frozen) hpipe hres r.1).bind_frozen fun _ houter => ?_
  refine (stageStampEsp_within (L := L.frozen) hpipe hres iv r.1).bind_frozen fun d hesp => ?_
  have hd : d.inst.batch = c.inst.batch := (((hr.trans hgrow).trans houter).trans hesp).frozen_batch
  exact (stageAccumulate_within hpipe hres hbatch r.1 (hd ▸ hL)).bind fun e _ => finishOk_encap_moves hpipe h e

end Encap

/-! ### Decapsulation -/

section Decap

variable (hpipe : L.pipe = .decap)
include hpipe

theorem stageReceiveEsp_within : WithinSnd L c (stageReceiveEsp h c) := by
  refine (len_post c h).quiet.bind fun len _ => ?_
  split
  · exact Moves.refl c
  · exact (hdrView_post c h _).quiet.bind fun _ _ => (trlView_post c h _).quiet.bind fun _ _ =>
      (Move.setDec _ hpipe).moves

theorem stageLookupSa_within (v : EspViews) : Within L c (stageLookupSa h v c) := by
  refine .after (readU32_post c v.hv 0) fun spi _ => ?_
  split
  · exact (Move.setDec _ hpipe).moves
  · exact Moves.refl c

theorem stageVerifyMac_within (v : EspViews) : Within L c (stageVerifyMac h v c) := by
  refine (scAuth_within _).bind fun r _ => .after (trlRdAuth_post r.2 v.tv) fun stored _ => ?_
  split
  · exact (Move.setDec _ hpipe).moves
  · exact Moves.refl r.2

theorem finishOk_decap_moves (h : Handle) (c : Ctx) : Moves L c (finishOk .decap h c) :=
  (((Move.setDec .done hpipe).moves.step (.reported _)).step (.setDec _ hpipe))

variable (hres : L.resize h)
include hres

theorem stageDecrypt_within (v : EspViews) : Within L c (stageDecrypt h v c) := by
  unfold stageDecrypt
  split
  · exact .after (hdrRdIv_post c v.hv) fun _ _ => (scDec_within (.inl hres)).bind fun _ _ => (Move.setDec _ hpipe).moves
  · exact Moves.refl c

omit hpipe in
theorem stageStripHeaders_within (v : EspViews) : Within L c (stageStripHeaders h v c) := by
  refine .after (readU8_post c v.tv 0) fun p _ => ?_
  split
  · exact (shrinkHead_within hres _).bind fun _ _ => shrinkTail_within hres _
  · exact Moves.refl c

theorem decapsulate_within : Within L c (c.decapsulate h) := by
  refine Within.trans ?_ (Move.setDec .receiveEsp hpipe).moves
  exact (stageReceiveEsp_within hpipe).bind fun r _ => (stageLookupSa_within hpipe r.1).bind fun _ _ =>
    (stageVerifyMac_within hpipe r.1).bind fun _ _ => (stageDecrypt_within hpipe hres r.1).bind fun _ _ =>
      (stageStripHeaders_within hres r.1).bind fun d _ => finishOk_decap_moves hpipe h d

end Decap

/-! ### The operation map -/

/-- An operation that only looks and answers. -/
theorem answer_within {α : Type} {val : α → Value} {Q : α → Prop} {r : Except Stop α}
    (hr : Post Q (fun _ _ _ => False) r) : Within L c (r >>= fun v => .ok (c.answered (val v))) :=
  .after hr fun _ _ => (Move.answered _).moves

theorem byteRangeAt_post (c : Ctx) (h : Handle) (off n : Nat) :
    Post (fun _ => True) (fun _ _ _ => False) (c.byteRangeAt h off n) :=
  (buffer_post c h).bind fun _ _ => (requireBounds_post _).bind fun _ _ => trivial

/-- A field of the IPv4 header, read and decoded. -/
theorem ip4Decoded_post {α : Type} (c : Ctx) (h : Handle) (base k n : Nat) (f : List Byte → α) :
    Post (fun _ => True) (fun _ _ _ => False) (c.ip4Read h base k n >>= fun b => .ok (f b)) :=
  (ip4Read_post c h base k n).bind fun _ _ => trivial

theorem init_within (hbatch : L.batch) (hid : L.ids Config.spiFixed) (k a : List Byte) (src dst : U32) (ok : Bool) :
    Within L c (c.init k a src dst ok) := by
  unfold Ctx.init
  split
  · next hphase =>
    split
    · exact (Move.constructed _ _ _ _ _ hphase hbatch hid).moves
    · exact (Move.halted hphase).moves.step (.reported _)
  · trivial

theorem clone_within (hbatch : L.batch) {source : Option Espc}
    (hid : ∀ y, source = some y → y.phase = .ready → L.ids y.saId) : Within L c (c.clone source) := by
  cases source with
  | none => trivial
  | some y =>
    simp only [Ctx.clone]
    split
    · next hphase => exact (Move.constructed _ _ _ _ _ hphase.1 hbatch (hid y rfl hphase.2)).moves
    · trivial

/-- Every body, within a licence for all packets and the batch. -/
theorem body_within {source : Nat → Option Espc} (i : Instr) (hpipe : L.pipe = pipelineOf i) (hbatch : L.batch)
    (hres : ∀ h, L.resize h) (hid : L.ids Config.spiFixed)
    (hsource : ∀ w y, source w = some y → y.phase = .ready → L.ids y.saId) : Within L c (body source i c) := by
  have hL (h : Handle) (off n : Nat) : L.Covers h off n := .inl (hres h)
  cases i with
  | init k a src dst ok => exact init_within hbatch hid k a src dst ok
  | clone w' => exact clone_within hbatch (hsource w')
  | destroy => exact .after (requireReady_post c) fun _ _ => Moves.refl c
  | hdrView h off => exact answer_within (hdrView_post c h off)
  | trlView h off => exact answer_within (trlView_post c h off)
  | hdrRdSpi v | hdrRdSeq v => exact answer_within (readU32_post c v _)
  | trlRdPadlen v | trlRdNext v => exact answer_within (readU8_post c v _)
  | hdrRdIv v | trlRdAuth v => exact answer_within (memRead_post c _ _ _)
  | hdrWrSpi v x | hdrWrSeq v x | trlWrPadlen v x | trlWrNext v x => exact memWrite_within (hL _ _ _)
  | hdrWrIv v b | trlWrAuth v b => exact .after (requireOperand_post _) fun _ _ => memWrite_within (hL _ _ _)
  | scEnc iv d =>
    exact .after (requireOperand_post _) fun _ _ => .after (requireReady_post c) fun _ _ => scEnc_within (hL _ _ _)
  | scDec iv d =>
    exact .after (requireOperand_post _) fun _ _ => .after (requireReady_post c) fun _ _ => scDec_within (hL _ _ _)
  | scAuth d =>
    exact .after (requireReady_post c) fun _ _ => (scAuth_within d).bind fun _ _ => (Move.answered _).moves
  | vcReg sl => exact .after (requireReady_post c) fun _ _ => vcReg_within hbatch sl
  | vcEncrypt n => exact .after (requireReady_post c) fun _ _ => vcEncrypt_within fun _ _ => hL _ _ _
  | vcAuth n => exact .after (requireReady_post c) fun _ _ => vcAuth_within fun _ _ => hL _ _ _
  | vcFlush => exact .after (requireReady_post c) fun _ _ => vcFlush_within hbatch fun _ _ => ⟨hL _ _ _, hL _ _ _⟩
  | mbEnc key ivs xs =>
    exact .after (requireOperand_post _) fun _ _ => (mbEnc_within key ivs xs).bind fun _ _ => (Move.answered _).moves
  | mbHmac key lanes =>
    exact .after (requireOperand_post _) fun _ _ => (mbHmac_within key lanes).bind fun _ _ => (Move.answered _).moves
  | encPush h iv =>
    exact .after (requireOperand_post _) fun _ _ => .after (requireReady_post c) fun _ _ =>
      .after (buffer_post c h) fun _ _ => .after (requireNotInFlight_post c h) fun _ _ =>
        encapsulate_within hpipe (hres h) hbatch iv fun _ _ => ⟨hL _ _ _, hL _ _ _⟩
  | encEnd =>
    refine .after (requireReady_post c) fun _ _ => ?_
    split
    · exact vcFlush_within hbatch fun _ _ => ⟨hL _ _ _, hL _ _ _⟩
    · exact Moves.refl c
  | dec h =>
    exact .after (requireReady_post c) fun _ _ => .after (buffer_post c h) fun _ _ =>
      .after (requireNotInFlight_post c h) fun _ _ => decapsulate_within hpipe (hres h)
  | bufGrowHead h n => exact growHead_within (hres h) n
  | bufGrowTail h n => exact growTail_within (hres h) n
  | bufShrinkHead h n => exact shrinkHead_within (hres h) n
  | bufShrinkTail h n => exact shrinkTail_within (hres h) n
  | bufRange h off n => exact answer_within (byteRangeAt_post c h off n)
  | bufLen h => exact answer_within (len_post c h)
  | ip4RdVihl h base | ip4RdTotlen h base | ip4RdProto h base | ip4RdSrc h base | ip4RdDst h base =>
    exact answer_within (ip4Decoded_post c h base _ _ _)
  | ip4WrVihl h base v | ip4WrTotlen h base v | ip4WrProto h base v | ip4WrSrc h base v | ip4WrDst h base v =>
    exact ip4Write_within (hL _ _ _)

/-! ### From the body to the next state -/

/-- A drop moves the context within a licence for its pipeline. -/
theorem takeDrop_moves {p : Pipeline} (hpipe : L.pipe = p) (e : DropReason) (h : Handle) (c : Ctx) :
    Moves L c (takeDrop p e h c) := by
  cases p with
  | encap => exact (Move.setEnc _ hpipe).moves.step (.reported _)
  | decap => exact ((Move.setDec _ hpipe).moves.step (.reported _)).step (.setDec _ hpipe)
  | none => exact (Move.reported _).moves

/-- A command whose body stays within a licence for its pipeline moves the active tuple and the store within it. -/
theorem exec_moves {i : Instr} {s t : State} (hpipe : L.pipe = pipelineOf i) (h : exec i s = .next t)
    (hbody : ∀ x, s.tuple? = some x →
      Within L ⟨x, s.mem, s.active⟩ (body (fun w => s.workers[w]?) i ⟨x, s.mem, s.active⟩)) :
    ∃ x d, s.tuple? = some x ∧ t = s.withCtx d ∧ Moves L ⟨x, s.mem, s.active⟩ d :=
  exec_post (Q := fun x d => Moves L ⟨x, s.mem, s.active⟩ d) h fun x hx =>
    (hbody x hx).mono (fun _ hd => hd) fun e k d hd => hd.trans (takeDrop_moves hpipe e k d)

/-- The licence of an operation that may change everything, the SPI it installs being in `ids`. -/
def Licence.all (i : Instr) (ids : U32 → Prop) : Licence := ⟨pipelineOf i, True, ids, fun _ => True, fun _ _ => True⟩

/-- What every operation does, whatever it is. -/
theorem exec_moves_all {i : Instr} {s t : State} {ids : U32 → Prop} (h : exec i s = .next t)
    (hid : ids Config.spiFixed) (hsource : ∀ y ∈ s.workers, y.phase = .ready → ids y.saId) :
    ∃ x d, s.tuple? = some x ∧ t = s.withCtx d ∧ Moves (.all i ids) ⟨x, s.mem, s.active⟩ d :=
  exec_moves rfl h fun _ _ => body_within i rfl trivial (fun _ => trivial) hid fun _ y hy =>
    hsource y (List.mem_of_getElem? hy)

end Sys2Proof.Machine

/-! ## What every step keeps -/

namespace Sys2Proof.Machine

/-- A command is executed only as a decoded operation that its port accepts. -/
theorem fetch_instr {s : State} {w : Nat} {i : Instr} {rest : List Input} (h : fetch s = .instr w i rest) :
    ∃ p c, s.inputs = .command w p c :: rest ∧ decode c = .ok i ∧ portAccepts p i = true := by
  unfold fetch at h
  split at h
  · cases h
  · next p c _ hin =>
    split at h
    · cases h
    · next hdec =>
      split at h
      · next hport => cases h; exact ⟨p, c, hin, hdec, hport⟩
      · cases h
  · split at h
    · cases h
    · split at h <;> cases h
  · split at h
    · cases h
    · split at h <;> cases h

/-- The owner of a packet changes the store with `put` or `free`, of a packet that is not in flight. -/
theorem fetch_store {s : State} {m : Memory} {rest : List Input} (h : fetch s = .store m rest) :
    ∃ k, s.inFlightAnywhere k = false ∧
      ((∃ b, b.length ≤ Config.maxLen ∧ m = s.mem.put k b) ∨ m = s.mem.erase k) := by
  unfold fetch at h
  split at h
  · cases h
  · split at h
    · cases h
    · split at h <;> cases h
  · next k b _ _ =>
    split at h
    · cases h
    · next hfl =>
      split at h
      · next hlen => cases h; exact ⟨k, Bool.eq_false_iff.mpr hfl, .inl ⟨b, hlen, rfl⟩⟩
      · cases h
  · next k _ _ =>
    split at h
    · cases h
    · next hfl =>
      split at h
      · cases h; exact ⟨k, Bool.eq_false_iff.mpr hfl, .inr rfl⟩
      · cases h

/-- Everything a step that answers a next state has done. -/
theorem step_cases {s t : State} (h : step s = .next t) :
    t = s ∨
    (∃ w i rest, fetch s = .instr w i rest ∧ exec i { s with active := w, inputs := rest } = .next t) ∨
    (∃ m rest, fetch s = .store m rest ∧ t = { s with mem := m, inputs := rest }) := by
  unfold step at h
  split at h
  · cases h; exact .inl rfl
  · next w i rest hf => exact .inr (.inl ⟨w, i, rest, hf, h⟩)
  · next m rest hf => cases h; exact .inr (.inr ⟨m, rest, hf, rfl⟩)
  · cases h

/-- Only a command ends a step in a fault. -/
theorem step_fault {s : State} {f : Fault} (h : step s = .fault f) :
    ∃ w i rest, fetch s = .instr w i rest ∧ exec i { s with active := w, inputs := rest } = .fault f := by
  unfold step at h
  split at h
  · cases h
  · next w i rest hf => exact ⟨w, i, rest, hf, h⟩
  · cases h
  · cases h

/-! ### The invariant -/

/-- An `Ok` tuple is one whose context meets `CtxInv`, with both state machines `Idle`. -/
theorem Espc.ok_iff {c : Ctx} (hwf : c.mem.wf = true) (hbounded : c.mem.bounded = true) :
    c.inst.Ok ↔ CtxInv c ∧ c.inst.encState = .idle ∧ c.inst.decState = .idle := by
  constructor
  · rintro ⟨hcount, henc, hdec, hid, hblocks⟩
    exact ⟨⟨hwf, hbounded, hcount, hid, hblocks⟩, henc, hdec⟩
  · rintro ⟨hinv, henc, hdec⟩
    exact ⟨hinv.count, henc, hdec, hinv.saId, hinv.blocks⟩

/-- Both state machines are `Idle` (10_state.md R27, R28). -/
def Idle (c : Ctx) : Prop := c.inst.encState = .idle ∧ c.inst.decState = .idle

/-- The computation ends with both state machines `Idle`, the drop taken if it raises one. -/
def EndsIdle (p : Pipeline) (r : Except Stop Ctx) : Prop := Post Idle (fun e h d => Idle (takeDrop p e h d)) r

/-- A computation that drives neither state machine leaves both `Idle`, and a drop does too. -/
theorem Within.endsIdle {L : Licence} {c : Ctx} {r : Except Stop Ctx} (hr : Within L c r) (hL : L.pipe = .none)
    (hc : Idle c) (p : Pipeline) : EndsIdle p r := by
  have hidle : ∀ d, Moves L c d → Idle d := fun d hd =>
    ⟨hd.encState_idle (by simp [hL]) hc.1, hd.decState_idle (by simp [hL]) hc.2⟩
  refine hr.mono hidle fun e h d hd => ?_
  obtain ⟨henc, hdec⟩ := hidle d hd
  cases p with
  | encap => exact ⟨rfl, hdec⟩
  | decap => exact ⟨henc, rfl⟩
  | none => exact ⟨henc, hdec⟩

theorem Post.any {α : Type} (r : Except Stop α) : Post (fun _ => True) (fun _ _ _ => True) r := by
  match r with
  | .ok _ => trivial
  | .error (.raised _ _ _) => trivial
  | .error (.fault _) => trivial
  | .error (.refused _) => trivial

theorem Post.and {α : Type} {Q Q' : α → Prop} {P P' : DropReason → Handle → Ctx → Prop} {r : Except Stop α}
    (hr : Post Q P r) (hr' : Post Q' P' r) : Post (fun a => Q a ∧ Q' a) (fun e h c => P e h c ∧ P' e h c) r := by
  match r, hr, hr' with
  | .ok _, hr, hr' => exact ⟨hr, hr'⟩
  | .error (.raised _ _ _), hr, hr' => exact ⟨hr, hr'⟩
  | .error (.fault _), _, _ => trivial
  | .error (.refused _), _, _ => trivial

/-- A completed encapsulation ends as `finishOk` leaves it (42_encapsulation.md R193). -/
theorem encapsulate_encState (c : Ctx) (h : Handle) (iv : List Byte) :
    Post (fun d => d.inst.encState = .idle) (fun _ _ _ => True) (c.encapsulate h iv) :=
  (Post.any _).bind fun _ _ => (Post.any _).bind fun _ _ => (Post.any _).bind fun _ _ => (Post.any _).bind fun _ _ =>
    (Post.any _).bind fun _ _ => rfl

theorem decapsulate_decState (c : Ctx) (h : Handle) :
    Post (fun d => d.inst.decState = .idle) (fun _ _ _ => True) (c.decapsulate h) :=
  (Post.any _).bind fun _ _ => (Post.any _).bind fun _ _ => (Post.any _).bind fun _ _ => (Post.any _).bind fun _ _ =>
    (Post.any _).bind fun _ _ => rfl

theorem encapsulate_endsIdle {c : Ctx} (h : Handle) (iv : List Byte) (hc : Idle c) :
    EndsIdle .encap (c.encapsulate h iv) := by
  have hmoves := encapsulate_within (L := .all (.encPush h iv) fun _ => True) (c := c) (h := h) rfl trivial trivial iv
    fun _ _ => ⟨.inl trivial, .inl trivial⟩
  exact (hmoves.and (encapsulate_encState c h iv)).mono
    (fun d ⟨hd, henc⟩ => ⟨henc, hd.decState_idle nofun hc.2⟩)
    fun e k d ⟨hd, _⟩ => ⟨rfl, hd.decState_idle nofun hc.2⟩

theorem decapsulate_endsIdle {c : Ctx} (h : Handle) (hc : Idle c) : EndsIdle .decap (c.decapsulate h) := by
  have hmoves := decapsulate_within (L := .all (.dec h) fun _ => True) (c := c) (h := h) rfl trivial
  exact (hmoves.and (decapsulate_decState c h)).mono
    (fun d ⟨hd, hdec⟩ => ⟨hd.encState_idle nofun hc.1, hdec⟩)
    fun e k d ⟨hd, _⟩ => ⟨hd.encState_idle nofun hc.1, rfl⟩

/-- Every operation ends with both state machines `Idle`: the two pipelines by their last edge or their drop, every
other operation because it drives none. -/
theorem body_endsIdle {source : Nat → Option Espc} (i : Instr) {c : Ctx} (hc : Idle c) :
    EndsIdle (pipelineOf i) (body source i c) := by
  have undriven (hi : pipelineOf i = .none) : EndsIdle (pipelineOf i) (body source i c) :=
    (body_within (L := .all i fun _ => True) i rfl trivial (fun _ => trivial) trivial fun _ _ _ _ => trivial).endsIdle
      hi hc _
  cases i with
  | encPush h iv =>
    exact (requireOperand_post _).quiet.bind fun _ _ => (requireReady_post c).quiet.bind fun _ _ =>
      (buffer_post c h).quiet.bind fun _ _ => (requireNotInFlight_post c h).quiet.bind fun _ _ =>
        encapsulate_endsIdle h iv hc
  | encEnd =>
    refine (requireReady_post c).quiet.bind fun _ _ => ?_
    split
    · exact (vcFlush_within (L := .all .vcFlush fun _ => True) trivial
        fun _ _ => ⟨.inl trivial, .inl trivial⟩).endsIdle rfl hc _
    · exact hc
  | dec h =>
    exact (requireReady_post c).quiet.bind fun _ _ => (buffer_post c h).quiet.bind fun _ _ =>
      (requireNotInFlight_post c h).quiet.bind fun _ _ => decapsulate_endsIdle h hc
  | _ => exact undriven rfl

/-- Every body, run in a machine that meets the invariant, ends in a context that belongs to such a machine. -/
theorem body_keepsInv {i : Instr} {s : State} {x : Espc} (hs : MachineInv s) (hx : s.tuple? = some x) :
    Post (fun d => CtxInv d ∧ Idle d)
      (fun e k d => CtxInv (takeDrop (pipelineOf i) e k d) ∧ Idle (takeDrop (pipelineOf i) e k d))
      (body (fun w => s.workers[w]?) i ⟨x, s.mem, s.active⟩) := by
  obtain ⟨hwf, hbounded, -, hok⟩ := hs
  have hx' : (⟨x, s.mem, s.active⟩ : Ctx).inst.Ok := hok x (List.mem_of_getElem? hx)
  obtain ⟨hinv, hidle⟩ := (Espc.ok_iff hwf hbounded).mp hx'
  have hsource : ∀ (w : Nat) (y : Espc), s.workers[w]? = some y → y.phase = .ready → y.saId = Config.spiFixed := fun w y hy => by
    obtain ⟨-, -, -, hid, -⟩ := hok y (List.mem_of_getElem? hy)
    exact hid
  have hmoves := body_within (L := .all i (· = Config.spiFixed)) (c := ⟨x, s.mem, s.active⟩) i rfl trivial
    (fun _ => trivial) rfl hsource
  exact (hmoves.and (body_endsIdle i hidle)).mono (fun d ⟨hd, hi⟩ => ⟨hd.inv (fun _ hid => hid) hinv, hi⟩)
    fun e k d ⟨hd, hi⟩ => ⟨(hd.trans (takeDrop_moves rfl e k d)).inv (fun _ hid => hid) hinv, hi⟩

/-- Every operation keeps the machine's invariant. -/
theorem exec_keepsInv {i : Instr} {s t : State} (hs : MachineInv s) (h : exec i s = .next t) : MachineInv t := by
  obtain ⟨x, d, hx, rfl, hinv, hidle⟩ :=
    exec_post (Q := fun _ d => CtxInv d ∧ Idle d) h fun _ hx => body_keepsInv hs hx
  obtain ⟨-, -, hworkers, hok⟩ := hs
  refine ⟨hinv.wf, hinv.bounded, (List.length_set ..).trans hworkers, fun y hy => ?_⟩
  obtain hy | rfl := List.mem_or_eq_of_mem_set hy
  · exact hok y hy
  · exact (Espc.ok_iff hinv.wf hinv.bounded).mpr ⟨hinv, hidle⟩

/-- Settles O8: an operation keeps the invariant move by move and ends in `Idle`, and the host's own inputs change the
store only, to a canonical one with no longer packet. -/
theorem stepKeepsInv : Obligations.StepKeepsInv := by
  intro s t hs h
  obtain ⟨hwf, hbounded, hworkers, hok⟩ := id hs
  obtain rfl | ⟨w, i, rest, -, hexec⟩ | ⟨m, rest, hf, rfl⟩ := step_cases h
  · exact hs
  · exact exec_keepsInv (s := { s with active := w, inputs := rest }) hs hexec
  · obtain ⟨k, -, ⟨b, hlen, rfl⟩ | rfl⟩ := fetch_store hf
    · exact ⟨Memory.put_wf _ _ _ hwf, Memory.put_bounded _ _ _ hbounded hlen, hworkers, hok⟩
    · exact ⟨Memory.erase_wf _ _ hwf, Memory.erase_bounded _ _ hbounded, hworkers, hok⟩

/-! ### What a built tuple keeps -/

/-- After any step, the place of a tuple that was built or halted holds a later one of it. -/
theorem step_later {s t : State} {w : Nat} {x : Espc} (h : step s = .next t) (hx : s.workers[w]? = some x)
    (hphase : x.phase ≠ .unconstructed) : ∃ y, t.workers[w]? = some y ∧ Later x y := by
  obtain rfl | ⟨a, i, rest, -, hexec⟩ | ⟨m, rest, -, rfl⟩ := step_cases h
  · exact ⟨x, hx, Later.refl x⟩
  · obtain ⟨z, d, hz, rfl, hd⟩ := exec_moves_all (ids := fun _ => True) hexec trivial fun _ _ _ => trivial
    by_cases hw : w = a
    · subst hw
      obtain rfl : x = z := Option.some.inj (hx.symm.trans hz)
      exact ⟨d.inst, State.withCtx_tuple? d _ x hz, hd.later hphase⟩
    · exact ⟨x, (State.withCtx_other d _ w hw).trans hx, Later.refl x⟩
  · exact ⟨x, hx, Later.refl x⟩

/-- Settles O58. -/
theorem constructedIsNeverMutated : Obligations.ConstructedIsNeverMutated := by
  intro s t w x h hx hphase
  obtain ⟨y, hy, hxy⟩ := step_later h hx hphase
  exact ⟨y, hy, hxy.phase, hxy.saId, hxy.encKey, hxy.authKey, hxy.tunSrc, hxy.tunDst⟩

/-- Settles O59. -/
theorem outputsOnlyGrow : Obligations.OutputsOnlyGrow := by
  intro s t w x h hx hphase
  obtain ⟨y, hy, hxy⟩ := step_later h hx hphase
  exact ⟨y, hy, hxy.out, hxy.trace, hxy.verdicts⟩

end Sys2Proof.Machine

/-! ## What the operations leave of the packet store -/

namespace Sys2Proof.Machine

@[simp] theorem takeDrop_mem (p : Pipeline) (e : DropReason) (h : Handle) (c : Ctx) :
    (takeDrop p e h c).mem = c.mem := by
  cases p <;> rfl

/-- The computation never touches the packet store. -/
def KeepsMem (c : Ctx) (r : Except Stop Ctx) : Prop := Post (fun d => d.mem = c.mem) (fun _ _ d => d.mem = c.mem) r

/-- The lifecycle, `VC.REG` and the digests touch no packet (10_state.md R33, 41_crypto_contexts.md R153, R161,
R162). -/
theorem body_keepsMem {source : Nat → Option Espc} {i : Instr} (c : Ctx)
    (hi : i.op ∈ [Op.init, Op.clone, Op.destroy, Op.vcReg, Op.mbEnc, Op.mbHmac, Op.scAuth]) :
    KeepsMem c (body source i c) := by
  cases i with
  | init k a src dst ok =>
    simp only [body, Ctx.init]
    split
    · split <;> rfl
    · trivial
  | clone w' =>
    simp only [body, Ctx.clone]
    split
    · trivial
    · split
      · rfl
      · trivial
  | destroy => exact (requireReady_post c).quiet.bind fun _ _ => rfl
  | vcReg sl =>
    refine (requireReady_post c).quiet.bind fun _ _ => (vcReg_post c sl).mono ?_ fun _ _ _ h => h.elim
    rintro _ ⟨-, -, rfl⟩
    rfl
  | scAuth d =>
    refine (requireReady_post c).quiet.bind fun _ _ => (scAuth_post c d).quiet.bind ?_
    rintro _ ⟨b, -, -, rfl⟩
    rfl
  | mbEnc key ivs xs =>
    refine (requireOperand_post _).quiet.bind fun _ _ => (mbEnc_post c key ivs xs).quiet.bind ?_
    rintro _ ⟨-, -, -, rfl⟩
    rfl
  | mbHmac key lanes =>
    refine (requireOperand_post _).quiet.bind fun _ _ => (mbHmac_post c key lanes).quiet.bind ?_
    rintro _ ⟨-, rfl⟩
    rfl
  | _ => simp [Instr.op] at hi

/-- Settles O56. -/
theorem noCommandCreatesOrDeletesAPacket : Obligations.NoCommandCreatesOrDeletesAPacket := by
  refine fun i s t h => ⟨fun g => ?_, fun hi => ?_⟩
  · obtain ⟨x, d, -, rfl, hd⟩ := exec_moves_all (ids := fun _ => True) h trivial fun _ _ _ => trivial
    exact hd.sameHandles g
  · obtain ⟨x, d, -, rfl, hd⟩ := exec_post (Q := fun _ d => d.mem = s.mem) h fun x _ =>
      (body_keepsMem ⟨x, s.mem, s.active⟩ hi).mono (fun _ hd => hd) fun e k d hd => by simpa using hd
    exact hd

/-! ### The memory frame of the pipelines -/

/-- The licence of a command that may resize the packets in `resize` and write the slot bytes of `sls`. -/
def Licence.slotBytes (p : Pipeline) (resize : Handle → Prop) (sls : List Slot) : Licence :=
  ⟨p, True, fun _ => True, resize, InSlotBytes sls⟩

theorem Licence.slotBytes_ct {p : Pipeline} {resize : Handle → Prop} {sls : List Slot} {sl : Slot} (hsl : sl ∈ sls) :
    (Licence.slotBytes p resize sls).Covers sl.pkt sl.ctOff sl.ctLen :=
  .inr fun _ h1 h2 => ⟨sl, hsl, rfl, .inl ⟨h1, h2⟩⟩

theorem Licence.slotBytes_ad {p : Pipeline} {resize : Handle → Prop} {sls : List Slot} {sl : Slot} (hsl : sl ∈ sls) :
    (Licence.slotBytes p resize sls).Covers sl.pkt sl.adOff 12 :=
  .inr fun _ h1 h2 => ⟨sl, hsl, rfl, .inr ⟨h1, h2⟩⟩

/-- A byte outside a command's licence reads as before. -/
theorem exec_byteAt_kept {L : Licence} {i : Instr} {s t : State} {x : Espc} {g : Handle} {o : Nat}
    (hpipe : L.pipe = pipelineOf i) (hx : s.tuple? = some x) (h : exec i s = .next t)
    (hbody : Within L ⟨x, s.mem, s.active⟩ (body (fun w => s.workers[w]?) i ⟨x, s.mem, s.active⟩))
    (hg : ¬ L.resize g) (ho : ¬ L.write g o) : t.mem.byteAt g o = s.mem.byteAt g o := by
  obtain ⟨y, d, hy, rfl, hd⟩ := exec_moves hpipe h fun y hy => by
    obtain rfl : x = y := Option.some.inj (hx.symm.trans hy)
    exact hbody
  obtain rfl : x = y := Option.some.inj (hx.symm.trans hy)
  exact hd.byteAt_kept hg ho

/-- Settles O55: each command stays within the licence of its own packet and the slot bytes of its batch. -/
theorem pipelineMemoryFrame : Obligations.PipelineMemoryFrame := by
  intro s t x g o hx
  refine ⟨fun h iv hexec hgh ho => ?push, fun hexec ho => ?flushEnd, fun hexec ho => ?flush,
    fun n hexec ho => ?vector, fun h hexec hgh => ?dec⟩
  case push =>
    refine exec_byteAt_kept (L := .slotBytes .encap (· = h) x.batch) rfl hx hexec ?_ hgh ho
    exact .after (requireOperand_post _) fun _ _ => .after (requireReady_post _) fun _ _ =>
      .after (buffer_post _ h) fun _ _ => .after (requireNotInFlight_post _ h) fun _ _ =>
        encapsulate_within rfl rfl trivial iv fun sl hsl => ⟨Licence.slotBytes_ct hsl, Licence.slotBytes_ad hsl⟩
  case flushEnd =>
    refine exec_byteAt_kept (L := .slotBytes .encap (fun _ => False) x.batch) rfl hx hexec ?_ not_false ho
    refine .after (requireReady_post _) fun _ _ => ?_
    split
    · exact vcFlush_within trivial fun sl hsl => ⟨Licence.slotBytes_ct hsl, Licence.slotBytes_ad hsl⟩
    · exact Moves.refl _
  case flush =>
    refine exec_byteAt_kept (L := .slotBytes .none (fun _ => False) x.batch) rfl hx hexec ?_ not_false ho
    exact .after (requireReady_post _) fun _ _ =>
      vcFlush_within trivial fun sl hsl => ⟨Licence.slotBytes_ct hsl, Licence.slotBytes_ad hsl⟩
  case vector =>
    obtain hexec | hexec := hexec
    · exact exec_byteAt_kept (L := .slotBytes .none (fun _ => False) (x.slots.toList.take n)) rfl hx hexec
        (.after (requireReady_post _) fun _ _ => vcEncrypt_within fun _ hsl => Licence.slotBytes_ct hsl) not_false ho
    · exact exec_byteAt_kept (L := .slotBytes .none (fun _ => False) (x.slots.toList.take n)) rfl hx hexec
        (.after (requireReady_post _) fun _ _ => vcAuth_within fun _ hsl => Licence.slotBytes_ad hsl) not_false ho
  case dec =>
    refine exec_byteAt_kept (L := .slotBytes .decap (· = h) []) rfl hx hexec ?_ hgh (by rintro ⟨_, hsl, -⟩; cases hsl)
    exact .after (requireReady_post _) fun _ _ => .after (buffer_post _ h) fun _ _ =>
      .after (requireNotInFlight_post _ h) fun _ _ => decapsulate_within rfl rfl

end Sys2Proof.Machine

/-! ## `TRACE` is written and never read (10_state.md R37)

An operation is blind to `TRACE` when, run on a context and on the same context with another `TRACE`, it stops in the
same way or leaves contexts that again differ in `TRACE` only. -/

namespace Sys2Proof.Machine

/-- The context with another `TRACE`. -/
def Ctx.retraced (c : Ctx) (tr : List Event) : Ctx := { c with inst := { c.inst with trace := tr } }

/-- `d` is `c` but for `TRACE`. -/
def Alike (c d : Ctx) : Prop := ∃ tr, d = c.retraced tr

/-- The same value beside alike contexts. -/
def AlikeSnd {α : Type} (a b : α × Ctx) : Prop := a.1 = b.1 ∧ Alike a.2 b.2

/-- Two ends of an operation that agree. -/
inductive Agree {α : Type} (R : α → α → Prop) : Except Stop α → Except Stop α → Prop
  | ok {a b : α} (hab : R a b) : Agree R (.ok a) (.ok b)
  | raised (e : DropReason) (h : Handle) {c d : Ctx} (hcd : Alike c d) :
      Agree R (.error (.raised e h c)) (.error (.raised e h d))
  | fault (f : Fault) : Agree R (.error (.fault f)) (.error (.fault f))
  | refused (r : Refusal) : Agree R (.error (.refused r)) (.error (.refused r))

section Agree

variable {α β : Type} {S : β → β → Prop}

theorem Agree.bind {R : α → α → Prop} {r r' : Except Stop α} {f g : α → Except Stop β}
    (hr : Agree R r r') (hf : ∀ a b, R a b → Agree S (f a) (g b)) : Agree S (r >>= f) (r' >>= g) := by
  cases hr with
  | ok hab => exact hf _ _ hab
  | raised e h hcd => exact .raised e h hcd
  | fault f => exact .fault f
  | refused r => exact .refused r

/-- The two runs look at the same thing, and go on to agree. -/
theorem Agree.after {r : Except Stop α} {f g : α → Except Stop β} (hf : ∀ a, Agree S (f a) (g a)) :
    Agree S (r >>= f) (r >>= g) := by
  match r with
  | .ok a => exact hf a
  | .error (.raised e h c) => exact .raised e h ⟨c.inst.trace, rfl⟩
  | .error (.fault f) => exact .fault f
  | .error (.refused r) => exact .refused r

/-- The two runs reach alike contexts, and go on to agree. -/
theorem Agree.next {r r' : Except Stop Ctx} {f g : Ctx → Except Stop β} (hr : Agree Alike r r')
    (hf : ∀ c tr, Agree S (f c) (g (c.retraced tr))) : Agree S (r >>= f) (r' >>= g) :=
  hr.bind fun c _ ⟨tr, hd⟩ => hd ▸ hf c tr

theorem Agree.nextSnd {r r' : Except Stop (α × Ctx)} {f g : α × Ctx → Except Stop β} (hr : Agree AlikeSnd r r')
    (hf : ∀ a c tr, Agree S (f (a, c)) (g (a, c.retraced tr))) : Agree S (r >>= f) (r' >>= g) :=
  hr.bind fun (a, c) (_, _) ⟨ha, tr, hd⟩ => by
    cases ha; cases hd
    exact hf a c tr

theorem Agree.ite {R : α → α → Prop} {p : Prop} [Decidable p] {a b a' b' : Except Stop α} (ha : Agree R a a')
    (hb : Agree R b b') : Agree R (if p then a else b) (if p then a' else b') := by
  split
  · exact ha
  · exact hb

end Agree

variable {c : Ctx} {tr : List Event} {h : Handle}

/-! ### Packet bytes and the buffer provider -/

theorem memWrite_blind {off : Nat} {v : List Byte} :
    Agree Alike (c.memWrite h off v) ((c.retraced tr).memWrite h off v) :=
  .after (r := c.buffer h) fun _ => .after fun _ => .ok ⟨tr, rfl⟩

theorem ip4Write_blind {base k : Nat} {v : List Byte} :
    Agree Alike (c.ip4Write h base k v) ((c.retraced tr).ip4Write h base k v) :=
  .after (r := c.buffer h) fun _ => .after fun _ => memWrite_blind

theorem growHead_blind {n : Nat} : Agree Alike (c.growHead h n) ((c.retraced tr).growHead h n) :=
  .after (r := c.buffer h) fun _ => .after fun _ => .ok ⟨tr, rfl⟩

theorem growTail_blind {n : Nat} : Agree Alike (c.growTail h n) ((c.retraced tr).growTail h n) :=
  .after (r := c.buffer h) fun _ => .after fun _ => .ok ⟨tr, rfl⟩

theorem shrinkHead_blind {n : Nat} : Agree Alike (c.shrinkHead h n) ((c.retraced tr).shrinkHead h n) :=
  .after (r := c.buffer h) fun _ => .after fun _ => .ok ⟨tr, rfl⟩

theorem shrinkTail_blind {n : Nat} : Agree Alike (c.shrinkTail h n) ((c.retraced tr).shrinkTail h n) :=
  .after (r := c.buffer h) fun _ => .after fun _ => .ok ⟨tr, rfl⟩

theorem readAll_retraced (rs : List Region) : (c.retraced tr).readAll rs = c.readAll rs := by
  induction rs with
  | nil => rfl
  | cons r t ih => simp only [Ctx.readAll, ih]; rfl

theorem writeAll_blind (l : List (Region × List Byte)) :
    Agree Alike (c.writeAll l) ((c.retraced tr).writeAll l) := by
  induction l generalizing c tr with
  | nil => exact .ok ⟨tr, rfl⟩
  | cons p t ih => exact memWrite_blind.next fun _ _ => ih

/-! ### The crypto contexts -/

/-- The event goes to both traces. -/
theorem traced_alike (c : Ctx) (tr : List Event) (ev : Event) : Alike (c.traced ev) ((c.retraced tr).traced ev) :=
  ⟨tr ++ [ev], rfl⟩

theorem scEnc_blind {iv : List Byte} {d : Region} : Agree Alike (c.scEnc iv d) ((c.retraced tr).scEnc iv d) :=
  .ite (.after (r := c.memRead d.h d.off d.n) fun _ => memWrite_blind.next fun c tr => .ok (traced_alike c tr _))
    (.raised _ _ ⟨tr, rfl⟩)

theorem scDec_blind {iv : List Byte} {d : Region} : Agree Alike (c.scDec iv d) ((c.retraced tr).scDec iv d) :=
  .ite (.after (r := c.memRead d.h d.off d.n) fun _ => memWrite_blind.next fun c tr => .ok (traced_alike c tr _))
    (.raised _ _ ⟨tr, rfl⟩)

theorem scAuth_blind {d : Region} : Agree AlikeSnd (c.scAuth d) ((c.retraced tr).scAuth d) :=
  .after (r := c.memRead d.h d.off d.n) fun _ => .ok ⟨rfl, traced_alike c tr _⟩

theorem vcReg_blind {sl : Slot} : Agree Alike (c.vcReg sl) ((c.retraced tr).vcReg sl) :=
  .after (r := requireContract (decide (c.inst.count < 8))) fun _ => .after fun _ => .ok ⟨tr, rfl⟩

theorem mbEnc_blind {key : List Byte} {ivs xs : List (List Byte)} :
    Agree AlikeSnd (c.mbEnc key ivs xs) ((c.retraced tr).mbEnc key ivs xs) :=
  .after fun _ => .ok ⟨rfl, traced_alike c tr _⟩

theorem mbHmac_blind {key : List Byte} {lanes : List (List Byte)} :
    Agree AlikeSnd (c.mbHmac key lanes) ((c.retraced tr).mbHmac key lanes) :=
  .after fun _ => .ok ⟨rfl, traced_alike c tr _⟩

theorem scEncAll_blind (l : List (Slot × List Byte)) :
    Agree Alike (c.scEncAll l) ((c.retraced tr).scEncAll l) := by
  induction l generalizing c tr with
  | nil => exact .ok ⟨tr, rfl⟩
  | cons p t ih => exact scEnc_blind.next fun _ _ => ih

theorem scAuthAll_blind (sls : List Slot) : Agree AlikeSnd (c.scAuthAll sls) ((c.retraced tr).scAuthAll sls) := by
  induction sls generalizing c tr with
  | nil => exact .ok ⟨rfl, tr, rfl⟩
  | cons sl t ih => exact scAuth_blind.nextSnd fun _ _ _ => ih.nextSnd fun _ _ tr => .ok ⟨rfl, tr, rfl⟩

theorem vcEncrypt_blind {n : Nat} : Agree Alike (c.vcEncrypt n) ((c.retraced tr).vcEncrypt n) := by
  refine .ite (.ok ⟨tr, rfl⟩) (.after fun _ => .after (r := c.readSlots n) fun sls => ?_)
  rw [readAll_retraced]
  refine .after fun ivs => .ite ?_ (scEncAll_blind _)
  rw [readAll_retraced]
  exact .after fun xs => mbEnc_blind.nextSnd fun _ _ _ => writeAll_blind _

theorem slotDigests_blind {n : Nat} {sls : List Slot} :
    Agree AlikeSnd (c.slotDigests n sls) ((c.retraced tr).slotDigests n sls) := by
  refine .ite ?_ (scAuthAll_blind sls)
  rw [readAll_retraced]
  exact .after fun xs => mbHmac_blind

theorem vcAuth_blind {n : Nat} : Agree Alike (c.vcAuth n) ((c.retraced tr).vcAuth n) := by
  by_cases hn : n = 0
  · subst hn; exact .ok ⟨tr, rfl⟩
  · rw [vcAuth_eq_slotDigests _ hn, vcAuth_eq_slotDigests _ hn]
    exact .after fun _ => .after (r := c.readSlots n) fun sls =>
      slotDigests_blind.nextSnd fun _ _ _ => writeAll_blind _

theorem vcFlush_blind : Agree Alike c.vcFlush (c.retraced tr).vcFlush :=
  vcEncrypt_blind.next fun _ _ => vcAuth_blind.next fun _ tr => .ok ⟨tr, rfl⟩

/-! ### The pipelines -/

theorem stageReceivePlain_blind : Agree AlikeSnd (stageReceivePlain h c) (stageReceivePlain h (c.retraced tr)) :=
  .after (r := c.len h) fun _ =>
    .ite (.after (r := c.ip4RdProto h _) fun _ => .ok ⟨rfl, tr, rfl⟩) (.raised _ _ ⟨tr, rfl⟩)

theorem stageGrowBuffer_blind {p : Plain} :
    Agree Alike (stageGrowBuffer h p c) (stageGrowBuffer h p (c.retraced tr)) :=
  growHead_blind.next fun _ _ => growTail_blind.next fun _ tr => .ok ⟨tr, rfl⟩

theorem stageStampOuterHeader_blind {p : Plain} :
    Agree Alike (stageStampOuterHeader h p c) (stageStampOuterHeader h p (c.retraced tr)) :=
  ip4Write_blind.next fun _ _ => ip4Write_blind.next fun _ _ => ip4Write_blind.next fun _ _ =>
    ip4Write_blind.next fun _ _ => ip4Write_blind.next fun _ tr => .ok ⟨tr, rfl⟩

theorem stageStampEsp_blind {iv : List Byte} {p : Plain} :
    Agree Alike (stageStampEsp h iv p c) (stageStampEsp h iv p (c.retraced tr)) :=
  .after (r := c.hdrView h _) fun _ => memWrite_blind.next fun _ _ => memWrite_blind.next fun _ _ =>
    memWrite_blind.next fun c _ => .after (r := c.trlView h _) fun _ => memWrite_blind.next fun _ _ =>
      memWrite_blind.next fun _ tr => .ok ⟨tr, rfl⟩

theorem stageAccumulate_blind {p : Plain} :
    Agree Alike (stageAccumulate h p c) (stageAccumulate h p (c.retraced tr)) :=
  vcReg_blind.next fun _ tr => .ite (vcFlush_blind (tr := tr)) (.ok ⟨tr, rfl⟩)

theorem finishOk_alike (p : Pipeline) (h : Handle) (c : Ctx) (tr : List Event) :
    Alike (finishOk p h c) (finishOk p h (c.retraced tr)) := by
  cases p <;> exact ⟨tr, rfl⟩

theorem encapsulate_blind {iv : List Byte} : Agree Alike (c.encapsulate h iv) ((c.retraced tr).encapsulate h iv) :=
  (stageReceivePlain_blind (tr := tr)).nextSnd fun _ _ _ => stageGrowBuffer_blind.next fun _ _ =>
    stageStampOuterHeader_blind.next fun _ _ => stageStampEsp_blind.next fun _ _ =>
      stageAccumulate_blind.next fun c tr => .ok (finishOk_alike _ h c tr)

theorem stageReceiveEsp_blind : Agree AlikeSnd (stageReceiveEsp h c) (stageReceiveEsp h (c.retraced tr)) :=
  .after (r := c.len h) fun _ => .ite (.raised _ _ ⟨tr, rfl⟩) (.after (r := c.hdrView h _) fun _ =>
    .after (r := c.trlView h _) fun _ => .ok ⟨rfl, tr, rfl⟩)

theorem stageLookupSa_blind {v : EspViews} : Agree Alike (stageLookupSa h v c) (stageLookupSa h v (c.retraced tr)) :=
  .after (r := c.hdrRdSpi v.hv) fun _ => .ite (.ok ⟨tr, rfl⟩) (.raised _ _ ⟨tr, rfl⟩)

theorem stageVerifyMac_blind {v : EspViews} :
    Agree Alike (stageVerifyMac h v c) (stageVerifyMac h v (c.retraced tr)) :=
  scAuth_blind.nextSnd fun _ c tr => .after (r := c.trlRdAuth v.tv) fun _ =>
    .ite (.ok ⟨tr, rfl⟩) (.raised _ _ ⟨tr, rfl⟩)

theorem stageDecrypt_blind {v : EspViews} : Agree Alike (stageDecrypt h v c) (stageDecrypt h v (c.retraced tr)) :=
  .ite (.after (r := c.hdrRdIv v.hv) fun _ => scDec_blind.next fun _ tr => .ok ⟨tr, rfl⟩) (.raised _ _ ⟨tr, rfl⟩)

theorem stageStripHeaders_blind {v : EspViews} :
    Agree Alike (stageStripHeaders h v c) (stageStripHeaders h v (c.retraced tr)) :=
  .after (r := c.trlRdPadlen v.tv) fun _ => .ite (shrinkHead_blind.next fun _ _ => shrinkTail_blind)
    (.raised _ _ ⟨tr, rfl⟩)

theorem decapsulate_blind : Agree Alike (c.decapsulate h) ((c.retraced tr).decapsulate h) :=
  (stageReceiveEsp_blind (tr := tr)).nextSnd fun _ _ _ => stageLookupSa_blind.next fun _ _ =>
    stageVerifyMac_blind.next fun _ _ => stageDecrypt_blind.next fun _ _ => stageStripHeaders_blind.next fun c tr =>
      .ok (finishOk_alike _ h c tr)

end Sys2Proof.Machine

/-! ### The operation map -/

namespace Sys2Proof.Machine

/-- A tuple with its `TRACE` emptied, as `State.untraced` does it to every tuple. -/
def Espc.untraced (x : Espc) : Espc := { x with trace := [] }

theorem Espc.eq_of_untraced {x y : Espc} (h : x.untraced = y.untraced) : y = { x with trace := y.trace } := by
  cases x; cases y
  simp only [Espc.untraced, Espc.mk.injEq] at h ⊢
  simp [h]

/-- Two tuples that are equal but for `TRACE`, or no tuple twice. -/
theorem Espc.cases_of_untraced {f g : Option Espc} (h : f.map Espc.untraced = g.map Espc.untraced) :
    (f = none ∧ g = none) ∨ ∃ x tr, f = some x ∧ g = some { x with trace := tr } := by
  cases f with
  | none => exact .inl ⟨rfl, Option.map_eq_none_iff.mp h.symm⟩
  | some x =>
    obtain ⟨y, rfl, hy⟩ := Option.map_eq_some_iff.mp h.symm
    exact .inr ⟨x, y.trace, rfl, congrArg some (Espc.eq_of_untraced hy.symm)⟩

/-- The two runs may copy from tuples that differ in `TRACE`: `CLONE` copies no trace. -/
theorem clone_blind {c : Ctx} {tr : List Event} {f g : Option Espc}
    (hfg : f.map Espc.untraced = g.map Espc.untraced) :
    Agree Alike (c.clone f) ((c.retraced tr).clone g) := by
  obtain ⟨rfl, rfl⟩ | ⟨y, tr', rfl, rfl⟩ := Espc.cases_of_untraced hfg
  · exact .refused _
  · exact .ite (.ok ⟨[], rfl⟩) (.refused _)

theorem init_blind {c : Ctx} {tr : List Event} {k a : List Byte} {src dst : U32} {ok : Bool} :
    Agree Alike (c.init k a src dst ok) ((c.retraced tr).init k a src dst ok) := by
  have hsame : (c.retraced tr).inst.phase = c.inst.phase := rfl
  simp only [Ctx.init, hsame]
  split
  · split
    · exact .ok ⟨[], rfl⟩
    · exact .ok ⟨tr, rfl⟩
  · exact .refused _

/-- An operation that looks at anything but `TRACE` and answers. -/
theorem answering_blind {α : Type} {val : α → Value} {r : Except Stop α} {c : Ctx} {tr : List Event} :
    Agree Alike (r >>= fun v => .ok (c.answered (val v))) (r >>= fun v => .ok ((c.retraced tr).answered (val v))) :=
  .after fun _ => .ok ⟨tr, rfl⟩

theorem answered_alike {c : Ctx} {tr : List Event} {v : Value} : Agree Alike (.ok (c.answered v))
    (.ok ((c.retraced tr).answered v)) :=
  .ok ⟨tr, rfl⟩

/-- Every operation is blind to `TRACE`. -/
theorem body_blind {f g : Nat → Option Espc} (hfg : ∀ w, (f w).map Espc.untraced = (g w).map Espc.untraced)
    (i : Instr) (c : Ctx) (tr : List Event) : Agree Alike (body f i c) (body g i (c.retraced tr)) := by
  cases i with
  | init k a src dst ok => exact init_blind
  | clone w' => exact clone_blind (hfg w')
  | destroy => exact .after (r := c.requireReady) fun _ => .ok ⟨tr, rfl⟩
  | hdrView h off => exact answering_blind (r := c.hdrView h off)
  | trlView h off => exact answering_blind (r := c.trlView h off)
  | hdrRdSpi v => exact answering_blind (r := c.hdrRdSpi v)
  | hdrRdSeq v => exact answering_blind (r := c.hdrRdSeq v)
  | hdrRdIv v => exact answering_blind (r := c.hdrRdIv v)
  | trlRdPadlen v => exact answering_blind (r := c.trlRdPadlen v)
  | trlRdNext v => exact answering_blind (r := c.trlRdNext v)
  | trlRdAuth v => exact answering_blind (r := c.trlRdAuth v)
  | bufRange h off n => exact answering_blind (r := c.byteRangeAt h off n)
  | bufLen h => exact answering_blind (r := c.len h)
  | ip4RdVihl h base => exact answering_blind (r := c.ip4RdVihl h base)
  | ip4RdTotlen h base => exact answering_blind (r := c.ip4RdTotlen h base)
  | ip4RdProto h base => exact answering_blind (r := c.ip4RdProto h base)
  | ip4RdSrc h base => exact answering_blind (r := c.ip4RdSrc h base)
  | ip4RdDst h base => exact answering_blind (r := c.ip4RdDst h base)
  | hdrWrSpi v x | hdrWrSeq v x | trlWrPadlen v x | trlWrNext v x => exact memWrite_blind
  | hdrWrIv v b | trlWrAuth v b => exact .after fun _ => memWrite_blind
  | ip4WrVihl h base v | ip4WrTotlen h base v | ip4WrProto h base v | ip4WrSrc h base v | ip4WrDst h base v =>
    exact ip4Write_blind
  | bufGrowHead h n => exact growHead_blind
  | bufGrowTail h n => exact growTail_blind
  | bufShrinkHead h n => exact shrinkHead_blind
  | bufShrinkTail h n => exact shrinkTail_blind
  | scEnc iv d => exact .after fun _ => .after (r := c.requireReady) fun _ => scEnc_blind
  | scDec iv d => exact .after fun _ => .after (r := c.requireReady) fun _ => scDec_blind
  | scAuth d => exact .after (r := c.requireReady) fun _ => scAuth_blind.nextSnd fun _ _ _ => answered_alike
  | vcReg sl => exact .after (r := c.requireReady) fun _ => vcReg_blind
  | vcEncrypt n => exact .after (r := c.requireReady) fun _ => vcEncrypt_blind
  | vcAuth n => exact .after (r := c.requireReady) fun _ => vcAuth_blind
  | vcFlush => exact .after (r := c.requireReady) fun _ => vcFlush_blind
  | mbEnc key ivs xs => exact .after fun _ => mbEnc_blind.nextSnd fun _ _ _ => answered_alike
  | mbHmac key lanes => exact .after fun _ => mbHmac_blind.nextSnd fun _ _ _ => answered_alike
  | encPush h iv =>
    exact .after fun _ => .after (r := c.requireReady) fun _ => .after (r := c.buffer h) fun _ =>
      .after (r := c.requireNotInFlight h) fun _ => encapsulate_blind
  | encEnd => exact .after (r := c.requireReady) fun _ => .ite vcFlush_blind (.ok ⟨tr, rfl⟩)
  | dec h =>
    exact .after (r := c.requireReady) fun _ => .after (r := c.buffer h) fun _ =>
      .after (r := c.requireNotInFlight h) fun _ => decapsulate_blind

/-! ### From the body to the outcome -/

theorem takeDrop_alike (p : Pipeline) (e : DropReason) (h : Handle) (c : Ctx) (tr : List Event) :
    Alike (takeDrop p e h c) (takeDrop p e h (c.retraced tr)) := by
  cases p <;> exact ⟨tr, rfl⟩

theorem State.untraced_inj {s t : State} (h : s.untraced = t.untraced) :
    s.workers.map Espc.untraced = t.workers.map Espc.untraced ∧ s.mem = t.mem ∧ s.active = t.active ∧
      s.inputs = t.inputs :=
  State.mk.inj h

theorem withCtx_untraced {s t : State} {c d : Ctx} (hst : s.untraced = t.untraced) (hcd : Alike c d) :
    (s.withCtx c).untraced = (t.withCtx d).untraced := by
  obtain ⟨tr, rfl⟩ := hcd
  obtain ⟨hworkers, -, hactive, hinputs⟩ := State.untraced_inj hst
  have hset : (s.workers.set s.active c.inst).map Espc.untraced
      = (t.workers.set t.active (c.retraced tr).inst).map Espc.untraced := by
    rw [List.map_set, List.map_set, hworkers, hactive]; rfl
  calc (s.withCtx c).untraced
      = ⟨(s.workers.set s.active c.inst).map Espc.untraced, c.mem, s.active, s.inputs⟩ := rfl
    _ = ⟨(t.workers.set t.active (c.retraced tr).inst).map Espc.untraced, c.mem, t.active, t.inputs⟩ := by
        rw [hset, hactive, hinputs]
    _ = (t.withCtx (c.retraced tr)).untraced := rfl

theorem conclude_sameButTrace {p : Pipeline} {s t : State} {r r' : Except Stop Ctx} (hst : s.untraced = t.untraced)
    (hr : Agree Alike r r') : SameButTrace (conclude p s r) (conclude p t r') := by
  cases hr with
  | ok hcd => exact withCtx_untraced hst hcd
  | raised e h hcd =>
    obtain ⟨tr, rfl⟩ := hcd
    exact withCtx_untraced hst (takeDrop_alike p e h _ tr)
  | fault f => rfl
  | refused r => rfl

theorem getElem?_untraced {s t : State} (hst : s.untraced = t.untraced) (w : Nat) :
    (s.workers[w]?).map Espc.untraced = (t.workers[w]?).map Espc.untraced := by
  rw [← List.getElem?_map, (State.untraced_inj hst).1, List.getElem?_map]

/-- Settles O60: every body is blind to `TRACE`, and the outcome adds the untouched rest of the state. -/
theorem traceChangesNoResult : Obligations.TraceChangesNoResult := by
  intro i s t hst
  obtain ⟨-, hmem, hactive, -⟩ := State.untraced_inj hst
  have htuples : s.tuple?.map Espc.untraced = t.tuple?.map Espc.untraced := by
    simpa only [State.tuple?, hactive] using getElem?_untraced hst t.active
  obtain ⟨hx, hy⟩ | ⟨x, tr, hx, hy⟩ := Espc.cases_of_untraced htuples
  · rw [exec_eq_runOn, exec_eq_runOn, runOn_of_noTuple hx, runOn_of_noTuple hy]
    rfl
  · rw [exec_eq_conclude hx, exec_eq_conclude hy, ← hmem, ← hactive]
    exact conclude_sameButTrace hst (body_blind (getElem?_untraced hst) i ⟨x, s.mem, s.active⟩ tr)

end Sys2Proof.Machine

/-! ## A flush completes whenever the views of its slots lie in their packets

`vcFlush_eq` says what the flush makes of a batch of distinct packets. That it completes needs no distinctness: no
write of a flush changes the length of a packet, so every later access is inside its packet too. -/

namespace Sys2Proof.Machine

/-- Every slot can be flushed by itself: its views lie in its packet, and its ciphertext region is whole blocks. -/
def Flushable (m : Memory) (sls : List Slot) : Prop := ∀ sl ∈ sls, Fits m sl ∧ sl.ctLen % 16 = 0

/-- Packet `g` is as long as before. -/
def SameLength (m m' : Memory) (g : Handle) : Prop := (m'.get g).map List.length = (m.get g).map List.length

theorem SameLength.get {m m' : Memory} {g : Handle} {b : List Byte} (h : SameLength m m' g)
    (hb : m.get g = some b) :
    ∃ b', m'.get g = some b' ∧ b'.length = b.length := by
  rw [SameLength, hb] at h
  exact Option.map_eq_some_iff.mp h

theorem RegionFits.kept {m m' : Memory} {r : Region} (hr : RegionFits m r) (h : SameLength m m' r.h) :
    RegionFits m' r := by
  obtain ⟨b, hb, hn⟩ := hr
  obtain ⟨b', hb', hlen⟩ := h.get hb
  exact ⟨b', hb', hlen ▸ hn⟩

theorem Fits.kept {m m' : Memory} {sl : Slot} (hsl : Fits m sl) (h : SameLength m m' sl.pkt) : Fits m' sl := by
  obtain ⟨b, hb, hviews⟩ := hsl
  obtain ⟨b', hb', hlen⟩ := h.get hb
  exact ⟨b', hb', hlen ▸ hviews⟩

theorem Fits.ct {m : Memory} {sl : Slot} (h : Fits m sl) : RegionFits m sl.ct :=
  let ⟨b, hb, hct, _⟩ := h; ⟨b, hb, hct⟩

theorem Fits.iv {m : Memory} {sl : Slot} (h : Fits m sl) : RegionFits m sl.iv :=
  let ⟨b, hb, _, hiv, _⟩ := h; ⟨b, hb, hiv⟩

theorem Fits.au {m : Memory} {sl : Slot} (h : Fits m sl) : RegionFits m sl.au :=
  let ⟨b, hb, _, _, hau, _⟩ := h; ⟨b, hb, hau⟩

/-- The licence to overwrite bytes in place, wherever they are. -/
def Licence.inPlace (batch : Prop) : Licence := ⟨.none, batch, fun _ => False, fun _ => False, fun _ _ => True⟩

theorem Licence.inPlace_covers (batch : Prop) (h : Handle) (off n : Nat) : (Licence.inPlace batch).Covers h off n :=
  .inr fun _ _ _ => trivial

theorem Moves.sameLength {L : Licence} {c d : Ctx} (h : Moves L c d) {g : Handle} (hg : ¬ L.resize g) :
    SameLength c.mem d.mem g := h.length_kept hg

/-- A computation that completes, within a licence. -/
theorem Within.of_ok {L : Licence} {c d : Ctx} {r : Except Stop Ctx} (hr : Within L c r) (hd : r = .ok d) :
    Moves L c d :=
  Post.of_ok hr hd

/-- The first operation completes, and so does what follows. -/
theorem bind_completes {α : Type} {r : Except Stop α} {a : α} {f : α → Except Stop Ctx} (hr : r = .ok a)
    (hf : ∃ d, f a = .ok d) : ∃ d, (r >>= f) = .ok d := by
  subst hr; exact hf

theorem regionBytes_length {m : Memory} {r : Region} (h : RegionFits m r) : (regionBytes m r).length = r.n := by
  obtain ⟨b, hb, hn⟩ := h
  simp [regionBytes, hb, slice_length b _ _ hn]

theorem writeAll_completes (c : Ctx) (l : List (Region × List Byte))
    (hfit : ∀ p ∈ l, RegionFits c.mem ⟨p.1.h, p.1.off, p.2.length⟩) : ∃ d, c.writeAll l = .ok d := by
  induction l generalizing c with
  | nil => exact ⟨c, rfl⟩
  | cons p t ih =>
    obtain ⟨b, hb, hn⟩ := hfit p List.mem_cons_self
    have hw := memWrite_eq hb hn
    have hmoves := (memWrite_within (Licence.inPlace_covers False p.1.h p.1.off p.2.length)).of_ok hw
    obtain ⟨d, hd⟩ := ih _ fun q hq => (hfit q (List.mem_cons_of_mem _ hq)).kept (hmoves.sameLength not_false)
    exact ⟨d, bind_of_ok hw hd⟩

theorem scEncAll_completes (c : Ctx) (l : List (Slot × List Byte))
    (hfit : ∀ p ∈ l, RegionFits c.mem p.1.ct ∧ p.1.ctLen % 16 = 0) : ∃ d, c.scEncAll l = .ok d := by
  induction l generalizing c with
  | nil => exact ⟨c, rfl⟩
  | cons p t ih =>
    obtain ⟨⟨b, hb, hn⟩, hblocks⟩ := hfit p List.mem_cons_self
    have he := scEnc_eq (iv := p.2) (d := p.1.ct) hb hblocks hn
    have hmoves := (scEnc_within (Licence.inPlace_covers False p.1.ct.h p.1.ct.off p.1.ct.n)).of_ok he
    obtain ⟨d, hd⟩ := ih _ fun q hq => by
      obtain ⟨hregion, hblocks'⟩ := hfit q (List.mem_cons_of_mem _ hq)
      exact ⟨hregion.kept (hmoves.sameLength not_false), hblocks'⟩
    exact ⟨d, bind_of_ok he hd⟩

/-- The flush once both its parts have completed. -/
theorem vcFlush_of_ok {c e a : Ctx} (he : c.vcEncrypt c.inst.count = .ok e) (ha : e.vcAuth c.inst.count = .ok a) :
    c.vcFlush = .ok { a.emitted (a.inst.batch.map Slot.pkt) with
      inst := { (a.emitted (a.inst.batch.map Slot.pkt)).inst with count := 0 } } :=
  bind_of_ok he (bind_of_ok ha rfl)

section Batch

variable {c : Ctx} (hcount : c.inst.count ≤ 8) (hfit : Flushable c.mem c.inst.batch)
include hcount hfit

theorem vcEncrypt_completes : ∃ d, c.vcEncrypt c.inst.count = .ok d := by
  have hlen := batch_length c.inst hcount
  have hct : ∀ r ∈ c.inst.batch.map Slot.ct, RegionFits c.mem r :=
    List.forall_mem_map.mpr fun sl hsl => (hfit sl hsl).1.ct
  have hiv : ∀ r ∈ c.inst.batch.map Slot.iv, RegionFits c.mem r :=
    List.forall_mem_map.mpr fun sl hsl => (hfit sl hsl).1.iv
  unfold Ctx.vcEncrypt
  split
  · exact ⟨c, rfl⟩
  · refine bind_completes (a := ()) (by simp [hcount]) (bind_completes (readSlots_batch c) ?_)
    refine bind_completes (readAll_eq c _ hiv) ?_
    split
    · next h8 =>
      have hxs := readAll_eq c _ hct
      have hblocks : ((c.inst.batch.map Slot.ct).map (regionBytes c.mem)).all isBlocks = true := by
        rw [List.map_map, List.all_map, List.all_eq_true]
        intro sl hsl
        have hlane := regionBytes_length (hct _ (List.mem_map_of_mem hsl))
        exact beq_iff_eq.mpr ((congrArg (· % 16) hlane).trans (hfit sl hsl).2)
      refine bind_completes hxs (bind_completes (mbEnc_eq (by simp [hlen, h8]) (by simp [hlen, h8]) hblocks) ?_)
      refine writeAll_completes _ _ fun p hp => ?_
      obtain ⟨hreg, hpn⟩ := mem_zip_lanes ((readAll_post c _).of_ok hxs) hp
      rw [hpn]
      exact hct _ hreg
    · refine scEncAll_completes c _ fun p hp => ?_
      have hsl := (List.of_mem_zip hp).1
      exact ⟨(hfit _ hsl).1.ct, (hfit _ hsl).2⟩

theorem slotDigests_eq : ∃ ds d, c.slotDigests c.inst.count c.inst.batch = .ok (ds, d) ∧ d.mem = c.mem := by
  have hau : ∀ sl ∈ c.inst.batch, RegionFits c.mem sl.au := fun sl hsl => (hfit sl hsl).1.au
  unfold Ctx.slotDigests
  split
  · next h8 =>
    exact ⟨_, _, bind_of_ok (readAll_eq c _ (List.forall_mem_map.mpr hau))
      (mbHmac_eq (by simp [batch_length c.inst hcount, h8])), rfl⟩
  · exact ⟨_, _, scAuthAll_eq c _ hau, rfl⟩

theorem vcAuth_completes : ∃ d, c.vcAuth c.inst.count = .ok d := by
  by_cases h0 : c.inst.count = 0
  · rw [h0]; exact ⟨c, rfl⟩
  · rw [vcAuth_eq_slotDigests c h0]
    obtain ⟨ds, d, hds, hmem⟩ := slotDigests_eq hcount hfit
    refine bind_completes (a := ()) (by simp [hcount]) (bind_completes (readSlots_batch c) (bind_completes hds ?_))
    refine writeAll_completes d _ fun p hp => ?_
    obtain ⟨hreg, hdig⟩ := List.of_mem_zip hp
    obtain ⟨sl, hsl, hp1⟩ := List.mem_map.mp hreg
    obtain ⟨b, hb, -, -, -, hn⟩ := (hfit sl hsl).1
    have hv := mem_truncated hdig
    rw [← hp1, hmem]
    exact ⟨b, hb, le_trans (Nat.add_le_add_left hv _) hn⟩

/-- The flush completes, empties the batch, and leaves every packet as long as it was. -/
theorem vcFlush_completes :
    ∃ d, c.vcFlush = .ok d ∧ d.inst.count = 0 ∧ ∀ g, SameLength c.mem d.mem g := by
  obtain ⟨e, he⟩ := vcEncrypt_completes hcount hfit
  have hmoves := (vcEncrypt_within (L := .inPlace False) fun _ _ => Licence.inPlace_covers _ _ _ _).of_ok he
  obtain ⟨hcount', hslots⟩ := hmoves.batch_kept not_false
  have hbatch : e.inst.batch = c.inst.batch := by rw [Espc.batch, hcount', hslots, Espc.batch]
  obtain ⟨a, ha⟩ := vcAuth_completes (c := e) (hcount' ▸ hcount) fun sl hsl => by
    rw [hbatch] at hsl
    exact ⟨(hfit sl hsl).1.kept (hmoves.sameLength not_false), (hfit sl hsl).2⟩
  rw [hcount'] at ha
  have hflush := vcFlush_of_ok he ha
  exact ⟨_, hflush, rfl, fun g => ((vcFlush_within (L := .inPlace True) trivial fun _ _ =>
    ⟨Licence.inPlace_covers _ _ _ _, Licence.inPlace_covers _ _ _ _⟩).of_ok hflush).sameLength not_false⟩

end Batch

end Sys2Proof.Machine

/-! ## A dutiful host never meets a model-level fault -/

namespace Sys2Proof.Machine

/-- What the host's invariant says of the tuple of one command: room for one more slot, and every slot in its
packet. -/
def Roomy (c : Ctx) : Prop := c.inst.count ≤ 7 ∧ ∀ sl ∈ c.inst.batch, Fits c.mem sl

/-- The computation ends in no fault, and `Q` holds of the context it leaves, whether it completes or raises a
drop. -/
def Sound (Q : Ctx → Prop) : Except Stop Ctx → Prop
  | .ok c => Q c
  | .error (.raised _ _ c) => Q c
  | .error (.fault _) => False
  | .error (.refused _) => True

section Sound

variable {α : Type} {Q : Ctx → Prop} {r : Except Stop α} {f : α → Except Stop Ctx}

theorem Sound.bind_ok {a : α} (hr : r = .ok a) (hf : Sound Q (f a)) : Sound Q (r >>= f) := by
  subst hr; exact hf

theorem Sound.bind_raised {e : DropReason} {h : Handle} {c : Ctx} (hr : r = .error (.raised e h c)) (hc : Q c) :
    Sound Q (r >>= f) := by
  subst hr; exact hc

theorem Sound.bind_refused {e : Refusal} (hr : r = .error (.refused e)) : Sound Q (r >>= f) := by
  subst hr; trivial

theorem Sound.of_ok {r : Except Stop Ctx} {c : Ctx} (hr : r = .ok c) (hc : Q c) : Sound Q r := by
  subst hr; exact hc

/-- A check that is passed or refuses. -/
theorem Sound.ready {c : Ctx} {f : Unit → Except Stop Ctx} (hf : c.inst.phase = .ready → Sound Q (f ())) :
    Sound Q (c.requireReady >>= f) := by
  by_cases hphase : c.inst.phase = .ready
  · exact .bind_ok (requireReady_eq hphase) (hf hphase)
  · exact .bind_refused (requireReady_refused hphase)

theorem Sound.operand {b : Bool} {f : Unit → Except Stop Ctx} (hf : b = true → Sound Q (f ())) :
    Sound Q (requireOperand b >>= f) := by
  cases b with
  | false => trivial
  | true => exact hf rfl

theorem Sound.buffer {c : Ctx} {h : Handle} {f : List Byte → Except Stop Ctx}
    (hf : ∀ b, c.mem.get h = some b → Sound Q (f b)) : Sound Q (c.buffer h >>= f) := by
  cases hb : c.mem.get h with
  | none => exact .bind_refused (buffer_refused hb)
  | some b => exact .bind_ok (buffer_eq hb) (hf b hb)

theorem Sound.notInFlight {c : Ctx} {h : Handle} {f : Unit → Except Stop Ctx}
    (hf : c.inst.inFlight h = false → Sound Q (f ())) : Sound Q (c.requireNotInFlight h >>= f) := by
  cases hfl : c.inst.inFlight h with
  | false => exact .bind_ok (requireNotInFlight_eq hfl) (hf hfl)
  | true => exact .bind_refused (requireNotInFlight_refused hfl)

end Sound

theorem roomy_of_empty {c : Ctx} (h : c.inst.count = 0) : Roomy c :=
  ⟨by omega, fun sl hsl => by simp [Espc.batch, h] at hsl⟩

/-! ### Encapsulation -/

/-- An ineligible packet is dropped before anything is written (42_encapsulation.md R182). -/
theorem stageReceivePlain_short {c : Ctx} {h : Handle} {b : List Byte} (hb : c.mem.get h = some b)
    (hshort : ¬ (34 ≤ b.length ∧ grownLength (b.length - 14) ≤ Config.maxLen)) :
    stageReceivePlain h c = .error (.raised .shortBuffer h c) := by
  have hnot : ¬ eligible b.length = true := by simpa [eligible, longEnough] using hshort
  exact bind_of_ok (len_eq hb) (if_neg hnot)

variable {c : Ctx} {h : Handle} {b iv : List Byte}

theorem flushable_of_roomy (hroom : Roomy c) (hinv : CtxInv c) : Flushable c.mem c.inst.batch :=
  fun sl hsl => ⟨hroom.2 sl hsl, hinv.blocks sl hsl⟩

theorem vcFlush_sound (hcount : c.inst.count ≤ 8) (hfit : Flushable c.mem c.inst.batch) : Sound Roomy c.vcFlush := by
  obtain ⟨d, hd, hempty, -⟩ := vcFlush_completes hcount hfit
  exact .of_ok hd (roomy_of_empty hempty)

/-- Registering a slot that can be flushed, and flushing if the batch is then full. -/
theorem stageAccumulate_sound {p : Plain} (hcount : c.inst.count ≤ 7)
    (hfit : Flushable c.mem (c.inst.batch ++ [slotOf h (grownLength p.len)])) :
    Sound Roomy (stageAccumulate h p c >>= fun c => .ok (finishOk .encap h c)) := by
  have hreg := vcReg_eq (c := c) (by omega) (slotOf_blocks h p.len)
  have hbatch := batch_register c.inst (slotOf h (grownLength p.len)) (by omega)
  by_cases hfull : c.inst.count + 1 = 8
  · obtain ⟨d, hd, hempty, -⟩ := vcFlush_completes (c := Ctx.setEnc { c with inst := { c.inst with
      slots := c.inst.slots.setIfInBounds c.inst.count (slotOf h (grownLength p.len)), count := c.inst.count + 1 } }
        .flushVector) (Nat.le_of_eq hfull) (hbatch ▸ hfit)
    refine .bind_ok (bind_of_ok hreg ((if_pos ?_).trans hd)) (roomy_of_empty hempty)
    simpa [batchFull] using hfull
  · refine .bind_ok (bind_of_ok hreg (if_neg ?_)) ⟨?_, fun sl hsl => ?_⟩
    · simpa [batchFull] using hfull
    · show c.inst.count + 1 ≤ 7
      omega
    · exact (hfit sl (hbatch ▸ hsl)).1

/-- One more packet in the batch: the old slots are in other packets, and the new one in its frame. -/
theorem flushable_push {x : Espc} {f : Nat → Byte} {m : Memory} {sls : List Slot} (hfit : Flushable m sls)
    (hne : ∀ sl ∈ sls, sl.pkt ≠ h) (hiv : iv.length = 16) (h34 : 34 ≤ b.length) :
    Flushable (m.put h (inFlightFrame x f iv b)) (sls ++ [slotOf h (grownLength (b.length - 14))]) := by
  intro sl hsl
  obtain hsl | hsl := List.mem_append.mp hsl
  · have hsame : SameLength m (m.put h (inFlightFrame x f iv b)) sl.pkt :=
      congrArg _ (Memory.get_put_other _ _ _ _ (hne sl hsl))
    exact ⟨(hfit sl hsl).1.kept hsame, (hfit sl hsl).2⟩
  · rw [List.mem_singleton.mp hsl]
    exact ⟨fits_slotOf m hiv h34, slotOf_blocks h _⟩

theorem encapsulate_sound (hroom : Roomy c) (hinv : CtxInv c) (hb : c.mem.get h = some b) (hiv : iv.length = 16)
    (hfl : c.inst.inFlight h = false) : Sound Roomy (c.encapsulate h iv) := by
  by_cases heli : 34 ≤ b.length ∧ grownLength (b.length - 14) ≤ Config.maxLen
  · obtain ⟨h34, hmax⟩ := heli
    rw [encapsulate_eq hb hiv h34 hmax]
    exact stageAccumulate_sound hroom.1
      (flushable_push (flushable_of_roomy hroom hinv) (notInFlight_ne hfl) hiv h34)
  · exact .bind_raised (stageReceivePlain_short (c := c.setEnc .receivePlain) hb heli) hroom

/-! ### Decapsulation -/

/-- The last stage of `DEC`, on the decrypted frame, drops the packet or completes. -/
theorem stripHeaders_sound {q : List Byte} {hv : View} (hl : 72 ≤ b.length) (hq : q.length = b.length - 70)
    (hb : c.mem.get h = some (splice b 58 q)) :
    Sound (fun _ => True) (stageStripHeaders h ⟨hv, ⟨h, b.length - 14⟩, b.length⟩ c >>= fun c =>
      .ok (finishOk .decap h c)) := by
  by_cases hpad : (q.getD (b.length - 72) 0).toNat + 2 ≤ b.length - 70
  · exact .bind_ok (stageStripHeaders_eq hl hq hb hpad) trivial
  · exact .bind_raised (stageStripHeaders_raised hl hq hb (Nat.lt_of_not_le hpad)) trivial

/-- The last two stages of `DEC`. -/
theorem decrypt_sound (hb : c.mem.get h = some b) (hl : 72 ≤ b.length) :
    Sound (fun _ => True) (stageDecrypt h ⟨⟨h, 34⟩, ⟨h, b.length - 14⟩, b.length⟩ c >>= fun c =>
      stageStripHeaders h ⟨⟨h, 34⟩, ⟨h, b.length - 14⟩, b.length⟩ c >>= fun c => .ok (finishOk .decap h c)) := by
  by_cases h16 : (b.length - 70) % 16 = 0
  · exact .bind_ok (stageDecrypt_eq hb hl h16)
      (stripHeaders_sound hl (espPlain_length c.inst b hl) (Memory.get_put_same c.mem h _))
  · exact .bind_raised (stageDecrypt_raised h16) trivial

/-- The last three stages of `DEC`. -/
theorem verifyMac_sound (hb : c.mem.get h = some b) (hl : 72 ≤ b.length) :
    Sound (fun _ => True) (stageVerifyMac h ⟨⟨h, 34⟩, ⟨h, b.length - 14⟩, b.length⟩ c >>= fun c =>
      stageDecrypt h ⟨⟨h, 34⟩, ⟨h, b.length - 14⟩, b.length⟩ c >>= fun c =>
        stageStripHeaders h ⟨⟨h, 34⟩, ⟨h, b.length - 14⟩, b.length⟩ c >>= fun c => .ok (finishOk .decap h c)) := by
  by_cases hmac : espMacOk c.inst b
  · exact .bind_ok (stageVerifyMac_eq hb hl hmac) (decrypt_sound (c := (c.traced (.scAuth h)).setDec .decrypt) hb hl)
  · exact .bind_raised (stageVerifyMac_raised hb hl hmac) trivial

/-- `DEC` of a packet in the store ends in one of its five drops or completes (43_decapsulation.md R212 to R221). -/
theorem decapsulate_sound (hb : c.mem.get h = some b) : Sound (fun _ => True) (c.decapsulate h) := by
  by_cases hl : 72 ≤ b.length
  · refine .bind_ok (stageReceiveEsp_eq (c := c.setDec .receiveEsp) hb hl) ?_
    by_cases hspi : be32 (slice b 34 4) = c.inst.saId
    · exact .bind_ok (stageLookupSa_eq hb hl hspi)
        (verifyMac_sound (c := (c.setDec .lookupSa).setDec .verifyMac) hb hl)
    · exact .bind_raised (stageLookupSa_raised hb hl hspi) trivial
  · exact .bind_raised (stageReceiveEsp_short (c := c.setDec .receiveEsp) hb (Nat.lt_of_not_le hl)) trivial

/-! ### The six host commands -/

/-- What a computation does beside stopping without a fault. -/
theorem Sound.and_post {Q Q' : Ctx → Prop} {r : Except Stop Ctx} (hr : Sound Q r)
    (hr' : Post Q' (fun _ _ d => Q' d) r) :
    Sound (fun d => Q d ∧ Q' d) r := by
  match r, hr, hr' with
  | .ok _, hr, hr' => exact ⟨hr, hr'⟩
  | .error (.raised _ _ _), hr, hr' => exact ⟨hr, hr'⟩
  | .error (.refused _), _, _ => trivial

theorem Sound.mono {Q Q' : Ctx → Prop} {r : Except Stop Ctx} (hr : Sound Q r) (hQ : ∀ d, Q d → Q' d) :
    Sound Q' r := by
  match r, hr with
  | .ok _, hr => exact hQ _ hr
  | .error (.raised _ _ _), hr => exact hQ _ hr
  | .error (.refused _), _ => trivial

/-- The licence of a host command: it may change the packets it names, write into others, and change the batch. -/
def hostLicence (i : Instr) : Licence := ⟨pipelineOf i, True, fun _ => True, (· ∈ hostPackets i), fun _ _ => True⟩

theorem hostLicence_covers (i : Instr) (g : Handle) (off n : Nat) : (hostLicence i).Covers g off n :=
  .inr fun _ _ _ => trivial

theorem dec_within : Within (hostLicence (.dec h)).frozen c (c.decapsulate h) :=
  decapsulate_within rfl (List.mem_singleton_self h)

theorem host_within {source : Nat → Option Espc} {i : Instr} (hi : i.cls = .H) :
    Within (hostLicence i) c (body source i c) := by
  obtain ⟨k, a, src, dst, ok, rfl⟩ | ⟨w', rfl⟩ | rfl | ⟨g, iv, rfl⟩ | rfl | ⟨g, rfl⟩ := host_cases hi
  · exact init_within trivial trivial k a src dst ok
  · exact clone_within trivial fun _ _ _ => trivial
  · exact .after (requireReady_post c) fun _ _ => Moves.refl c
  · exact .after (requireOperand_post _) fun _ _ => .after (requireReady_post c) fun _ _ =>
      .after (buffer_post c g) fun _ _ => .after (requireNotInFlight_post c g) fun _ _ =>
        encapsulate_within rfl (List.mem_singleton_self g) trivial iv
          fun _ _ => ⟨hostLicence_covers _ _ _ _, hostLicence_covers _ _ _ _⟩
  · refine .after (requireReady_post c) fun _ _ => ?_
    split
    · exact vcFlush_within trivial fun _ _ => ⟨hostLicence_covers _ _ _ _, hostLicence_covers _ _ _ _⟩
    · exact Moves.refl c
  · exact .after (requireReady_post c) fun _ _ => .after (buffer_post c g) fun _ _ =>
      .after (requireNotInFlight_post c g) fun _ _ => Post.mono dec_within (fun _ hd => hd.unfreeze) fun _ _ _ hd =>
        hd.unfreeze

theorem init_sound {k a : List Byte} {src dst : U32} {ok : Bool} (hroom : Roomy c) :
    Sound Roomy (c.init k a src dst ok) := by
  unfold Ctx.init
  split
  · split
    · exact roomy_of_empty rfl
    · exact hroom
  · trivial

theorem clone_sound (source : Option Espc) : Sound Roomy (c.clone source) := by
  cases source with
  | none => trivial
  | some y =>
    simp only [Ctx.clone]
    split
    · exact roomy_of_empty rfl
    · trivial

/-- `DEC` leaves the batch alone, and its packet is no packet of the batch. -/
theorem dec_sound (hroom : Roomy c) (hb : c.mem.get h = some b) (hfl : c.inst.inFlight h = false) :
    Sound Roomy (c.decapsulate h) := by
  refine ((decapsulate_sound hb).and_post dec_within).mono fun d ⟨_, hd⟩ => ⟨?_, fun sl hsl => ?_⟩
  · rw [(hd.batch_kept not_false).1]
    exact hroom.1
  · rw [hd.frozen_batch] at hsl
    have hne : sl.pkt ∉ hostPackets (.dec h) := by simpa [hostPackets] using notInFlight_ne hfl sl hsl
    exact (hroom.2 sl hsl).kept (hd.sameLength hne)

/-- No host command ends in a fault, and each leaves its tuple with room for one more slot. -/
theorem host_sound {source : Nat → Option Espc} {i : Instr} (hi : i.cls = .H) (hroom : Roomy c) (hinv : CtxInv c) :
    Sound Roomy (body source i c) := by
  obtain ⟨k, a, src, dst, ok, rfl⟩ | ⟨w', rfl⟩ | rfl | ⟨g, iv, rfl⟩ | rfl | ⟨g, rfl⟩ := host_cases hi
  · exact init_sound hroom
  · exact clone_sound _
  · exact .ready fun _ => hroom
  · exact .operand fun hiv => .ready fun _ => .buffer fun b hb => .notInFlight fun hfl =>
      encapsulate_sound hroom hinv hb (beq_iff_eq.mp hiv) hfl
  · refine .ready fun _ => ?_
    split
    · exact vcFlush_sound hinv.count (flushable_of_roomy hroom hinv)
    · exact hroom
  · exact .ready fun _ => .buffer fun b hb => .notInFlight fun hfl => dec_sound hroom hb hfl

/-! ### The whole machine -/

theorem takeDrop_roomy {p : Pipeline} {e : DropReason} {k : Handle} {d : Ctx} (hd : Roomy d) :
    Roomy (takeDrop p e k d) := by
  cases p <;> exact hd

/-- A sound body makes a command that does not fault, and whose next state holds a context that `Q` holds of. -/
theorem exec_of_sound {i : Instr} {s : State} {x : Espc} {Q : Ctx → Prop} (hx : s.tuple? = some x)
    (hbody : Sound Q (body (fun w => s.workers[w]?) i ⟨x, s.mem, s.active⟩))
    (hdrop : ∀ e k d, Q d → Q (takeDrop (pipelineOf i) e k d)) :
    NoFault (exec i s) ∧ ∀ t, exec i s = .next t → ∃ d, t = s.withCtx d ∧ Q d := by
  rw [exec_eq_conclude hx]
  match body (fun w => s.workers[w]?) i ⟨x, s.mem, s.active⟩, hbody with
  | .ok d, hd => exact ⟨nofun, fun t ht => by cases ht; exact ⟨d, rfl, hd⟩⟩
  | .error (.raised e k d), hd => exact ⟨nofun, fun t ht => by cases ht; exact ⟨_, rfl, hdrop e k d hd⟩⟩
  | .error (.refused r), _ => exact ⟨nofun, nofun⟩

/-- A host command, no packet it names being in flight on another worker. -/
theorem host_exec {s : State} {i : Instr} (hs : HostInv s) (hi : i.cls = .H)
    (hduty : ∀ h ∈ hostPackets i, ∀ w x, w ≠ s.active → s.workers[w]? = some x → x.inFlight h = false) :
    NoFault (exec i s) ∧ ∀ t, exec i s = .next t → HostInv t := by
  obtain ⟨hinv, hhost⟩ := hs
  obtain ⟨hwf, hbounded, -, hok⟩ := id hinv
  cases hx : s.tuple? with
  | none =>
    rw [exec_eq_runOn, runOn_of_noTuple hx]
    exact ⟨nofun, nofun⟩
  | some x =>
    have hmem := List.mem_of_getElem? hx
    have hctx := ((Espc.ok_iff (c := ⟨x, s.mem, s.active⟩) hwf hbounded).mp (hok x hmem)).1
    have hsound := (host_sound (c := ⟨x, s.mem, s.active⟩) (source := fun w => s.workers[w]?) hi (hhost x hmem)
      hctx).and_post (host_within hi)
    obtain ⟨hnofault, hnext⟩ := exec_of_sound hx hsound
      fun e k d ⟨hroom, hd⟩ => ⟨takeDrop_roomy hroom, hd.trans (takeDrop_moves rfl e k d)⟩
    refine ⟨hnofault, fun t ht => ⟨exec_keepsInv hinv ht, fun y hy => ?_⟩⟩
    obtain ⟨d, rfl, hroom, hd⟩ := hnext t ht
    obtain ⟨w, hw⟩ := List.mem_iff_getElem?.mp hy
    by_cases hactive : w = s.active
    · subst hactive
      obtain rfl : d.inst = y := Option.some.inj ((State.withCtx_tuple? d s x hx).symm.trans hw)
      exact hroom
    · rw [State.withCtx_other d s w hactive] at hw
      obtain ⟨hcount, hfits⟩ := hhost y (List.mem_of_getElem? hw)
      exact ⟨hcount, fun sl hsl => (hfits sl hsl).kept (hd.sameLength fun hnamed =>
        notInFlight_ne (hduty _ hnamed w y hactive hw) sl hsl rfl)⟩

/-- The owner of a packet that is in flight nowhere changes no view of a slot. -/
theorem hostInv_of_store {s : State} {m : Memory} {rest : List Input} {k : Handle} (hs : HostInv s)
    (hinv : MachineInv { s with mem := m, inputs := rest }) (hfl : s.inFlightAnywhere k = false)
    (hm : ∀ g, g ≠ k → m.get g = s.mem.get g) : HostInv { s with mem := m, inputs := rest } := by
  refine ⟨hinv, fun x hx => ?_⟩
  obtain ⟨hcount, hfits⟩ := hs.2 x hx
  have hx' : x.inFlight k = false := by simpa using List.any_eq_false.mp hfl x hx
  exact ⟨hcount, fun sl hsl => (hfits sl hsl).kept (congrArg _ (hm sl.pkt (notInFlight_ne hx' sl hsl)))⟩

/-- A decoded command of a dutiful host is of class `H` and names no packet in flight on another worker. -/
theorem dutiful_instr {s : State} {w : Nat} {i : Instr} {rest : List Input}
    (hduty : ∀ inp rest, s.inputs = inp :: rest → Dutiful s inp) (hf : fetch s = .instr w i rest) :
    i.cls = .H ∧ ∀ h ∈ hostPackets i, ∀ w' x, w' ≠ w → s.workers[w']? = some x → x.inFlight h = false := by
  obtain ⟨p, c, hin, hdec, hport⟩ := fetch_instr hf
  obtain ⟨rfl, hpackets⟩ := hduty _ _ hin
  exact ⟨by simpa [portAccepts] using hport, hpackets i hdec⟩

/-- Settles O9: a command of a dutiful host is one of class `H` on packets of its own, and the host's own inputs leave
the packets in flight alone. -/
theorem dutifulHostNeverFaults : Obligations.DutifulHostNeverFaults := by
  intro s hs hduty
  have hcommand : ∀ w i rest, fetch s = .instr w i rest → NoFault (exec i { s with active := w, inputs := rest }) ∧
      ∀ t, exec i { s with active := w, inputs := rest } = .next t → HostInv t := fun w i rest hf =>
    host_exec (s := { s with active := w, inputs := rest }) hs (dutiful_instr hduty hf).1 (dutiful_instr hduty hf).2
  refine ⟨fun f hfault => ?_, fun t ht => ?_⟩
  · obtain ⟨w, i, rest, hf, hexec⟩ := step_fault hfault
    exact (hcommand w i rest hf).1 f hexec
  · have hinv := stepKeepsInv s t hs.1 ht
    obtain rfl | ⟨w, i, rest, hf, hexec⟩ | ⟨m, rest, hf, rfl⟩ := step_cases ht
    · exact hs
    · exact (hcommand w i rest hf).2 t hexec
    · obtain ⟨k, hfl, ⟨b, -, rfl⟩ | rfl⟩ := fetch_store hf
      · exact hostInv_of_store hs hinv hfl fun g hg => Memory.get_put_other _ _ _ _ hg
      · exact hostInv_of_store hs hinv hfl fun g hg => Memory.get_erase_other _ _ _ hg

end Sys2Proof.Machine

/-! ## Operations that only read (20_memory.md R57, 40_wire_codec.md R136, 44_collaborators_lifecycle.md R248) -/

namespace Sys2Proof.Machine

/-- A computation that raises no drop, answered: the context is the old one but for the result. -/
theorem answer_post {α : Type} {val : α → Value} {Q : α → Prop} {r : Except Stop α} {c : Ctx}
    (hr : Post Q (fun _ _ _ => False) r) :
    Post (fun d => ∃ v, d = c.answered v) (fun _ _ _ => False) (r >>= fun a => .ok (c.answered (val a))) :=
  hr.bind fun a _ => ⟨val a, rfl⟩

/-- The fifteen bodies that only look leave the context as it is but for the result. -/
theorem body_readsOnly {source : Nat → Option Espc} {i : Instr} (hi : readsOnly i = true) (c : Ctx) :
    Post (fun d => ∃ v, d = c.answered v) (fun _ _ _ => False) (body source i c) := by
  cases i with
  | hdrView h off => exact answer_post (hdrView_post c h off)
  | trlView h off => exact answer_post (trlView_post c h off)
  | hdrRdSpi v | hdrRdSeq v => exact answer_post (readU32_post c v _)
  | trlRdPadlen v | trlRdNext v => exact answer_post (readU8_post c v _)
  | hdrRdIv v => exact answer_post (hdrRdIv_post c v)
  | trlRdAuth v => exact answer_post (trlRdAuth_post c v)
  | bufRange h off n => exact answer_post (byteRangeAt_post c h off n)
  | bufLen h => exact answer_post (len_post c h)
  | ip4RdVihl h base | ip4RdTotlen h base | ip4RdProto h base | ip4RdSrc h base | ip4RdDst h base =>
    exact answer_post (ip4Decoded_post c h base _ _ _)
  | _ => cases hi

/-- Settles O19: the bodies answer or stop without a drop, and only the answered context is written back. -/
theorem readOnlyFrame : Obligations.ReadOnlyFrame := by
  intro i s t hi h
  obtain ⟨x, _, hx, rfl, v, rfl⟩ := exec_post (Q := fun x d => ∃ v, d = Ctx.answered ⟨x, s.mem, s.active⟩ v) h
    fun _ _ => (body_readsOnly hi _).quiet
  exact ⟨x, v, hx, rfl⟩

end Sys2Proof.Machine

/-! ## Accesses past the end of a packet (20_memory.md R67, 40_wire_codec.md R135, 60_exceptions.md R285) -/

namespace Sys2Proof.Machine

/-- A body that faults makes the command fault. -/
theorem exec_of_body_fault {i : Instr} {s : State} {x : Espc} {f : Fault} (hx : s.tuple? = some x)
    (hb : ∀ source, body source i ⟨x, s.mem, s.active⟩ = .error (.fault f)) : exec i s = .fault f := by
  rw [exec_eq_conclude hx, hb]; rfl

section PastTheEnd

variable {c : Ctx} {b : List Byte}

theorem memRead_pastEnd {h : Handle} {off n : Nat} (hb : c.mem.get h = some b) (hn : b.length < off + n) :
    c.memRead h off n = .error (.fault .codecBounds) :=
  memRead_fault hb (Nat.not_le.mpr hn)

theorem memWrite_pastEnd {h : Handle} {off n : Nat} {v : List Byte} (hb : c.mem.get h = some b) (hv : v.length = n)
    (hn : b.length < off + n) : c.memWrite h off v = .error (.fault .codecBounds) :=
  memWrite_fault hb (by omega)

/-- The IPv4 accessor checks the whole 20-byte header, so a field inside it ends past the packet only if the header
does (44_collaborators_lifecycle.md R248). -/
theorem ip4Write_pastEnd {h : Handle} {base k n : Nat} {v : List Byte} (hb : c.mem.get h = some b) (hk : k + n ≤ 20)
    (hn : b.length < base + k + n) : c.ip4Write h base k v = .error (.fault .codecBounds) :=
  ip4Write_fault hb (by omega)

theorem readU32_pastEnd {v : View} {k : Nat} (hb : c.mem.get v.h = some b) (hn : b.length < v.off + k + 4) :
    c.readU32 v k = .error (.fault .codecBounds) :=
  bind_of_error (memRead_pastEnd hb hn)

theorem readU8_pastEnd {v : View} {k : Nat} (hb : c.mem.get v.h = some b) (hn : b.length < v.off + k + 1) :
    c.readU8 v k = .error (.fault .codecBounds) :=
  bind_of_error (memRead_pastEnd hb hn)

theorem scEnc_pastEnd {d : Region} (iv : List Byte) (hb : c.mem.get d.h = some b) (h16 : d.n % Config.block = 0)
    (hn : b.length < d.off + d.n) : c.scEnc iv d = .error (.fault .codecBounds) :=
  (if_pos h16).trans (bind_of_error (memRead_pastEnd hb hn))

theorem scDec_pastEnd {d : Region} (iv : List Byte) (hb : c.mem.get d.h = some b) (h16 : d.n % Config.block = 0)
    (hn : b.length < d.off + d.n) : c.scDec iv d = .error (.fault .codecBounds) :=
  (if_pos h16).trans (bind_of_error (memRead_pastEnd hb hn))

theorem scAuth_pastEnd {d : Region} (hb : c.mem.get d.h = some b) (hn : b.length < d.off + d.n) :
    c.scAuth d = .error (.fault .codecBounds) :=
  bind_of_error (memRead_pastEnd hb hn)

/-- The body of a write to a field that ends past the packet. -/
theorem body_fieldStored_pastEnd {source : Nat → Option Espc} {i : Instr} {h : Handle} {off n : Nat}
    (hwf : i.wellFormed = true) (hi : fieldStored i = some (h, off, n)) (hb : c.mem.get h = some b)
    (hn : b.length < off + n) : body source i c = .error (.fault .codecBounds) := by
  cases i with
  | hdrWrSpi v x | hdrWrSeq v x => cases hi; exact memWrite_pastEnd hb (toBe32_length x) hn
  | trlWrPadlen v x | trlWrNext v x => cases hi; exact memWrite_pastEnd hb List.length_singleton hn
  | hdrWrIv v a | trlWrAuth v a =>
    cases hi; exact (requireOperand_bind hwf _).trans (memWrite_pastEnd hb (beq_iff_eq.mp hwf) hn)
  | ip4WrVihl g base v | ip4WrTotlen g base v | ip4WrProto g base v | ip4WrSrc g base v | ip4WrDst g base v =>
    cases hi; exact ip4Write_pastEnd hb (by decide) hn
  | _ => cases hi

end PastTheEnd

/-- Settles O17: every access reads or writes through the bound checks of `memRead`, `memWrite` and the IPv4 header. -/
theorem accessPastTheEndFaults : Obligations.AccessPastTheEndFaults := by
  refine ⟨?writes, ?reads, ?ip4Writes, ?scalar⟩
  case writes =>
    exact fun s x i h off n b hx hwf hi hb hn => exec_of_body_fault hx fun _ => body_fieldStored_pastEnd hwf hi hb hn
  case reads =>
    intro s x h off b hx hb
    refine ⟨?spi, ?seq, ?iv, ?padlen, ?next, ?auth, ?header⟩
    case spi => exact fun hn => exec_of_body_fault hx fun _ => bind_of_error (readU32_pastEnd hb hn)
    case seq => exact fun hn => exec_of_body_fault hx fun _ => bind_of_error (readU32_pastEnd hb hn)
    case iv => exact fun hn => exec_of_body_fault hx fun _ => bind_of_error (memRead_pastEnd hb hn)
    case padlen => exact fun hn => exec_of_body_fault hx fun _ => bind_of_error (readU8_pastEnd hb hn)
    case next => exact fun hn => exec_of_body_fault hx fun _ => bind_of_error (readU8_pastEnd hb hn)
    case auth => exact fun hn => exec_of_body_fault hx fun _ => bind_of_error (memRead_pastEnd hb hn)
    case header =>
      intro hn
      have hread (k n : Nat) : (⟨x, s.mem, s.active⟩ : Ctx).ip4Read h off k n = .error (.fault .codecBounds) :=
        ip4Read_fault hb (Nat.not_le.mpr hn)
      exact ⟨exec_of_body_fault hx fun _ => bind_of_error (bind_of_error (hread 0 1)),
        exec_of_body_fault hx fun _ => bind_of_error (bind_of_error (hread 2 2)),
        exec_of_body_fault hx fun _ => bind_of_error (bind_of_error (hread 9 1)),
        exec_of_body_fault hx fun _ => bind_of_error (bind_of_error (hread 12 4)),
        exec_of_body_fault hx fun _ => bind_of_error (bind_of_error (hread 16 4))⟩
  case ip4Writes =>
    intro s x h base b hx hb hn
    have hwrite (k : Nat) (v : List Byte) :
        (⟨x, s.mem, s.active⟩ : Ctx).ip4Write h base k v = .error (.fault .codecBounds) :=
      ip4Write_fault hb (Nat.not_le.mpr hn)
    exact ⟨fun v => exec_of_body_fault hx fun _ => hwrite 0 [v],
      fun v => exec_of_body_fault hx fun _ => hwrite 2 (toBe16 v),
      fun v => exec_of_body_fault hx fun _ => hwrite 9 [v],
      fun v => exec_of_body_fault hx fun _ => hwrite 12 (toBe32 v),
      fun v => exec_of_body_fault hx fun _ => hwrite 16 (toBe32 v)⟩
  case scalar =>
    intro s x d b hx hphase hb hn
    refine ⟨exec_of_body_fault hx fun _ =>
      (requireReady_bind hphase _).trans (bind_of_error (scAuth_pastEnd hb hn)), fun iv hiv h16 => ?_⟩
    have checked (f : Unit → Except Stop Ctx) : (requireOperand (isBytes16 iv) >>= fun _ =>
        (⟨x, s.mem, s.active⟩ : Ctx).requireReady >>= f) = f () :=
      (requireOperand_bind (beq_iff_eq.mpr hiv) _).trans (requireReady_bind hphase f)
    exact ⟨exec_of_body_fault hx fun _ => (checked _).trans (scEnc_pastEnd iv hb h16 hn),
      exec_of_body_fault hx fun _ => (checked _).trans (scDec_pastEnd iv hb h16 hn)⟩

end Sys2Proof.Machine

/-! ## The next input served (20_memory.md R56, R60; 30_encoding.md R95; 70_reset_and_hazards.md R314) -/

namespace Sys2Proof.Machine

section NextInput

variable {s : State} {rest : List Input}

/-! ### What the next input is -/

theorem fetch_nil (hin : s.inputs = []) : fetch s = .idle := by
  simp [fetch, hin]

theorem fetch_command {w : Nat} {p : Port} {c : Command} {i : Instr} (hin : s.inputs = .command w p c :: rest)
    (hdec : decode c = .ok i) (hport : portAccepts p i = true) : fetch s = .instr w i rest := by
  simp [fetch, hin, hdec, hport]

theorem fetch_put {h : Handle} {b : List Byte} (hin : s.inputs = .put h b :: rest) :
    fetch s = if s.inFlightAnywhere h then .refused .inFlight
      else if b.length ≤ Config.maxLen then .store (s.mem.put h b) rest else .refused .bufferTooLong := by
  simp [fetch, hin]

theorem fetch_free {h : Handle} (hin : s.inputs = .free h :: rest) :
    fetch s = if s.inFlightAnywhere h then .refused .inFlight
      else if (s.mem.get h).isSome then .store (s.mem.erase h) rest else .refused .unknownHandle := by
  simp [fetch, hin]

/-! ### What a step does with it -/

theorem step_of_idle (hf : fetch s = .idle) : step s = .next s := by
  simp [step, hf]

theorem step_of_instr {w : Nat} {i : Instr} (hf : fetch s = .instr w i rest) :
    step s = exec i { s with active := w, inputs := rest } := by
  simp [step, hf]

theorem step_of_store {m : Memory} (hf : fetch s = .store m rest) :
    step s = .next { s with mem := m, inputs := rest } := by
  simp [step, hf]

theorem step_of_refused {r : Refusal} (hf : fetch s = .refused r) : step s = .refused r := by
  simp [step, hf]

end NextInput

/-- Settles O1: a step is what `fetch` makes of the next input, carried out. -/
theorem stepServesTheNextInput : Obligations.StepServesTheNextInput := by
  refine ⟨?command, ?idle, ?put, ?free⟩
  case command => exact fun s w p c rest i hin hdec hport => step_of_instr (fetch_command hin hdec hport)
  case idle => exact fun s hin => step_of_idle (fetch_nil hin)
  case put =>
    intro s h b rest hin
    refine ⟨fun hfl => step_of_refused ?_, fun hfl hlong => step_of_refused ?_,
      fun hfl hlen => ⟨_, step_of_store (m := s.mem.put h b) (rest := rest) ?_, Memory.get_put_same _ _ _,
        fun g hg => Memory.get_put_other _ _ _ _ hg, rfl, rfl, rfl⟩⟩
    · simp [fetch_put hin, hfl]
    · simp [fetch_put hin, hfl, hlong]
    · simp [fetch_put hin, hfl, hlen]
  case free =>
    intro s h rest hin
    refine ⟨fun hfl => step_of_refused ?_, fun hfl hnone => step_of_refused ?_,
      fun hfl hsome => ⟨_, step_of_store (m := s.mem.erase h) (rest := rest) ?_, Memory.get_erase_same _ _,
        fun g hg => Memory.get_erase_other _ _ _ hg, rfl, rfl, rfl⟩⟩
    · simp [fetch_free hin, hfl]
    · simp [fetch_free hin, hfl, hnone]
    · simp [fetch_free hin, hfl, hsome]

end Sys2Proof.Machine

/-! ## The encoding (30_encoding.md R87, R95, R100) -/

namespace Sys2Proof

/-- The arguments that `decodeArgs` accepts for an operation are those of the instruction it answers. -/
theorem decodeArgs_inv {op : Op} {args : List Arg} {i : Instr} (h : decodeArgs op args = some i) :
    i.op = op ∧ i.args = args := by
  cases op with
  | _ =>
    dsimp only [decodeArgs] at h
    split at h
    · cases h; exact ⟨rfl, rfl⟩
    · cases h

/-- An operation and its arguments, and the instruction they make: each determines the other. -/
theorem decodeArgs_eq_some_iff {op : Op} {args : List Arg} {i : Instr} :
    decodeArgs op args = some i ↔ i.op = op ∧ i.args = args := by
  refine ⟨decodeArgs_inv, ?_⟩
  rintro ⟨rfl, rfl⟩
  exact decodeArgs_args i

theorem opOf_eq_some_iff {w : Byte} {op : Op} : opOf w = some op ↔ op.row.code = w := by
  refine ⟨opOf_some, ?_⟩
  rintro rfl
  exact opOf_code op

/-- A reserved code (R95). -/
theorem opOf_eq_none {w : Byte} (hw : ∀ op : Op, op.row.code ≠ w) : opOf w = none :=
  Option.eq_none_iff_forall_not_mem.mpr fun op hop => hw op (opOf_some hop)

/-- What the decoder accepts: the operation map knows the word, the arguments are the operation's, and each has the
length of its type. -/
theorem decode_eq_ok_iff {c : Command} {i : Instr} :
    decode c = .ok i ↔ i.wellFormed = true ∧ ∃ op, opOf c.word = some op ∧ decodeArgs op c.args = some i := by
  unfold decode
  cases hop : opOf c.word with
  | none => simp
  | some op =>
    cases hargs : decodeArgs op c.args with
    | none => simp [hargs]
    | some j =>
      by_cases hwf : j.wellFormed = true
      · simp only [hwf, if_true, Except.ok.injEq, Option.some.injEq, exists_eq_left', hargs]
        exact ⟨fun hj => ⟨hj ▸ hwf, hj⟩, And.right⟩
      · simp only [hwf, if_false, reduceCtorEq, Option.some.injEq, exists_eq_left', hargs, false_iff]
        rintro ⟨hi, rfl⟩
        exact hwf hi

/-- The decoder accepts the encodings of the well-formed operations, each as that operation, and nothing else. -/
theorem decode_eq_ok_iff_encode {c : Command} {i : Instr} :
    decode c = .ok i ↔ i.wellFormed = true ∧ encode i = c := by
  obtain ⟨word, args⟩ := c
  simp only [decode_eq_ok_iff, opOf_eq_some_iff, decodeArgs_eq_some_iff, encode, Command.mk.injEq]
  refine and_congr_right fun _ => ⟨?_, fun ⟨hcode, hargs⟩ => ⟨i.op, hcode, rfl, hargs⟩⟩
  rintro ⟨op, hcode, rfl, hargs⟩
  exact ⟨hcode, hargs⟩

theorem decode_encode {i : Instr} (hwf : i.wellFormed = true) : decode (encode i) = .ok i :=
  decode_eq_ok_iff_encode.mpr ⟨hwf, rfl⟩

/-- A word that is no operation's code is rejected whatever its arguments. -/
theorem decode_reserved {c : Command} (hc : ∀ op : Op, op.row.code ≠ c.word) :
    decode c = .error (.reservedCode c.word) := by
  simp [decode, opOf_eq_none hc]

/-- The code of a decoded command is that of one operation only. -/
theorem decode_op {c : Command} {i : Instr} {op : Op} (hdec : decode c = .ok i) (hcode : op.row.code = c.word) :
    i.op = op := by
  obtain ⟨-, rfl⟩ := decode_eq_ok_iff_encode.mp hdec
  exact (code_injective hcode).symm

/-- Settles O2. -/
theorem decodeUndoesEncode : Obligations.DecodeUndoesEncode := fun _ hwf => decode_encode hwf

/-- Settles O3. -/
theorem encodeUndoesDecode : Obligations.EncodeUndoesDecode := fun _ _ hdec => decode_eq_ok_iff_encode.mp hdec

/-- Settles O4: each of the words, with its arguments, is the encoding of its operation. -/
theorem tableWordsDecode : Obligations.TableWordsDecode :=
  ⟨decode_encode (i := .destroy) rfl, decode_encode (i := .hdrRdSpi ⟨3, 34⟩) rfl,
    decode_encode (i := .trlWrPadlen ⟨3, 104⟩ 15#8) rfl, decode_encode (i := .scAuth ⟨3, 34, 72⟩) rfl,
    decode_encode (i := .vcEncrypt 8) rfl, decode_encode (i := .encEnd) rfl, decode_encode (i := .dec 3) rfl,
    decode_encode (i := .bufGrowHead 3 44) rfl, decode_encode (i := .ip4RdDst 3 14) rfl⟩

end Sys2Proof

/-! ## Commands that are not accepted (30_encoding.md R95) -/

namespace Sys2Proof.Machine

section Refused

variable {s : State} {w : Nat} {p : Port} {c : Command} {rest : List Input}
  (hin : s.inputs = .command w p c :: rest)
include hin

theorem fetch_undecodable {e : DecodeError} (hdec : decode c = .error e) : fetch s = .refused (.undecodable e) := by
  simp [fetch, hin, hdec]

theorem fetch_notAccepted {i : Instr} (hdec : decode c = .ok i) (hport : portAccepts p i = false) :
    fetch s = .refused (.notAHostCommand i.mnemonic) := by
  simp [fetch, hin, hdec, hport]

end Refused

/-- A code of class `I` or `X` on the host port, whatever stands beside it. -/
theorem fetch_internalCode {s : State} {w : Nat} {c : Command} {rest : List Input} {op : Op}
    (hin : s.inputs = .command w .host c :: rest) (hcode : op.row.code = c.word) (hcls : op.row.cls ≠ .H) :
    ∃ r, fetch s = .refused r := by
  cases hdec : decode c with
  | error e => exact ⟨_, fetch_undecodable hin hdec⟩
  | ok i =>
    have hi : i.cls ≠ .H := by rwa [Instr.cls, decode_op hdec hcode]
    exact ⟨_, fetch_notAccepted hin hdec (by simpa [portAccepts] using hi)⟩

/-- Every port accepts the operations of class `H`. -/
theorem portAccepts_host (p : Port) {i : Instr} (hi : i.cls = .H) : portAccepts p i = true := by
  simp [portAccepts, hi]

/-- The host commands beside `INIT` and `CLONE` need `PHASE = Ready` (10_state.md R21). -/
theorem needsReady_of_host {i : Instr} (hi : i.cls = .H) (hinit : i.op ≠ .init) (hclone : i.op ≠ .clone) :
    needsReady i.op = true := by
  obtain ⟨k, a, src, dst, ok, rfl⟩ | ⟨w', rfl⟩ | rfl | ⟨h, iv, rfl⟩ | rfl | ⟨h, rfl⟩ := host_cases hi
  · exact absurd rfl hinit
  · exact absurd rfl hclone
  · rfl
  · rfl
  · rfl
  · rfl

/-- A host command outside `Ready`, `INIT` and `CLONE` of an `Unconstructed` tuple excepted. -/
theorem body_unready {source : Nat → Option Espc} {i : Instr} {c : Ctx} (hwf : i.wellFormed = true)
    (hi : i.cls = .H) (hphase : c.inst.phase ≠ .ready)
    (hfresh : c.inst.phase = .unconstructed → i.op ≠ .init ∧ i.op ≠ .clone) :
    ∃ r, body source i c = .error (.refused r) := by
  cases hp : c.inst.phase with
  | ready => exact absurd hp hphase
  | halted => exact halted_refuses hi hp
  | unconstructed =>
    obtain ⟨hinit, hclone⟩ := hfresh hp
    exact ⟨_, body_wrongPhase hwf (needsReady_of_host hi hinit hclone) hphase⟩

/-- Settles O5: the first two kinds of command are refused before they are executed, the third by its body. -/
theorem unacceptedCommandsAreRefused : Obligations.UnacceptedCommandsAreRefused := by
  intro s w p c rest hin
  refine ⟨fun hreserved => ?reserved, ?internal, fun i x hdec hi hx hphase hfresh => ?unready⟩
  case reserved => exact ⟨_, step_of_refused (fetch_undecodable hin (decode_reserved hreserved))⟩
  case internal =>
    rintro ⟨op, hcode, hcls⟩ rfl
    obtain ⟨r, hr⟩ := fetch_internalCode hin hcode hcls
    exact ⟨r, step_of_refused hr⟩
  case unready =>
    obtain ⟨hwf, -⟩ := decode_eq_ok_iff_encode.mp hdec
    obtain ⟨r, hr⟩ := body_unready (c := ⟨x, s.mem, w⟩) (source := fun v => s.workers[v]?) hwf hi hphase hfresh
    rw [step_of_instr (fetch_command hin hdec (portAccepts_host p hi)),
      exec_eq_conclude (s := { s with active := w, inputs := rest }) hx, hr]
    exact ⟨r, rfl⟩

end Sys2Proof.Machine

/-! ## Padding and lengths (30_encoding.md R89, R90, R92) -/

namespace Sys2Proof.Machine

/-- Two padding lengths that both fill the last block differ by whole blocks, and `padLength` is below one. -/
theorem padLength_minimal {l p : Nat} (hp : (l + p + 2) % 16 = 0) : padLength l ≤ p := by
  have hpad := padLength_aligns l
  have hle := padLength_le l
  omega

/-- `MAX_LEN` is at most 65535, so the 16-bit field holds the length behind the Ethernet header (R92). -/
theorem totalLength_toNat {n : Nat} (hn : n ≤ Config.maxLen) : (totalLength n).toNat = n - 14 := by
  have hmax := maxLen_le
  simp only [totalLength, BitVec.toNat_ofNat, Config.etherLen]
  exact Nat.mod_eq_of_lt (by omega)

/-- Settles O37. -/
theorem paddingIsMinimal : Obligations.PaddingIsMinimal := by
  intro l
  refine ⟨padLength_le l, padLength_aligns l, fun p hp => padLength_minimal hp, ?region, fun hfit => ?total⟩
  case region => rw [grownLength]; omega
  case total => rw [totalLength_toNat hfit, grownLength]; omega

end Sys2Proof.Machine

/-! ## The IPv4 accessor (30_encoding.md R85, 44_collaborators_lifecycle.md R248 to R258) -/

namespace Sys2Proof.Machine

/-- The one byte of a 1-byte read. -/
theorem byte1_slice (b : List Byte) (off : Nat) : byte1 (slice b off 1) = b.getD off 0 := by
  simp [byte1, slice, List.getD_eq_getElem?_getD, List.getElem?_drop]

section Ip4

variable {s : State} {x : Espc} {h : Handle} {base : Nat} {b : List Byte} (hx : s.tuple? = some x)
  (hb : s.mem.get h = some b) (hheader : base + 20 ≤ b.length)
include hx hb hheader

/-- A read of the field of `n` bytes at `k`, decoded by `f` and answered as `val`. -/
theorem runOn_ip4Read {α : Type} (val : α → Value) (f : List Byte → α) {k n : Nat} (hk : k + n ≤ 20) :
    runOn .none s (answering val fun c => c.ip4Read h base k n >>= fun v => .ok (f v))
      = .next (s.withCtx ⟨{ x with result := val (f (slice b (base + k) n)) }, s.mem, s.active⟩) :=
  runOn_of_ok hx (bind_of_ok (bind_of_ok (ip4Read_eq hb hheader hk) rfl) rfl)

theorem runOn_ip4Write {k : Nat} {v : List Byte} (hk : k + v.length ≤ 20) :
    runOn .none s (fun c => c.ip4Write h base k v)
      = .next (s.withCtx ⟨x, s.mem.put h (splice b (base + k) v), s.active⟩) :=
  runOn_of_ok hx (ip4Write_eq hb hheader hk)

end Ip4

/-- Settles O53. -/
theorem ip4Reads : Obligations.Ip4Reads := by
  intro s x h base b hx hb hheader
  refine ⟨?vihl, ?totlen, ?proto, ?src, ?dst⟩
  case vihl =>
    rw [← byte1_slice]
    exact runOn_ip4Read hx hb hheader .u8 byte1 (k := 0) (by decide)
  case totlen => exact runOn_ip4Read hx hb hheader .u16 be16 (by decide)
  case proto =>
    rw [← byte1_slice]
    exact runOn_ip4Read hx hb hheader .u8 byte1 (by decide)
  case src => exact runOn_ip4Read hx hb hheader .u32 be32 (by decide)
  case dst => exact runOn_ip4Read hx hb hheader .u32 be32 (by decide)

/-- Settles O54. -/
theorem ip4Writes : Obligations.Ip4Writes := by
  intro s x h base b hx hb hheader
  refine ⟨fun v => ?vihl, fun v => ?totlen, fun v => ?proto, fun v => ?src, fun v => ?dst⟩
  case vihl => exact runOn_ip4Write hx hb hheader (k := 0) (v := [v]) (by simp)
  case totlen => exact runOn_ip4Write hx hb hheader (v := toBe16 v) (by simp)
  case proto => exact runOn_ip4Write hx hb hheader (v := [v]) (by simp)
  case src => exact runOn_ip4Write hx hb hheader (v := toBe32 v) (by simp)
  case dst => exact runOn_ip4Write hx hb hheader (v := toBe32 v) (by simp)

end Sys2Proof.Machine

/-! ## `ENCAP`: a push and the end of the burst (30_encoding.md R98, 42_encapsulation.md R194 to R196) -/

namespace Sys2Proof.Machine

/-- The push of a packet with bytes `b` will be carried out: the packet is eligible and not in flight, and the batch
has room (42_encapsulation.md R182, R194). -/
structure Pushable (c : Ctx) (h : Handle) (iv b : List Byte) : Prop where
  packet : c.mem.get h = some b
  iv16 : iv.length = 16
  notInFlight : c.inst.inFlight h = false
  long : 34 ≤ b.length
  fits : grownLength (b.length - 14) ≤ Config.maxLen
  room : c.inst.count ≤ 7

/-- The context of a push whose packet has become its in-flight frame and whose slot is registered. -/
def Ctx.pushed (c : Ctx) (h : Handle) (iv b : List Byte) : Ctx where
  inst := { c.inst with
    slots := c.inst.slots.setIfInBounds c.inst.count (slotOf h (grownLength (b.length - 14)))
    count := c.inst.count + 1
    encState := .accumulateInBatch
    draws := c.inst.draws + drawsOf (b.length - 14) }
  mem := c.mem.put h (inFlightFrame c.inst (fillAt c.worker c.inst.draws) iv b)
  worker := c.worker

/-- What the flush leaves of a context, the packet store being `m` after it (41_crypto_contexts.md R160). -/
def Ctx.flushed (c : Ctx) (m : Memory) : Ctx :=
  { c with mem := m, inst := { c.inst with
      count := 0
      out := c.inst.out ++ c.inst.batch.map Slot.pkt
      trace := c.inst.trace ++ encryptEvents c.inst.batch ++ authEvents c.inst.batch } }

section Fields

variable (c : Ctx) (h : Handle) (iv b : List Byte) (m : Memory)

@[simp] theorem Ctx.pushed_phase : (c.pushed h iv b).inst.phase = c.inst.phase := rfl
@[simp] theorem Ctx.pushed_count : (c.pushed h iv b).inst.count = c.inst.count + 1 := rfl
@[simp] theorem Ctx.pushed_out : (c.pushed h iv b).inst.out = c.inst.out := rfl
@[simp] theorem Ctx.pushed_verdicts : (c.pushed h iv b).inst.verdicts = c.inst.verdicts := rfl

@[simp] theorem Ctx.flushed_mem : (c.flushed m).mem = m := rfl
@[simp] theorem Ctx.flushed_phase : (c.flushed m).inst.phase = c.inst.phase := rfl
@[simp] theorem Ctx.flushed_count : (c.flushed m).inst.count = 0 := rfl
@[simp] theorem Ctx.flushed_out : (c.flushed m).inst.out = c.inst.out ++ c.inst.batch.map Slot.pkt := rfl
@[simp] theorem Ctx.flushed_verdicts : (c.flushed m).inst.verdicts = c.inst.verdicts := rfl

@[simp] theorem finishOk_encap_mem : (finishOk .encap h c).mem = c.mem := rfl
@[simp] theorem finishOk_encap_phase : (finishOk .encap h c).inst.phase = c.inst.phase := rfl
@[simp] theorem finishOk_encap_count : (finishOk .encap h c).inst.count = c.inst.count := rfl
@[simp] theorem finishOk_encap_batch : (finishOk .encap h c).inst.batch = c.inst.batch := rfl
@[simp] theorem finishOk_encap_out : (finishOk .encap h c).inst.out = c.inst.out := rfl
@[simp] theorem finishOk_encap_verdicts :
    (finishOk .encap h c).inst.verdicts = c.inst.verdicts ++ [.ok h] := rfl

end Fields

/-- The flush, as `vcFlush_eq` describes it. -/
theorem vcFlush_eq_flushed {c : Ctx} (hn : c.inst.count ≤ 8) (hb : BatchOk c.mem c.inst.batch) :
    ∃ m, EachPacket (slotCompleted c.inst) c.inst.batch c.mem m ∧ c.vcFlush = .ok (c.flushed m) :=
  vcFlush_eq hn hb

/-- The context `d` holds what a flush of `c` reads: the packets, the batch and the keys. -/
structure SameBatch (c d : Ctx) : Prop where
  mem : d.mem = c.mem
  count : d.inst.count = c.inst.count
  slots : d.inst.slots = c.inst.slots
  encKey : d.inst.encKey = c.inst.encKey
  authKey : d.inst.authKey = c.inst.authKey

theorem SameBatch.batch {c d : Ctx} (h : SameBatch c d) : d.inst.batch = c.inst.batch := by
  rw [Espc.batch, h.count, h.slots, Espc.batch]

theorem setEnc_sameBatch (c : Ctx) (st : EncState) : SameBatch c (c.setEnc st) := ⟨rfl, rfl, rfl, rfl, rfl⟩

theorem finishOk_sameBatch (c : Ctx) (h : Handle) : SameBatch c (finishOk .encap h c) := ⟨rfl, rfl, rfl, rfl, rfl⟩

/-- The flush completes the packet of a slot by the keys alone. -/
theorem slotCompleted_congr {x y : Espc} (henc : y.encKey = x.encKey) (hauth : y.authKey = x.authKey) :
    slotCompleted y = slotCompleted x := by
  funext sl b
  simp [slotCompleted, slotAuthenticated, slotEncrypted, henc, hauth]

/-- `AccumulateInBatch` once the slot is registered: the `BatchFull?` decision (42_encapsulation.md R192). -/
theorem stageAccumulate_of_registered {c d : Ctx} {h : Handle} {p : Plain}
    (hreg : c.vcReg (slotOf h (grownLength p.len)) = .ok d) :
    stageAccumulate h p c = if batchFull d.inst then (d.setEnc .flushVector).vcFlush else .ok d :=
  bind_of_ok hreg rfl

section Push

variable {c : Ctx} {h : Handle} {iv b : List Byte} (hp : Pushable c h iv b)
include hp

theorem pushed_batch : (c.pushed h iv b).inst.batch = c.inst.batch ++ [slotOf h (grownLength (b.length - 14))] :=
  batch_register c.inst _ (Nat.lt_succ_of_le hp.room)

theorem pushed_batchOk (hbatch : BatchOk c.mem c.inst.batch) :
    BatchOk (c.pushed h iv b).mem (c.pushed h iv b).inst.batch := by
  rw [pushed_batch hp]
  exact hbatch.push (notInFlight_ne hp.notInFlight) (fits_slotOf c.mem hp.iv16 hp.long) (slotOf_blocks h _)

/-- The stages of a push up to the `BatchFull?` decision (R182 to R192). -/
theorem encapsulate_eq_pushed :
    c.encapsulate h iv = (if c.inst.count = 7 then ((c.pushed h iv b).setEnc .flushVector).vcFlush
      else .ok (c.pushed h iv b)) >>= fun d => .ok (finishOk .encap h d) := by
  have hfull : batchFull (c.pushed h iv b).inst = true ↔ c.inst.count = 7 := by
    simp [batchFull, Ctx.pushed]
  have hreg : (((c.withMem (c.mem.put h (inFlightFrame c.inst (fillAt c.worker c.inst.draws) iv b))).drawn
      (drawsOf (b.length - 14))).setEnc .accumulateInBatch).vcReg (slotOf h (grownLength (b.length - 14)))
        = .ok (c.pushed h iv b) :=
    vcReg_eq (Nat.lt_succ_of_le hp.room) (slotOf_blocks h _)
  rw [encapsulate_eq hp.packet hp.iv16 hp.long hp.fits,
    stageAccumulate_of_registered (p := ⟨b.length - 14, b.getD 23 0⟩) hreg, if_congr hfull rfl rfl]

/-- A flush of the pushed batch completes the pushed packet (R196). -/
theorem vcFlush_pushed (hbatch : BatchOk c.mem c.inst.batch) {d : Ctx} (hd : SameBatch (c.pushed h iv b) d) :
    ∃ m, d.vcFlush = .ok (d.flushed m) ∧
      m.get h = some (completedFrame c.inst (fillAt c.worker c.inst.draws) iv b) := by
  have hcount : d.inst.count ≤ 8 := hd.count ▸ Nat.succ_le_succ hp.room
  have hok : BatchOk d.mem d.inst.batch := by
    rw [hd.mem, hd.batch]
    exact pushed_batchOk hp hbatch
  obtain ⟨m, ⟨heach, -⟩, hflush⟩ := vcFlush_eq_flushed hcount hok
  have hslot : slotOf h (grownLength (b.length - 14)) ∈ d.inst.batch := by
    simp [hd.batch, pushed_batch hp]
  have hframe : d.mem.get h = some (inFlightFrame c.inst (fillAt c.worker c.inst.draws) iv b) := by
    rw [hd.mem]
    exact Memory.get_put_same _ _ _
  refine ⟨m, hflush, (heach _ hslot _ hframe).trans (congrArg some ?_)⟩
  rw [slotCompleted_congr (x := c.inst) hd.encKey hd.authKey, slotCompleted_inFlight c.inst h _ hp.iv16 hp.long]

end Push

/-! ### The two commands -/

section Commands

variable {s : State} {x : Espc} (hx : s.tuple? = some x) (hphase : x.phase = .ready)
include hx hphase

theorem exec_encPush_of_ok {h : Handle} {iv b : List Byte} {d : Ctx} (hp : Pushable ⟨x, s.mem, s.active⟩ h iv b)
    (hd : (⟨x, s.mem, s.active⟩ : Ctx).encapsulate h iv = .ok d) :
    exec (.encPush h iv) s = .next (s.withCtx d) := by
  have hiv : isBytes16 iv = true := beq_iff_eq.mpr hp.iv16
  exact runOn_of_ok hx ((requireOperand_bind hiv _).trans ((requireReady_bind hphase _).trans
    (bind_of_ok (buffer_eq hp.packet) (bind_of_ok (requireNotInFlight_eq hp.notInFlight) hd))))

/-- `ENC.END` on an empty batch (R195). -/
theorem exec_encEnd_of_empty (hcount : x.count = 0) : exec .encEnd s = .next s := by
  have hend : ¬ 0 < x.count := by omega
  refine (runOn_of_ok hx ((requireReady_bind hphase _).trans (if_neg hend))).trans ?_
  rw [State.withCtx_self s x hx]

theorem exec_encEnd_of_flush {d : Ctx} (hcount : 0 < x.count)
    (hd : (⟨x, s.mem, s.active⟩ : Ctx).vcFlush = .ok d) : exec .encEnd s = .next (s.withCtx d) :=
  runOn_of_ok hx ((requireReady_bind hphase _).trans ((if_pos hcount).trans hd))

end Commands

/-- The push of the packet that fills the batch flushes, and the end of the burst finds nothing to do. -/
theorem encap_full {s : State} {x : Espc} {h : Handle} {iv b : List Byte} (hx : s.tuple? = some x)
    (hphase : x.phase = .ready) (hp : Pushable ⟨x, s.mem, s.active⟩ h iv b) (hbatch : BatchOk s.mem x.batch)
    (hfull : x.count = 7) :
    ∃ s₁ m, exec (.encPush h iv) s = .next s₁ ∧
      exec .encEnd s₁ = .next (s.withCtx (finishOk .encap h
        ((((⟨x, s.mem, s.active⟩ : Ctx).pushed h iv b).setEnc .flushVector).flushed m))) ∧
      m.get h = some (completedFrame x (fillAt s.active x.draws) iv b) := by
  obtain ⟨m, hflush, hframe⟩ := vcFlush_pushed hp hbatch (setEnc_sameBatch _ .flushVector)
  have hpush := exec_encPush_of_ok hx hphase hp
    ((encapsulate_eq_pushed hp).trans (bind_of_ok ((if_pos hfull).trans hflush) rfl))
  exact ⟨_, m, hpush, exec_encEnd_of_empty (State.withCtx_tuple? _ s x hx) (by simpa using hphase) (by simp), hframe⟩

/-- The push of another packet only registers it, and the end of the burst flushes. -/
theorem encap_notFull {s : State} {x : Espc} {h : Handle} {iv b : List Byte} (hx : s.tuple? = some x)
    (hphase : x.phase = .ready) (hp : Pushable ⟨x, s.mem, s.active⟩ h iv b) (hbatch : BatchOk s.mem x.batch)
    (hroom : x.count ≠ 7) :
    ∃ s₁ m, exec (.encPush h iv) s = .next s₁ ∧
      exec .encEnd s₁ = .next (s.withCtx ((finishOk .encap h
        ((⟨x, s.mem, s.active⟩ : Ctx).pushed h iv b)).flushed m)) ∧
      m.get h = some (completedFrame x (fillAt s.active x.draws) iv b) := by
  obtain ⟨m, hflush, hframe⟩ := vcFlush_pushed hp hbatch (finishOk_sameBatch _ h)
  have hpush := exec_encPush_of_ok hx hphase hp
    ((encapsulate_eq_pushed hp).trans (bind_of_ok (if_neg hroom) rfl))
  refine ⟨_, m, hpush, ?_, hframe⟩
  rw [exec_encEnd_of_flush (State.withCtx_tuple? _ s x hx) (by simpa using hphase) (by simp) hflush,
    State.withCtx_withCtx]

/-- Settles O43: either the push or the end of the burst flushes the batch with the new packet in it. -/
theorem encapMakesTheEspFrame : Obligations.EncapMakesTheEspFrame := by
  intro s x h iv b hx hphase hiv hb hfl h34 hmax hcount hbatch
  have hp : Pushable ⟨x, s.mem, s.active⟩ h iv b := ⟨hb, hiv, hfl, h34, hmax, hcount⟩
  have hpkt : (slotOf h (grownLength (b.length - 14))).pkt = h := rfl
  by_cases hfull : x.count = 7
  · obtain ⟨s₁, m, hpush, hend, hframe⟩ := encap_full hx hphase hp hbatch hfull
    refine ⟨s₁, _, _, hpush, hend, State.withCtx_tuple? _ s x hx, ?_⟩
    simp [hframe, pushed_batch hp, hpkt]
  · obtain ⟨s₁, m, hpush, hend, hframe⟩ := encap_notFull hx hphase hp hbatch hfull
    refine ⟨s₁, _, _, hpush, hend, State.withCtx_tuple? _ s x hx, ?_⟩
    simp [hframe, pushed_batch hp, hpkt]

end Sys2Proof.Machine

/-! ## The bytes a field write stores (40_wire_codec.md R136, R137; 44_collaborators_lifecycle.md R248) -/

namespace Sys2Proof.Machine

/-- `d` is `c` with `n` bytes of packet `h` from `off` on overwritten, and nothing else changed. -/
def Overwritten (h : Handle) (off n : Nat) (c d : Ctx) : Prop :=
  ∃ b v, c.mem.get h = some b ∧ v.length = n ∧ off + v.length ≤ b.length ∧
    d = c.withMem (c.mem.put h (splice b off v))

/-! ### Every field write overwrites its field -/

theorem memWrite_overwrites (c : Ctx) (h : Handle) (off : Nat) {v : List Byte} {n : Nat} (hv : v.length = n) :
    Post (Overwritten h off n c) (fun _ _ _ => False) (c.memWrite h off v) :=
  (memWrite_post c h off v).mono (fun _ ⟨b, hb, hn, hd⟩ => ⟨b, v, hb, hv, hn, hd⟩) fun _ _ _ h => h

theorem ip4Write_overwrites (c : Ctx) (h : Handle) (base k : Nat) {v : List Byte} {n : Nat} (hv : v.length = n) :
    Post (Overwritten h (base + k) n c) (fun _ _ _ => False) (c.ip4Write h base k v) :=
  (ip4Write_post c h base k v).mono (fun _ ⟨b, hb, _, hn, hd⟩ => ⟨b, v, hb, hv, hn, hd⟩) fun _ _ _ h => h

theorem body_overwrites {source : Nat → Option Espc} {i : Instr} {h : Handle} {off n : Nat}
    (hi : fieldStored i = some (h, off, n)) (c : Ctx) :
    Post (Overwritten h off n c) (fun _ _ _ => False) (body source i c) := by
  cases i with
  | hdrWrSpi v x | hdrWrSeq v x => cases hi; exact memWrite_overwrites c _ _ (toBe32_length x)
  | trlWrPadlen v x | trlWrNext v x => cases hi; exact memWrite_overwrites c _ _ List.length_singleton
  | hdrWrIv v a | trlWrAuth v a =>
    cases hi; exact (requireOperand_post _).bind fun _ ha => memWrite_overwrites c _ _ (beq_iff_eq.mp ha)
  | ip4WrVihl g base v | ip4WrProto g base v => cases hi; exact ip4Write_overwrites c _ _ _ List.length_singleton
  | ip4WrTotlen g base v => cases hi; exact ip4Write_overwrites c _ _ _ (toBe16_length v)
  | ip4WrSrc g base v | ip4WrDst g base v => cases hi; exact ip4Write_overwrites c _ _ _ (toBe32_length v)
  | _ => cases hi

theorem exec_overwrites {i : Instr} {s t : State} {h : Handle} {off n : Nat}
    (hi : fieldStored i = some (h, off, n)) (hw : exec i s = .next t) :
    ∃ x d, s.tuple? = some x ∧ t = s.withCtx d ∧ Overwritten h off n ⟨x, s.mem, s.active⟩ d :=
  exec_post (Q := fun x d => Overwritten h off n ⟨x, s.mem, s.active⟩ d) hw fun _ _ => (body_overwrites hi _).quiet

/-! ### What overwriting a field leaves alone -/

/-- The licence to overwrite one range of one packet. -/
def Licence.range (h : Handle) (off n : Nat) : Licence :=
  ⟨.none, False, fun _ => False, fun _ => False, fun g o => g = h ∧ off ≤ o ∧ o < off + n⟩

section Overwritten

variable {h : Handle} {off n : Nat} {c d : Ctx} (hcd : Overwritten h off n c d)
include hcd

theorem Overwritten.moves : Moves (.range h off n) c d := by
  obtain ⟨b, v, hb, rfl, hn, rfl⟩ := hcd
  exact .splice hb hn (.inr fun _ h1 h2 => ⟨rfl, h1, h2⟩)

theorem Overwritten.inst : d.inst = c.inst := by
  obtain ⟨b, v, -, -, -, rfl⟩ := hcd; rfl

theorem Overwritten.worker : d.worker = c.worker := by
  obtain ⟨b, v, -, -, -, rfl⟩ := hcd; rfl

/-- A range apart from the field reads as before, and is out of the packet's bounds if it was. -/
theorem Overwritten.memRead_eq {o m : Nat} (hapart : o + m ≤ off ∨ off + n ≤ o) : d.memRead h o m = c.memRead h o m := by
  obtain ⟨b, v, hb, rfl, hn, rfl⟩ := hcd
  have hb' : (c.withMem (c.mem.put h (splice b off v))).mem.get h = some (splice b off v) :=
    Memory.get_put_same _ _ _
  have hlen := splice_length b off v hn
  by_cases hm : o + m ≤ b.length
  · rw [memRead_eq hb' (hlen.symm ▸ hm), memRead_eq hb hm, slice_splice_disjoint b off v o m hn hapart]
  · rw [memRead_fault hb' (hlen.symm ▸ hm), memRead_fault hb hm]

end Overwritten

/-- Settles O18: the write overwrites its field, within a licence for the field's bytes and no resizing, and the tuple
written back is the one it started from. -/
theorem fieldWriteFrame : Obligations.FieldWriteFrame := by
  intro i s t h off n _ hi hw
  obtain ⟨x, d, hx, rfl, hd⟩ := exec_overwrites hi hw
  refine ⟨fun g o ho => hd.moves.byteAt_kept not_false ?_, fun g => hd.moves.length_kept not_false, ?_, rfl, rfl⟩
  · rintro ⟨hg, h1, h2⟩
    obtain hne | hlt | hge := ho
    · exact hne hg
    · omega
    · omega
  · calc s.workers.set s.active d.inst
      _ = s.workers.set s.active x := by rw [hd.inst]
      _ = s.workers := congrArg State.workers (State.withCtx_self s x hx)

/-! ### The other fields of a view -/

theorem answers_withCtx {s : State} {c : Ctx} {x : Espc} (hx : s.tuple? = some x) {a : Value} :
    Answers (.next (s.withCtx c)) a ↔ c.inst.result = a := by
  have htuple := State.withCtx_tuple? c s x hx
  constructor
  · rintro ⟨_, y, ⟨⟩, hy, ha⟩
    cases htuple.symm.trans hy
    exact ha
  · exact fun ha => ⟨_, _, rfl, htuple, ha⟩

/-- The answer of a read depends on what the read gives only. -/
theorem answers_congr {α : Type} {p : Pipeline} {s t : State} {x y : Espc} (hx : s.tuple? = some x)
    (hy : t.tuple? = some y) {r : Ctx → Except Stop α} (hr : r ⟨y, t.mem, t.active⟩ = r ⟨x, s.mem, s.active⟩)
    (val : α → Value) (a : Value) (hs : Answers (runOn p s (answering val r)) a) :
    Answers (runOn p t (answering val r)) a := by
  rw [runOn_eq_conclude hx] at hs
  rw [runOn_eq_conclude hy]
  unfold answering at hs ⊢
  rw [hr]
  match r ⟨x, s.mem, s.active⟩, hs with
  | .ok v, hs =>
    have ha : val v = a := (answers_withCtx (c := Ctx.answered ⟨x, s.mem, s.active⟩ (val v)) hx).mp hs
    exact (answers_withCtx hy).mpr ha
  | .error (.raised _ _ _), hs => exact (answers_withCtx hy).mpr ((answers_withCtx hx).mp hs)
  | .error (.fault _), hs => obtain ⟨_, _, hnext, -⟩ := hs; cases hnext
  | .error (.refused _), hs => obtain ⟨_, _, hnext, -⟩ := hs; cases hnext

section OtherFields

variable (k : Nat) {i : Instr} {s t : State} {h : Handle} {off o n : Nat} {a : Value}
  (hi : fieldStored i = some (h, o, n)) (hw : exec i s = .next t)
include hi hw

/-- A read that overwriting the field does not change answers the same after the write. -/
theorem answers_kept {α : Type} {r : Ctx → Except Stop α} (hr : ∀ c d, Overwritten h o n c d → r d = r c)
    (val : α → Value) (hs : Answers (runOn .none s (answering val r)) a) :
    Answers (runOn .none t (answering val r)) a := by
  obtain ⟨x, d, hx, rfl, hd⟩ := exec_overwrites hi hw
  have hworker : d.worker = s.active := hd.worker
  have hctx : (⟨d.inst, d.mem, s.active⟩ : Ctx) = d := by rw [← hworker]
  exact answers_congr hx (State.withCtx_tuple? d s x hx) ((congrArg r hctx).trans (hr _ _ hd)) val a hs

theorem readU32_kept (hapart : off + k + 4 ≤ o ∨ o + n ≤ off + k) :
    Answers (runOn .none s (answering .u32 fun c => c.readU32 ⟨h, off⟩ k)) a →
      Answers (runOn .none t (answering .u32 fun c => c.readU32 ⟨h, off⟩ k)) a :=
  answers_kept hi hw (fun _ _ hd => congrArg (· >>= fun b => .ok (be32 b)) (hd.memRead_eq hapart)) .u32

theorem readU8_kept (hapart : off + k + 1 ≤ o ∨ o + n ≤ off + k) :
    Answers (runOn .none s (answering .u8 fun c => c.readU8 ⟨h, off⟩ k)) a →
      Answers (runOn .none t (answering .u8 fun c => c.readU8 ⟨h, off⟩ k)) a :=
  answers_kept hi hw (fun _ _ hd => congrArg (· >>= fun b => .ok (byte1 b)) (hd.memRead_eq hapart)) .u8

theorem readBytes_kept {m : Nat} (hapart : off + k + m ≤ o ∨ o + n ≤ off + k) :
    Answers (runOn .none s (answering .bytes fun c => c.memRead h (off + k) m)) a →
      Answers (runOn .none t (answering .bytes fun c => c.memRead h (off + k) m)) a :=
  answers_kept hi hw (fun _ _ hd => hd.memRead_eq hapart) .bytes

end OtherFields

/-- Settles O21: the three fields of a view are ranges apart from each other. -/
theorem fieldWriteKeepsOtherFields : Obligations.FieldWriteKeepsOtherFields := by
  intro s t h off a
  refine ⟨fun v hw => ?spi, fun v hw => ?seq, fun v hw => ?iv, fun v hw => ?padlen, fun v hw => ?next,
    fun v hw => ?auth⟩
  case spi => exact ⟨readU32_kept 4 rfl hw (by simp), readBytes_kept 8 rfl hw (by simp)⟩
  case seq => exact ⟨readU32_kept 0 rfl hw (by simp), readBytes_kept 8 rfl hw (by simp)⟩
  case iv => exact ⟨readU32_kept 0 rfl hw (by simp), readU32_kept 4 rfl hw (by simp)⟩
  case padlen => exact ⟨readU8_kept 1 rfl hw (by simp), readBytes_kept 2 rfl hw (by simp)⟩
  case next => exact ⟨readU8_kept 0 rfl hw (by simp), readBytes_kept 2 rfl hw (by simp)⟩
  case auth => exact ⟨readU8_kept 0 rfl hw (by simp), readU8_kept 1 rfl hw (by simp)⟩

end Sys2Proof.Machine

/-! ## Views and their fields (40_wire_codec.md R121 to R135) -/

namespace Sys2Proof.Machine

section Views

variable {c : Ctx} {h : Handle} {off : Nat} {b : List Byte} (hb : c.mem.get h = some b)
include hb

theorem hdrView_pastEnd (hn : b.length < off + 24) : c.hdrView h off = .error (.fault .codecBounds) :=
  bind_of_ok (buffer_eq hb) (by rw [decide_eq_false (Nat.not_le.mpr hn)]; rfl)

theorem trlView_pastEnd (hn : b.length < off + 14) : c.trlView h off = .error (.fault .codecBounds) :=
  bind_of_ok (buffer_eq hb) (by rw [decide_eq_false (Nat.not_le.mpr hn)]; rfl)

end Views

/-- Settles O14. -/
theorem viewsNeedTheirBytes : Obligations.ViewsNeedTheirBytes := by
  intro s x h off b hx hb
  refine ⟨fun hn => ?hdr, fun hn => ?hdrPastEnd, fun hn => ?trl, fun hn => ?trlPastEnd⟩
  case hdr => exact runOn_of_ok hx (bind_of_ok (hdrView_eq hb hn) rfl)
  case hdrPastEnd => exact exec_of_body_fault hx fun _ => bind_of_error (hdrView_pastEnd hb hn)
  case trl => exact runOn_of_ok hx (bind_of_ok (trlView_eq hb hn) rfl)
  case trlPastEnd => exact exec_of_body_fault hx fun _ => bind_of_error (trlView_pastEnd hb hn)

section Fields

variable (k : Nat) {s : State} {x : Espc} {h : Handle} {off : Nat} {b : List Byte} (hx : s.tuple? = some x)
  (hb : s.mem.get h = some b)
include hx hb

theorem runOn_readU32 (hn : off + k + 4 ≤ b.length) :
    runOn .none s (answering .u32 fun c => c.readU32 ⟨h, off⟩ k)
      = .next (s.withCtx ⟨{ x with result := .u32 (be32 (slice b (off + k) 4)) }, s.mem, s.active⟩) :=
  runOn_of_ok hx (bind_of_ok (readU32_eq hb hn) rfl)

theorem runOn_readU8 (hn : off + k + 1 ≤ b.length) :
    runOn .none s (answering .u8 fun c => c.readU8 ⟨h, off⟩ k)
      = .next (s.withCtx ⟨{ x with result := .u8 (b.getD (off + k) 0) }, s.mem, s.active⟩) := by
  rw [← byte1_slice]
  exact runOn_of_ok hx (bind_of_ok (readU8_eq hb hn) rfl)

theorem runOn_readBytes {n : Nat} (hn : off + k + n ≤ b.length) :
    runOn .none s (answering .bytes fun c => c.memRead h (off + k) n)
      = .next (s.withCtx ⟨{ x with result := .bytes (slice b (off + k) n) }, s.mem, s.active⟩) :=
  runOn_of_ok hx (bind_of_ok (memRead_eq hb hn) rfl)

theorem runOn_writeField {v : List Byte} (hn : off + k + v.length ≤ b.length) :
    runOn .none s (fun c => c.memWrite h (off + k) v)
      = .next (s.withCtx ⟨x, s.mem.put h (splice b (off + k) v), s.active⟩) :=
  runOn_of_ok hx (memWrite_eq hb hn)

/-- A write of a field of fixed length, of which the operand has the length. -/
theorem runOn_writeBytes {v : List Byte} {ok : Bool} (hok : ok = true) (hn : off + k + v.length ≤ b.length) :
    runOn .none s (fun c => requireOperand ok >>= fun _ => c.memWrite h (off + k) v)
      = .next (s.withCtx ⟨x, s.mem.put h (splice b (off + k) v), s.active⟩) :=
  runOn_of_ok hx ((requireOperand_bind hok _).trans (memWrite_eq hb hn))

end Fields

/-- Settles O15: all six fields lie inside their view. -/
theorem fieldReads : Obligations.FieldReads := by
  intro s x h off b hx hb
  refine ⟨fun hn => ⟨?spi, ?seq, ?iv⟩, fun hn => ⟨?padlen, ?next, ?auth⟩⟩
  case spi => exact runOn_readU32 0 hx hb (by omega)
  case seq => exact runOn_readU32 4 hx hb (by omega)
  case iv => exact runOn_readBytes 8 hx hb hn
  case padlen => exact runOn_readU8 0 hx hb (by omega)
  case next => exact runOn_readU8 1 hx hb (by omega)
  case auth => exact runOn_readBytes 2 hx hb hn

/-- Settles O16: all six fields lie inside their view. -/
theorem fieldWrites : Obligations.FieldWrites := by
  intro s x h off b hx hb
  refine ⟨fun hn => ⟨fun v => ?spi, fun v => ?seq, fun v hv => ?iv⟩,
    fun hn => ⟨fun v => ?padlen, fun v => ?next, fun v hv => ?auth⟩⟩
  case spi => exact runOn_writeField 0 hx hb (by simp; omega)
  case seq => exact runOn_writeField 4 hx hb (by simp; omega)
  case iv => exact runOn_writeBytes 8 hx hb (beq_iff_eq.mpr hv) (by simp; omega)
  case padlen => exact runOn_writeField 0 hx hb (by simp; omega)
  case next => exact runOn_writeField 1 hx hb (by simp; omega)
  case auth => exact runOn_writeBytes 2 hx hb (beq_iff_eq.mpr hv) (by simp; omega)

end Sys2Proof.Machine

/-! ## The scalar crypto context (41_crypto_contexts.md R150 to R155) -/

namespace Sys2Proof.Machine

theorem scEnc_partialBlock {c : Ctx} {iv : List Byte} {d : Region} (h16 : d.n % 16 ≠ 0) :
    c.scEnc iv d = .error (.raised .invalidBlockLength d.h c) := if_neg h16

theorem scDec_partialBlock {c : Ctx} {iv : List Byte} {d : Region} (h16 : d.n % 16 ≠ 0) :
    c.scDec iv d = .error (.raised .invalidBlockLength d.h c) := if_neg h16

/-! ### The three operations performed by themselves -/

section Ready

variable {s : State} {x : Espc} (hx : s.tuple? = some x) (hphase : x.phase = .ready)
include hx hphase

theorem exec_scEnc_eq {iv : List Byte} {d : Region} (hiv : iv.length = 16) :
    exec (.scEnc iv d) s = conclude .none s ((⟨x, s.mem, s.active⟩ : Ctx).scEnc iv d) :=
  (exec_eq_conclude hx).trans (congrArg (conclude .none s)
    ((requireOperand_bind (beq_iff_eq.mpr hiv) _).trans (requireReady_bind hphase _)))

theorem exec_scDec_eq {iv : List Byte} {d : Region} (hiv : iv.length = 16) :
    exec (.scDec iv d) s = conclude .none s ((⟨x, s.mem, s.active⟩ : Ctx).scDec iv d) :=
  (exec_eq_conclude hx).trans (congrArg (conclude .none s)
    ((requireOperand_bind (beq_iff_eq.mpr hiv) _).trans (requireReady_bind hphase _)))

end Ready

/-- Settles O22. -/
theorem scEncEncryptsInPlace : Obligations.ScEncEncryptsInPlace :=
  fun s _ _ _ _ hx hphase hiv hb h16 hn =>
    (exec_scEnc_eq hx hphase hiv).trans (congrArg (conclude .none s) (scEnc_eq hb h16 hn))

/-- Settles O23. -/
theorem scDecDecryptsInPlace : Obligations.ScDecDecryptsInPlace :=
  fun s _ _ _ _ hx hphase hiv hb h16 hn =>
    (exec_scDec_eq hx hphase hiv).trans (congrArg (conclude .none s) (scDec_eq hb h16 hn))

/-- Settles O24. -/
theorem scAuthDigests : Obligations.ScAuthDigests :=
  fun _ _ _ _ hx hphase hb hn => ⟨hmacSha1_length _ _,
    runOn_of_ok hx ((requireReady_bind hphase _).trans (bind_of_ok (scAuth_eq hb hn) rfl))⟩

/-- Settles O25: the block length is checked before the packet is looked up, and the drop drives no state machine. -/
theorem partialBlockIsDropped : Obligations.PartialBlockIsDropped :=
  fun s _ _ _ hx hphase hiv h16 =>
    ⟨(exec_scEnc_eq hx hphase hiv).trans (congrArg (conclude .none s) (scEnc_partialBlock h16)),
      (exec_scDec_eq hx hphase hiv).trans (congrArg (conclude .none s) (scDec_partialBlock h16))⟩

/-! ### What the two in-place ciphers share -/

/-- `d` is `c` after an in-place cipher of region `r`: the region's bytes under `cipher` and the event `ev`, or, for a
partial block, the verdict of the drop alone (R151, R152). -/
def Ciphered (cipher : List Byte → List Byte) (ev : Event) (r : Region) (c d : Ctx) : Prop :=
  (r.n % 16 = 0 ∧ ∃ b, c.mem.get r.h = some b ∧ r.off + r.n ≤ b.length ∧
    d = (c.withMem (c.mem.put r.h (splice b r.off (cipher (slice b r.off r.n))))).traced ev) ∨
  (r.n % 16 ≠ 0 ∧ d = c.reported (.drop .invalidBlockLength r.h))

/-- An operation that checks its IV and `PHASE` and then ciphers in place, taking the drop of a partial block. -/
theorem ciphered_of_post {iv : List Byte} {r : Region} {c : Ctx} {f : Ctx → Except Stop Ctx}
    {cipher : List Byte → List Byte} {ev : Event}
    (hf : Post (fun d => r.n % 16 = 0 ∧ ∃ b, c.mem.get r.h = some b ∧ r.off + r.n ≤ b.length ∧
        d = (c.withMem (c.mem.put r.h (splice b r.off (cipher (slice b r.off r.n))))).traced ev)
      (fun e h d => r.n % 16 ≠ 0 ∧ e = .invalidBlockLength ∧ h = r.h ∧ d = c) (f c)) :
    Post (Ciphered cipher ev r c) (fun e h d => Ciphered cipher ev r c (takeDrop .none e h d))
      (requireOperand (isBytes16 iv) >>= fun _ => c.requireReady >>= fun _ => f c) := by
  refine (requireOperand_post _).quiet.bind fun _ _ => (requireReady_post c).quiet.bind fun _ _ =>
    hf.mono (fun _ hd => .inl hd) ?_
  rintro e h d ⟨h16, rfl, rfl, rfl⟩
  exact .inr ⟨h16, rfl⟩

/-- The command from `s` to `t` ciphers in place, under the encryption key of the active tuple. -/
def CiphersInPlace (cipher : (key data : List Byte) → List Byte) (ev : Event) (r : Region) (s t : State) : Prop :=
  ∃ x d, s.tuple? = some x ∧ t = s.withCtx d ∧
    Ciphered (cipher x.encKey.toList) ev r ⟨x, s.mem, s.active⟩ d

theorem exec_scEnc_ciphers {s t : State} {iv : List Byte} {r : Region} (h : exec (.scEnc iv r) s = .next t) :
    CiphersInPlace (fun key => Config.aesCbcEnc key iv) (.scEnc r.h) r s t :=
  exec_post (Q := fun x d => Ciphered (Config.aesCbcEnc x.encKey.toList iv) (.scEnc r.h) r ⟨x, s.mem, s.active⟩ d) h
    fun _ _ => ciphered_of_post (f := fun c => c.scEnc iv r) (scEnc_post _ iv r)

theorem exec_scDec_ciphers {s t : State} {iv : List Byte} {r : Region} (h : exec (.scDec iv r) s = .next t) :
    CiphersInPlace (fun key => Config.aesCbcDec key iv) (.scDec r.h) r s t :=
  exec_post (Q := fun x d => Ciphered (Config.aesCbcDec x.encKey.toList iv) (.scDec r.h) r ⟨x, s.mem, s.active⟩ d) h
    fun _ _ => ciphered_of_post (f := fun c => c.scDec iv r) (scDec_post _ iv r)

section Ciphered

variable {f g : List Byte → List Byte} {ev ev' : Event} {r : Region} {c d : Ctx}

/-- A cipher that keeps lengths overwrites the bytes of its region only. -/
theorem Ciphered.moves (hf : ∀ y, (f y).length = y.length) (h : Ciphered f ev r c d) :
    Moves (.range r.h r.off r.n) c d := by
  obtain ⟨-, b, hb, hn, rfl⟩ | ⟨-, rfl⟩ := h
  · have hlen : (f (slice b r.off r.n)).length = r.n := (hf _).trans (slice_length b _ _ hn)
    have hcover : (Licence.range r.h r.off r.n).Covers r.h r.off (f (slice b r.off r.n)).length :=
      .inr fun _ h1 h2 => ⟨rfl, h1, hlen ▸ h2⟩
    exact (Moves.splice hb (hlen.symm ▸ hn) hcover).step (.traced ev)
  · exact (Move.reported _).moves

theorem Ciphered.inst (h : Ciphered f ev r c d) :
    ∃ tr vs, d.inst = { c.inst with trace := tr, verdicts := vs } := by
  obtain ⟨-, b, -, -, rfl⟩ | ⟨-, rfl⟩ := h
  · exact ⟨_, c.inst.verdicts, rfl⟩
  · exact ⟨c.inst.trace, _, rfl⟩

/-- The inverse cipher over the same region of the packets that the first one left gives every packet back. -/
theorem Ciphered.undo {c' d' : Ctx} (hf : ∀ y, (f y).length = y.length) (hgf : ∀ y, g (f y) = y)
    (h16 : r.n % 16 = 0) (h : Ciphered f ev r c d) (h' : Ciphered g ev' r c' d') (hmem : c'.mem = d.mem)
    (k : Handle) : d'.mem.get k = c.mem.get k := by
  obtain ⟨-, b, hb, hn, rfl⟩ | ⟨hpart, -⟩ := h
  swap
  · exact absurd h16 hpart
  obtain ⟨-, b', hb', hn', rfl⟩ | ⟨hpart, -⟩ := h'
  swap
  · exact absurd h16 hpart
  have hlen : (f (slice b r.off r.n)).length = r.n := (hf _).trans (slice_length b _ _ hn)
  have hfit : r.off + (f (slice b r.off r.n)).length ≤ b.length := hlen.symm ▸ hn
  obtain rfl : splice b r.off (f (slice b r.off r.n)) = b' := by simpa [hmem] using hb'
  have hread : slice (splice b r.off (f (slice b r.off r.n))) r.off r.n = f (slice b r.off r.n) := by
    simpa only [hlen] using slice_splice_same b r.off _ hfit
  have hback : splice (splice b r.off (f (slice b r.off r.n))) r.off (slice b r.off r.n) = b :=
    (splice_splice_same b r.off _ _ hfit (hf _).symm).trans (splice_slice_self b _ _ hn)
  simp only [hread, hgf, hback, hmem, Ctx.traced_mem, Ctx.withMem_mem, Memory.put_put]
  by_cases hk : k = r.h
  · rw [hk, Memory.get_put_same, hb]
  · exact Memory.get_put_other _ _ _ _ hk

end Ciphered

/-- What a cipher that keeps lengths leaves unchanged (R150 to R152). -/
theorem CiphersInPlace.frame {f : List Byte → List Byte → List Byte} {ev : Event} {r : Region} {s t : State}
    (h : CiphersInPlace f ev r s t) (hf : ∀ k y, (f k y).length = y.length) :
    (∀ g o, (g ≠ r.h ∨ o < r.off ∨ r.off + r.n ≤ o) → t.mem.byteAt g o = s.mem.byteAt g o) ∧
    (∀ g, (t.mem.get g).map List.length = (s.mem.get g).map List.length) ∧
    ∃ x tr vs, s.tuple? = some x ∧ t = s.withCtx ⟨{ x with trace := tr, verdicts := vs }, t.mem, s.active⟩ := by
  obtain ⟨x, d, hx, rfl, hd⟩ := h
  have hmoves := hd.moves (hf _)
  obtain ⟨tr, vs, hinst⟩ := hd.inst
  refine ⟨fun g o ho => hmoves.byteAt_kept not_false ?_, fun g => hmoves.length_kept not_false, x, tr, vs, hx, ?_⟩
  · rintro ⟨hg, h1, h2⟩
    obtain hne | hlt | hge := ho
    · exact hne hg
    · omega
    · omega
  · simp only [State.withCtx, hinst]

/-- A cipher and its inverse over one region: the first leaves in the tuple the key that the second reads. -/
theorem CiphersInPlace.roundTrip {f g : List Byte → List Byte → List Byte} {ev ev' : Event} {r : Region}
    {s t u : State} (h : CiphersInPlace f ev r s t) (h' : CiphersInPlace g ev' r t u)
    (hf : ∀ k y, (f k y).length = y.length) (hgf : ∀ k y, g k (f k y) = y) (h16 : r.n % 16 = 0) (k : Handle) :
    u.mem.get k = s.mem.get k := by
  obtain ⟨x, d, hx, rfl, hd⟩ := h
  obtain ⟨y, e, hy, rfl, he⟩ := h'
  obtain ⟨tr, vs, hinst⟩ := hd.inst
  obtain rfl : d.inst = y := Option.some.inj ((State.withCtx_tuple? d s x hx).symm.trans hy)
  rw [hinst] at he
  exact hd.undo (hf _) (hgf _) h16 he rfl k

/-- Settles O26: both ciphers keep the length of what they cipher, so each overwrites its region and no other byte. -/
theorem cipherFrame : Obligations.CipherFrame := by
  rintro s t iv r (h | h)
  · exact (exec_scEnc_ciphers h).frame fun k y => aesCbcEnc_length k iv y
  · exact (exec_scDec_ciphers h).frame fun k y => aesCbcDec_length k iv y

/-- Settles O27. -/
theorem cipherRoundTrip : Obligations.CipherRoundTrip := by
  refine fun s t u iv r h16 => ⟨fun henc hdec => ?_, fun hdec henc => ?_⟩
  · exact (exec_scEnc_ciphers henc).roundTrip (exec_scDec_ciphers hdec) (fun k y => aesCbcEnc_length k iv y)
      (fun k y => aesCbcDec_aesCbcEnc k iv y) h16
  · exact (exec_scDec_ciphers hdec).roundTrip (exec_scEnc_ciphers henc) (fun k y => aesCbcDec_length k iv y)
      (fun k y => aesCbcEnc_aesCbcDec k iv y) h16

end Sys2Proof.Machine

/-! ## The vector crypto context (41_crypto_contexts.md R156 to R167) -/

namespace Sys2Proof.Machine

/-! ### Contract conditions -/

theorem requireContract_bind {β : Type} {b : Bool} (hb : b = true) (f : Unit → Except Stop β) :
    (requireContract b >>= f) = f () := by
  subst hb; rfl

theorem contract_violated {β : Type} {b : Bool} (hb : b = false) (f : Unit → Except Stop β) :
    (requireContract b >>= f) = .error (.fault .contractViolation) := by
  subst hb; rfl

/-! ### Registering and counting -/

theorem vcReg_contract {c : Ctx} {sl : Slot} (h : 8 ≤ c.inst.count ∨ sl.ctLen % 16 ≠ 0) :
    c.vcReg sl = .error (.fault .contractViolation) := by
  by_cases hroom : c.inst.count < 8
  · have hpart : sl.ctLen % 16 ≠ 0 := h.resolve_left (Nat.not_le.mpr hroom)
    exact (requireContract_bind (decide_eq_true hroom) _).trans (contract_violated (beq_false_of_ne hpart) _)
  · exact contract_violated (decide_eq_false hroom) _

/-- Settles O28. -/
theorem vcRegRegisters : Obligations.VcRegRegisters :=
  fun _ _ _ hx hphase =>
    ⟨fun hcount h16 => runOn_of_ok hx ((requireReady_bind hphase _).trans (vcReg_eq hcount h16)),
      fun h => exec_of_body_fault hx fun _ => (requireReady_bind hphase _).trans (vcReg_contract h)⟩

/-- Settles O29. -/
theorem countZeroIsNoOp : Obligations.CountZeroIsNoOp := by
  intro s x hx hphase
  have hself : Host.Outcome.next (s.withCtx ⟨x, s.mem, s.active⟩) = (.next s : Outcome) :=
    congrArg _ (State.withCtx_self s x hx)
  exact ⟨(runOn_of_ok hx ((requireReady_bind hphase _).trans (if_pos rfl))).trans hself,
    (runOn_of_ok hx ((requireReady_bind hphase _).trans (if_pos rfl))).trans hself⟩

theorem readSlots_eq {c : Ctx} {n : Nat} (hn : n ≤ c.inst.count) :
    c.readSlots n = .ok (c.inst.slots.toList.take n) := by
  simp [Ctx.readSlots, hn]

theorem readSlots_contract {c : Ctx} {n : Nat} (hn : c.inst.count < n) :
    c.readSlots n = .error (.fault .contractViolation) :=
  contract_violated (decide_eq_false (Nat.not_le.mpr hn)) _

/-- The two checks of a count that both `Encrypt` and `Authenticate` make before they read a packet (R165). -/
theorem countChecks_contract {c : Ctx} {n : Nat} {f : List Slot → Except Stop Ctx} (h : 8 < n ∨ c.inst.count < n) :
    (requireContract (decide (n ≤ Config.vector)) >>= fun _ => c.readSlots n >>= f)
      = .error (.fault .contractViolation) := by
  by_cases hvec : n ≤ Config.vector
  · have hcount : c.inst.count < n := h.resolve_left (Nat.not_lt.mpr hvec)
    exact (requireContract_bind (decide_eq_true hvec) _).trans (bind_of_error (readSlots_contract hcount))
  · exact contract_violated (decide_eq_false hvec) _

/-- Settles O30. -/
theorem countOutsideTheBatchFaults : Obligations.CountOutsideTheBatchFaults := by
  intro s x n hx hphase h
  have hpos : n ≠ 0 := by omega
  have hout : 8 < n ∨ x.count < n := h.imp_right And.right
  exact ⟨exec_of_body_fault hx fun _ =>
      (requireReady_bind hphase _).trans ((if_neg hpos).trans (countChecks_contract hout)),
    exec_of_body_fault hx fun _ =>
      (requireReady_bind hphase _).trans ((if_neg hpos).trans (countChecks_contract hout))⟩

/-! ### `Encrypt`, `Authenticate` and the flush -/

theorem take_slots_length (x : Espc) {n : Nat} (hn : n ≤ 8) : (x.slots.toList.take n).length = n := by
  simp [hn]

/-- Settles O31. -/
theorem vcEncryptEncryptsEachSlot : Obligations.VcEncryptEncryptsEachSlot := by
  intro s x n hx hphase hcount hn hbatch
  obtain ⟨m, heach, henc⟩ := vcEncrypt_eq (c := ⟨x, s.mem, s.active⟩) (readSlots_eq hcount)
    (take_slots_length x hn) hn hbatch
  exact ⟨m, heach, runOn_of_ok hx ((requireReady_bind hphase _).trans henc)⟩

/-- Settles O32. -/
theorem vcAuthAuthenticatesEachSlot : Obligations.VcAuthAuthenticatesEachSlot := by
  intro s x n hx hphase hcount hn hbatch
  obtain ⟨m, heach, hauth⟩ := vcAuth_eq (c := ⟨x, s.mem, s.active⟩) (readSlots_eq hcount)
    (take_slots_length x hn) hn hbatch
  exact ⟨m, heach, runOn_of_ok hx ((requireReady_bind hphase _).trans hauth)⟩

/-- Settles O33: the flush is the two passes over one batch, and both keep every packet's length. -/
theorem vcFlushCompletesTheBatch : Obligations.VcFlushCompletesTheBatch := by
  intro s x hx hphase hcount hbatch
  obtain ⟨m, heach, hflush⟩ := vcFlush_eq_flushed (c := ⟨x, s.mem, s.active⟩) hcount hbatch
  exact ⟨m, heach, runOn_of_ok hx ((requireReady_bind hphase _).trans hflush)⟩

/-! ### One slot by the scalar operations -/

theorem slotEncrypted_length (x : Espc) {sl : Slot} {b : List Byte} (hct : sl.ctOff + sl.ctLen ≤ b.length) :
    (slotEncrypted x sl b).length = b.length :=
  splice_length _ _ _ (by rwa [aesCbcEnc_length, slice_length b _ _ hct])

/-- Settles O34: `SC.ENC` of the slot leaves its packet encrypted, `SC.AUTH` digests what it left, and the flush, by
whichever path, writes that digest over those bytes. -/
theorem vectorAndScalarPathsAgree : Obligations.VectorAndScalarPathsAgree := by
  intro s x t hx hphase _ hcount hbatch hflush sl hsl b hb
  obtain ⟨m, ⟨heach, -⟩, hflush'⟩ := vcFlushCompletesTheBatch s x hx hphase hcount hbatch
  obtain rfl := Host.Outcome.next.inj (hflush.symm.trans hflush')
  obtain ⟨⟨b', hb', hct, hiv, hau, -⟩, h16⟩ := hbatch.1 sl hsl
  obtain rfl : b = b' := Option.some.inj (hb.symm.trans hb')
  have henc := scEncEncryptsInPlace s x (slice b sl.ivOff 16) sl.ct b hx hphase (slice_length b _ _ hiv) hb h16 hct
  have hau' : sl.auOff + sl.auLen ≤ (slotEncrypted x sl b).length := (slotEncrypted_length x hct).symm ▸ hau
  have hy := State.withCtx_tuple? ⟨{ x with trace := x.trace ++ [.scEnc sl.pkt] },
    s.mem.put sl.pkt (slotEncrypted x sl b), s.active⟩ s x hx
  obtain ⟨-, hauth⟩ := scAuthDigests _ _ sl.au _ hy hphase (Memory.get_put_same _ _ _) hau'
  exact ⟨_, _, _, _, henc, hauth, Memory.get_put_same _ _ _,
    ⟨_, _, hauth, State.withCtx_tuple? _ _ _ hy, rfl⟩, heach sl hsl b hb⟩

/-! ### The multi-buffer calls -/

theorem mbEnc_contract {c : Ctx} {key : List Byte} {ivs xs : List (List Byte)} (h : ivs.length ≠ 8 ∨ xs.length ≠ 8) :
    c.mbEnc key ivs xs = .error (.fault .contractViolation) := by
  refine contract_violated ?_ _
  obtain h | h := h <;> simp [h]

theorem mbHmac_contract {c : Ctx} {key : List Byte} {lanes : List (List Byte)} (h : lanes.length ≠ 8) :
    c.mbHmac key lanes = .error (.fault .contractViolation) :=
  contract_violated (beq_false_of_ne h) _

/-- Settles O35. -/
theorem mbEncLanes : Obligations.MbEncLanes := by
  intro s x key ivs xs hx hwf
  obtain ⟨hoperand, hblocks⟩ := Bool.and_eq_true_iff.mp hwf
  exact ⟨fun hivs hxs => runOn_of_ok hx
      ((requireOperand_bind hoperand _).trans (bind_of_ok (mbEnc_eq hivs hxs hblocks) rfl)),
    fun h => exec_of_body_fault hx fun _ =>
      (requireOperand_bind hoperand _).trans (bind_of_error (mbEnc_contract h))⟩

/-- Settles O36. -/
theorem mbHmacLanes : Obligations.MbHmacLanes :=
  fun _ _ _ _ hx hkey =>
    ⟨fun hlanes => runOn_of_ok hx
      ((requireOperand_bind (beq_iff_eq.mpr hkey) _).trans (bind_of_ok (mbHmac_eq hlanes) rfl)),
    fun h => exec_of_body_fault hx fun _ =>
      (requireOperand_bind (beq_iff_eq.mpr hkey) _).trans (bind_of_error (mbHmac_contract h))⟩

end Sys2Proof.Machine

/-! ## The push that fills the batch (41_crypto_contexts.md R160; 42_encapsulation.md R192, R194, R196) -/

namespace Sys2Proof.Machine

/-- A pass over a batch whose last packet was just stored: the last packet done, and a pass over the others. -/
theorem EachPacket.last {f : Slot → List Byte → List Byte} {sls : List Slot} {sl : Slot} {b : List Byte}
    {m m' : Memory} (h : EachPacket f (sls ++ [sl]) (m.put sl.pkt b) m') (hne : ∀ q ∈ sls, q.pkt ≠ sl.pkt) :
    m'.get sl.pkt = some (f sl b) ∧ EachPacket f sls (m.put sl.pkt (f sl b)) m' := by
  obtain ⟨hdone, hother⟩ := h
  have hlast : m'.get sl.pkt = some (f sl b) := hdone sl (by simp) b (Memory.get_put_same _ _ _)
  refine ⟨hlast, fun q hq a ha => hdone q (by simp [hq]) a ?_, fun g hg => ?_⟩
  · rw [Memory.get_put_other _ _ _ _ (hne q hq)] at ha ⊢
    exact ha
  · by_cases hlastPkt : g = sl.pkt
    · rw [hlastPkt, hlast, Memory.get_put_same]
    · rw [hother g (fun q hq => ?_), Memory.get_put_other _ _ _ _ hlastPkt, Memory.get_put_other _ _ _ _ hlastPkt]
      obtain hq | hq := List.mem_append.mp hq
      · exact hg q hq
      · exact List.mem_singleton.mp hq ▸ Ne.symm hlastPkt

/-- A flush of the pushed batch completes the pushed packet and the packets before it (R160, R196). -/
theorem vcFlush_pushed_each {c d : Ctx} {h : Handle} {iv b : List Byte} (hp : Pushable c h iv b)
    (hbatch : BatchOk c.mem c.inst.batch) (hd : SameBatch (c.pushed h iv b) d) :
    ∃ m, d.vcFlush = .ok (d.flushed m) ∧
      m.get h = some (completedFrame c.inst (fillAt c.worker c.inst.draws) iv b) ∧
      EachPacket (slotCompleted c.inst) c.inst.batch
        (c.mem.put h (completedFrame c.inst (fillAt c.worker c.inst.draws) iv b)) m := by
  have hcount : d.inst.count ≤ 8 := hd.count ▸ Nat.succ_le_succ hp.room
  have hok : BatchOk d.mem d.inst.batch := by
    rw [hd.mem, hd.batch]
    exact pushed_batchOk hp hbatch
  obtain ⟨m, heach, hflush⟩ := vcFlush_eq_flushed hcount hok
  rw [slotCompleted_congr (x := c.inst) hd.encKey hd.authKey, hd.batch, hd.mem, pushed_batch hp] at heach
  refine ⟨m, hflush, ?_⟩
  rw [← slotCompleted_inFlight c.inst h _ hp.iv16 hp.long]
  exact EachPacket.last heach (notInFlight_ne hp.notInFlight)

/-- The flush of a full batch is one call of each multi-buffer backend (R158, R159). -/
theorem flushed_of_full {c : Ctx} (m : Memory) (hfull : c.inst.batch.length = 8) :
    c.flushed m = { c with mem := m, inst := { c.inst with
      count := 0, out := c.inst.out ++ c.inst.batch.map Slot.pkt, trace := c.inst.trace ++ [.mbEnc, .mbHmac] } } := by
  simp [Ctx.flushed, encryptEvents, authEvents, hfull]

/-- Settles O39: the push finds the batch full and flushes it, the new packet being the last of eight. -/
theorem eighthPushFlushes : Obligations.EighthPushFlushes := by
  intro s x h iv b hx hphase hiv hb hfl h34 hmax hfull hbatch
  have hp : Pushable ⟨x, s.mem, s.active⟩ h iv b := ⟨hb, hiv, hfl, h34, hmax, hfull.le⟩
  obtain ⟨m, hflush, hframe, heach⟩ := vcFlush_pushed_each hp hbatch (setEnc_sameBatch _ .flushVector)
  have hslots : ((Ctx.pushed ⟨x, s.mem, s.active⟩ h iv b).setEnc .flushVector).inst.batch
      = x.batch ++ [slotOf h (grownLength (b.length - 14))] := pushed_batch hp
  have hpkts : (x.batch ++ [slotOf h (grownLength (b.length - 14))]).map Slot.pkt = x.batch.map Slot.pkt ++ [h] :=
    List.map_append
  have hcount : x.batch.length = 7 := (batch_length x (by omega)).trans hfull
  have hlen : (x.batch ++ [slotOf h (grownLength (b.length - 14))]).length = 8 := by simp [hcount]
  rw [flushed_of_full m (hslots ▸ hlen), hslots, hpkts] at hflush
  refine ⟨m, (exec_encPush_of_ok hx hphase hp
    ((encapsulate_eq_pushed hp).trans (bind_of_ok ((if_pos hfull).trans hflush) rfl))).trans ?_, hframe, heach⟩
  simp only [Ctx.pushed, hfull]
  rfl

end Sys2Proof.Machine

/-! ## The round trip: `DEC` after the encapsulation of a plain frame (43_decapsulation.md R221, R224) -/

namespace Sys2Proof.Machine

/-! ### `DEC` of an authentic frame -/

/-- The frame `b` passes every test of `DEC` (R212 to R219). -/
structure Authentic (x : Espc) (b : List Byte) : Prop where
  long : 72 ≤ b.length
  spi : be32 (slice b 34 4) = x.saId
  mac : espMacOk x b
  blocks : (b.length - 70) % 16 = 0
  trailer : espPadLen x b + 2 ≤ b.length - 70

/-- The packet that `DEC` makes of an authentic frame: the Ethernet header and the original packet (R219). -/
def restored (x : Espc) (b : List Byte) : List Byte :=
  b.take 14 ++ (espPlain x b).take (b.length - 72 - espPadLen x b)

/-- The five stages of `DEC` of an authentic frame, and its end (R210, R221). -/
theorem decapsulate_of_authentic {c : Ctx} {h : Handle} {b : List Byte} (hb : c.mem.get h = some b)
    (ha : Authentic c.inst b) :
    c.decapsulate h = .ok { c with
      mem := c.mem.put h (restored c.inst b)
      inst := { c.inst with
        decState := .idle
        trace := c.inst.trace ++ [.scAuth h, .scDec h]
        verdicts := c.inst.verdicts ++ [.ok h] } } := by
  refine bind_of_ok (stageReceiveEsp_eq (c := c.setDec .receiveEsp) hb ha.long) ?_
  refine bind_of_ok (stageLookupSa_eq hb ha.long ha.spi) ?_
  refine bind_of_ok (stageVerifyMac_eq (c := (c.setDec .lookupSa).setDec .verifyMac) hb ha.long ha.mac) ?_
  refine bind_of_ok (stageDecrypt_eq (c := (c.traced (.scAuth h)).setDec .decrypt) hb ha.long ha.blocks) ?_
  refine bind_of_ok (stageStripHeaders_eq ha.long (espPlain_length c.inst b ha.long) (Memory.get_put_same c.mem h _)
    ha.trailer) ?_
  simp [finishOk, Ctx.setDec, Ctx.traced, Ctx.reported, Ctx.withMem, restored, espPadLen]

theorem exec_dec_of_authentic {s : State} {x : Espc} {h : Handle} {b : List Byte} (hx : s.tuple? = some x)
    (hphase : x.phase = .ready) (hb : s.mem.get h = some b) (hfl : x.inFlight h = false) (ha : Authentic x b) :
    exec (.dec h) s = .next (s.withCtx ⟨{ x with
      decState := .idle, trace := x.trace ++ [.scAuth h, .scDec h], verdicts := x.verdicts ++ [.ok h] },
      s.mem.put h (restored x b), s.active⟩) :=
  runOn_of_ok hx ((requireReady_bind hphase _).trans (bind_of_ok (buffer_eq hb)
    (bind_of_ok (requireNotInFlight_eq hfl) (decapsulate_of_authentic (c := ⟨x, s.mem, s.active⟩) hb ha))))

/-! ### What `DEC` reads in a completed frame -/

theorem innerPlaintext_take (p : List Byte) : (innerPlaintext p).take p.length = p := by
  simp [innerPlaintext]

theorem innerPlaintext_padLen (p : List Byte) :
    (innerPlaintext p).getD (p.length + padLength p.length) 0 = BitVec.ofNat 8 (padLength p.length) := by
  simp [innerPlaintext, List.getD_eq_getElem?_getD]

/-- The ciphertext region of the completed frame (42_encapsulation.md R196). -/
def frameCt (x : Espc) (iv b : List Byte) : List Byte :=
  Config.aesCbcEnc x.encKey.toList iv (innerPlaintext (b.drop 14))

/-- The `auth` field of the completed frame (R196). -/
def frameMac (x : Espc) (f : Nat → Byte) (iv b : List Byte) : List Byte :=
  (Config.hmacSha1 x.authKey.toList (espHeader x f iv ++ frameCt x iv b)).take 12

theorem frameCt_length (x : Espc) (iv b : List Byte) :
    (frameCt x iv b).length = grownLength (b.length - 14) - 70 := by
  simp [frameCt, innerPlaintext_length, grownLength]

@[simp] theorem frameMac_length (x : Espc) (f : Nat → Byte) (iv b : List Byte) : (frameMac x f iv b).length = 12 := by
  simp [frameMac]

theorem completedFrame_eq (x : Espc) (f : Nat → Byte) (iv b : List Byte) :
    completedFrame x f iv b = b.take 14 ++ outerHeader x f (grownLength (b.length - 14)) ++ espHeader x f iv ++
      frameCt x iv b ++ frameMac x f iv b := by
  simp [completedFrame, frameMac, frameCt]

theorem grownLength_ge {n : Nat} (hn : 34 ≤ n) : 92 ≤ grownLength (n - 14) := by
  unfold grownLength; omega

section CompletedFrame

variable {x y : Espc} {f : Nat → Byte} {iv b : List Byte} (h34 : 34 ≤ b.length)
include h34

theorem completedFrame_ethernet : (completedFrame x f iv b).take 14 = b.take 14 := by
  simp only [completedFrame_eq, List.append_assoc]
  exact List.take_left' (by simp; omega)

theorem completedFrame_spi : slice (completedFrame x f iv b) 34 4 = toBe32 x.saId := by
  have h := slice_at (a := b.take 14 ++ outerHeader x f (grownLength (b.length - 14))) (m := toBe32 x.saId)
    (z := [f 24, f 25, f 26, f 27] ++ iv ++ frameCt x iv b ++ frameMac x f iv b) (off := 34) (n := 4)
    (by simp; omega) rfl
  simpa [completedFrame_eq, espHeader] using h

variable (hiv : iv.length = 16)
include hiv

theorem completedFrame_iv : slice (completedFrame x f iv b) 42 16 = iv := by
  have h := slice_at (a := b.take 14 ++ outerHeader x f (grownLength (b.length - 14)) ++
      (toBe32 x.saId ++ [f 24, f 25, f 26, f 27])) (m := iv)
    (z := frameCt x iv b ++ frameMac x f iv b) (off := 42) (n := 16) (by simp; omega) hiv.symm
  simpa [completedFrame_eq, espHeader] using h

theorem completedFrame_ct :
    slice (completedFrame x f iv b) 58 (grownLength (b.length - 14) - 70) = frameCt x iv b := by
  rw [completedFrame_eq]
  exact slice_at (by simp [espHeader_length x f hiv]; omega) (frameCt_length x iv b).symm

theorem completedFrame_covered :
    slice (completedFrame x f iv b) 34 (grownLength (b.length - 14) - 46) = espHeader x f iv ++ frameCt x iv b := by
  have hlong := grownLength_ge h34
  rw [completedFrame_eq, List.append_assoc (b.take 14 ++ _)]
  exact slice_at (by simp; omega) (by simp [espHeader_length x f hiv, frameCt_length]; omega)

theorem completedFrame_mac :
    slice (completedFrame x f iv b) (grownLength (b.length - 14) - 12) 12 = frameMac x f iv b := by
  have hlong := grownLength_ge h34
  have h := slice_at (a := b.take 14 ++ outerHeader x f (grownLength (b.length - 14)) ++ espHeader x f iv ++
    frameCt x iv b) (m := frameMac x f iv b) (z := []) (off := grownLength (b.length - 14) - 12) (n := 12)
    (by simp [espHeader_length x f hiv, frameCt_length]; omega) (by simp)
  simpa only [completedFrame_eq, List.append_nil] using h

/-! ### A completed frame is authentic to a tuple with the same SA -/

theorem espMacOk_completedFrame (hauth : y.authKey = x.authKey) : espMacOk y (completedFrame x f iv b) := by
  unfold espMacOk espDigest
  rw [completedFrame_length x f hiv h34, completedFrame_covered h34 hiv, completedFrame_mac h34 hiv, hauth]
  rfl

theorem espPlain_completedFrame (henc : y.encKey = x.encKey) :
    espPlain y (completedFrame x f iv b) = innerPlaintext (b.drop 14) := by
  unfold espPlain
  rw [completedFrame_length x f hiv h34, completedFrame_iv h34 hiv, completedFrame_ct h34 hiv, henc]
  exact aesCbcDec_aesCbcEnc _ _ _

theorem espPadLen_completedFrame (henc : y.encKey = x.encKey) :
    espPadLen y (completedFrame x f iv b) = padLength (b.length - 14) := by
  have hoff : grownLength (b.length - 14) - 72 = (b.drop 14).length + padLength (b.drop 14).length := by
    simp [grownLength]
  unfold espPadLen
  rw [espPlain_completedFrame h34 hiv henc, completedFrame_length x f hiv h34, hoff, innerPlaintext_padLen]
  have hpad := padLength_le (b.length - 14)
  simp; omega

theorem authentic_completedFrame (hid : y.saId = x.saId) (henc : y.encKey = x.encKey)
    (hauth : y.authKey = x.authKey) : Authentic y (completedFrame x f iv b) where
  long := by
    rw [completedFrame_length x f hiv h34]
    exact le_trans (by omega) (grownLength_ge h34)
  spi := by rw [completedFrame_spi h34, be32_toBe32, hid]
  mac := espMacOk_completedFrame h34 hiv hauth
  blocks := by
    rw [completedFrame_length x f hiv h34]
    exact slotOf_blocks 0 _
  trailer := by
    rw [espPadLen_completedFrame h34 hiv henc, completedFrame_length x f hiv h34]
    unfold grownLength; omega

/-- Decapsulation of the completed frame gives the plain frame back (R224). -/
theorem restored_completedFrame (henc : y.encKey = x.encKey) : restored y (completedFrame x f iv b) = b := by
  have hlen : grownLength (b.length - 14) - 72 - padLength (b.length - 14) = (b.drop 14).length := by
    simp [grownLength]
  unfold restored
  rw [completedFrame_ethernet h34, espPlain_completedFrame h34 hiv henc, espPadLen_completedFrame h34 hiv henc,
    completedFrame_length x f hiv h34, hlen, innerPlaintext_take, List.take_append_drop]

end CompletedFrame

/-! ### The three commands -/

/-- A command of a tuple that was built leaves a later one of it. -/
theorem exec_later {i : Instr} {s t : State} {x : Espc} (h : exec i s = .next t) (hx : s.tuple? = some x)
    (hphase : x.phase ≠ .unconstructed) : ∃ y, t.tuple? = some y ∧ Later x y := by
  obtain ⟨z, d, hz, rfl, hd⟩ := exec_moves_all (ids := fun _ => True) h trivial fun _ _ _ => trivial
  obtain rfl : x = z := Option.some.inj (hx.symm.trans hz)
  exact ⟨d.inst, State.withCtx_tuple? d s x hx, hd.later hphase⟩

/-- Settles O48: `ENCAP` makes the completed frame and leaves the batch empty and the SA in place, and to that SA the
frame is authentic. -/
theorem decapUndoesEncap : Obligations.DecapUndoesEncap := by
  intro s x h iv b hx hphase hiv hb hfl h34 hmax hcount hbatch
  have hfit : grownLength (b.length - 14) ≤ Config.maxLen := by
    have hpad := padLength_le (b.length - 14)
    unfold grownLength; omega
  obtain ⟨s₁, s₂, y, hpush, hend, hy, hframe, hempty, -, hverdicts⟩ :=
    encapMakesTheEspFrame s x h iv b hx hphase hiv hb hfl h34 hfit hcount hbatch
  obtain ⟨y₁, hy₁, hxy₁⟩ := exec_later hpush hx (by simp [hphase])
  obtain ⟨y₂, hy₂, hy₁y⟩ := exec_later hend hy₁ (by simp [hxy₁.phase, hphase])
  obtain rfl : y = y₂ := Option.some.inj (hy.symm.trans hy₂)
  have hready : y.phase = .ready := (hy₁y.phase.trans hxy₁.phase).trans hphase
  have hfree : y.inFlight h = false := by simp [Espc.inFlight, Espc.batch, hempty]
  have henc : y.encKey = x.encKey := hy₁y.encKey.trans hxy₁.encKey
  have hdec := exec_dec_of_authentic hy hready hframe hfree
    (authentic_completedFrame h34 hiv (hy₁y.saId.trans hxy₁.saId) henc (hy₁y.authKey.trans hxy₁.authKey))
  rw [restored_completedFrame h34 hiv henc] at hdec
  refine ⟨s₁, s₂, _, _, hpush, hend, hdec, Memory.get_put_same _ _ _, State.withCtx_tuple? _ s₂ y hy, ?_⟩
  simp [hverdicts]

end Sys2Proof.Machine

/-! ## The other pushes, and the end of the burst (42_encapsulation.md R182, R194 to R197) -/

namespace Sys2Proof.Machine

/-- Settles O38: with fewer than seven slots taken the `BatchFull?` decision is no, and the pushed packet waits in
flight. -/
theorem encPushAccumulates : Obligations.EncPushAccumulates := by
  intro s x h iv b hx hphase hiv hb hfl h34 hmax hroom
  have hp : Pushable ⟨x, s.mem, s.active⟩ h iv b := ⟨hb, hiv, hfl, h34, hmax, hroom.le⟩
  have hpushed : (⟨x, s.mem, s.active⟩ : Ctx).encapsulate h iv
      = .ok (finishOk .encap h ((⟨x, s.mem, s.active⟩ : Ctx).pushed h iv b)) :=
    (encapsulate_eq_pushed hp).trans (bind_of_ok (if_neg hroom.ne) rfl)
  exact exec_encPush_of_ok hx hphase hp hpushed

/-- `ReceivePlain` drops an ineligible packet, and the push ends there: only `ENC_STATE` has moved (R182). -/
theorem encapsulate_short {c : Ctx} {h : Handle} {b : List Byte} (hb : c.mem.get h = some b)
    (hshort : ¬ (34 ≤ b.length ∧ grownLength (b.length - 14) ≤ Config.maxLen)) (iv : List Byte) :
    c.encapsulate h iv = .error (.raised .shortBuffer h (c.setEnc .receivePlain)) :=
  bind_of_error (stageReceivePlain_short (c := c.setEnc .receivePlain) hb hshort)

/-- A body that raises a drop makes the command take it. -/
theorem exec_of_body_raised {i : Instr} {s : State} {x : Espc} {e : DropReason} {h : Handle} {c : Ctx}
    (hx : s.tuple? = some x) (hb : ∀ source, body source i ⟨x, s.mem, s.active⟩ = .error (.raised e h c)) :
    exec i s = .next (s.withCtx (takeDrop (pipelineOf i) e h c)) := by
  rw [exec_eq_conclude hx, hb]; rfl

/-- The body of `ENC.PUSH` once its preconditions are met (R194). -/
theorem body_encPush_eq {c : Ctx} {h : Handle} {iv b : List Byte} (hphase : c.inst.phase = .ready)
    (hiv : iv.length = 16) (hb : c.mem.get h = some b) (hfl : c.inst.inFlight h = false)
    (source : Nat → Option Espc) : body source (.encPush h iv) c = c.encapsulate h iv :=
  (requireOperand_bind (beq_iff_eq.mpr hiv) _).trans ((requireReady_bind hphase _).trans
    (bind_of_ok (buffer_eq hb) (bind_of_ok (requireNotInFlight_eq hfl) rfl)))

/-- Settles O40: the two lengths that are dropped are the two ways to miss `Eligible`, and `takeDrop` puts `ENC_STATE`
back. -/
theorem ineligiblePushIsDropped : Obligations.IneligiblePushIsDropped := by
  intro s x h iv b hx hphase hiv hb hfl hout
  have hshort : ¬ (34 ≤ b.length ∧ grownLength (b.length - 14) ≤ Config.maxLen) := by omega
  exact exec_of_body_raised hx fun source =>
    (body_encPush_eq hphase hiv hb hfl source).trans (encapsulate_short hb hshort iv)

/-- The flush of a batch that is not full is one scalar call a slot for each backend (41_crypto_contexts.md R158,
R159). -/
theorem flushed_of_notFull {c : Ctx} (m : Memory) (hroom : c.inst.batch.length ≠ 8) :
    c.flushed m = { c with mem := m, inst := { c.inst with
      count := 0
      out := c.inst.out ++ c.inst.batch.map Slot.pkt
      trace := c.inst.trace ++ c.inst.batch.map (fun sl => .scEnc sl.pkt) ++
        c.inst.batch.map (fun sl => .scAuth sl.pkt) } } := by
  simp [Ctx.flushed, encryptEvents, authEvents, hroom]

/-- Settles O42: the flush of at most seven slots, which is never on the vector path. -/
theorem encEndFlushesTheRest : Obligations.EncEndFlushesTheRest := by
  intro s x hx hphase
  refine ⟨exec_encEnd_of_empty hx hphase, fun hpos hroom hbatch => ?_⟩
  have hcount : x.count ≤ 8 := by omega
  have hlen : x.batch.length ≠ 8 := by rw [batch_length x hcount]; omega
  obtain ⟨m, heach, hflush⟩ := vcFlush_eq_flushed (c := ⟨x, s.mem, s.active⟩) hcount hbatch
  rw [flushed_of_notFull m hlen] at hflush
  exact ⟨m, heach, exec_encEnd_of_flush hx hphase hpos hflush⟩

end Sys2Proof.Machine

/-! ## How `DEC` ends: five drops or `Ok` (43_decapsulation.md R212 to R223) -/

namespace Sys2Proof.Machine

/-- The way `DEC h` ends for the frame `b`: its verdict, the backend calls it made, and the bytes it stored in the
packet, if any. Each drop carries the tests passed before it and the one that failed (R221, R223). -/
inductive DecEnds (x : Espc) (h : Handle) (b : List Byte) : Verdict → List Event → Option (List Byte) → Prop
  | short (hlen : b.length < 72) : DecEnds x h b (.drop .shortBuffer h) [] none
  | unknownSpi (hlen : 72 ≤ b.length) (hspi : be32 (slice b 34 4) ≠ x.saId) :
      DecEnds x h b (.drop .unknownSpi h) [] none
  | wrongMac (hlen : 72 ≤ b.length) (hspi : be32 (slice b 34 4) = x.saId) (hmac : ¬ espMacOk x b) :
      DecEnds x h b (.drop .authenticationFailed h) [.scAuth h] none
  | partialBlock (hlen : 72 ≤ b.length) (hspi : be32 (slice b 34 4) = x.saId) (hmac : espMacOk x b)
      (h16 : (b.length - 70) % 16 ≠ 0) : DecEnds x h b (.drop .invalidBlockLength h) [.scAuth h] none
  | badTrailer (hlen : 72 ≤ b.length) (hspi : be32 (slice b 34 4) = x.saId) (hmac : espMacOk x b)
      (h16 : (b.length - 70) % 16 = 0) (hpad : b.length - 70 < espPadLen x b + 2) :
      DecEnds x h b (.drop .malformedTrailer h) [.scAuth h, .scDec h] (some (splice b 58 (espPlain x b)))
  | authentic (ha : Authentic x b) : DecEnds x h b (.ok h) [.scAuth h, .scDec h] (some (restored x b))

/-- The context that `DEC h` leaves when it ends so. -/
def Ctx.decEnded (c : Ctx) (h : Handle) (v : Verdict) (calls : List Event) (stored : Option (List Byte)) : Ctx :=
  { c with
    mem := stored.elim c.mem (c.mem.put h)
    inst := { c.inst with
      decState := .idle
      trace := c.inst.trace ++ calls
      verdicts := c.inst.verdicts ++ [v] } }

/-- Every frame makes `DEC` end in one of the six ways. -/
theorem DecEnds.total (x : Espc) (h : Handle) (b : List Byte) : ∃ v calls stored, DecEnds x h b v calls stored := by
  by_cases hlen : 72 ≤ b.length
  · by_cases hspi : be32 (slice b 34 4) = x.saId
    · by_cases hmac : espMacOk x b
      · by_cases h16 : (b.length - 70) % 16 = 0
        · by_cases hpad : espPadLen x b + 2 ≤ b.length - 70
          · exact ⟨_, _, _, .authentic ⟨hlen, hspi, hmac, h16, hpad⟩⟩
          · exact ⟨_, _, _, .badTrailer hlen hspi hmac h16 (Nat.lt_of_not_le hpad)⟩
        · exact ⟨_, _, _, .partialBlock hlen hspi hmac h16⟩
      · exact ⟨_, _, _, .wrongMac hlen hspi hmac⟩
    · exact ⟨_, _, _, .unknownSpi hlen hspi⟩
  · exact ⟨_, _, _, .short (Nat.lt_of_not_le hlen)⟩

/-! ### The drop that each test raises -/

section Raised

variable {c : Ctx} {h : Handle} {b : List Byte} (hb : c.mem.get h = some b)
include hb

theorem decapsulate_short (hlen : b.length < 72) :
    c.decapsulate h = .error (.raised .shortBuffer h (c.setDec .receiveEsp)) :=
  bind_of_error (stageReceiveEsp_short (c := c.setDec .receiveEsp) hb hlen)

variable (hlen : 72 ≤ b.length)
include hlen

theorem decapsulate_unknownSpi (hspi : be32 (slice b 34 4) ≠ c.inst.saId) :
    c.decapsulate h = .error (.raised .unknownSpi h (c.setDec .lookupSa)) :=
  bind_of_ok (stageReceiveEsp_eq (c := c.setDec .receiveEsp) hb hlen)
    (bind_of_error (stageLookupSa_raised hb hlen hspi))

variable (hspi : be32 (slice b 34 4) = c.inst.saId)
include hspi

theorem decapsulate_wrongMac (hmac : ¬ espMacOk c.inst b) :
    c.decapsulate h = .error (.raised .authenticationFailed h ((c.traced (.scAuth h)).setDec .verifyMac)) :=
  bind_of_ok (stageReceiveEsp_eq (c := c.setDec .receiveEsp) hb hlen)
    (bind_of_ok (stageLookupSa_eq hb hlen hspi)
      (bind_of_error (stageVerifyMac_raised (c := c.setDec .verifyMac) hb hlen hmac)))

variable (hmac : espMacOk c.inst b)
include hmac

theorem decapsulate_partialBlock (h16 : (b.length - 70) % 16 ≠ 0) :
    c.decapsulate h = .error (.raised .invalidBlockLength h ((c.traced (.scAuth h)).setDec .decrypt)) :=
  bind_of_ok (stageReceiveEsp_eq (c := c.setDec .receiveEsp) hb hlen)
    (bind_of_ok (stageLookupSa_eq hb hlen hspi)
      (bind_of_ok (stageVerifyMac_eq (c := c.setDec .verifyMac) hb hlen hmac)
        (bind_of_error (stageDecrypt_raised h16))))

theorem decapsulate_badTrailer (h16 : (b.length - 70) % 16 = 0) (hpad : b.length - 70 < espPadLen c.inst b + 2) :
    c.decapsulate h = .error (.raised .malformedTrailer h
      ((((c.withMem (c.mem.put h (splice b 58 (espPlain c.inst b)))).traced (.scAuth h)).traced (.scDec h)).setDec
        .stripHeaders)) :=
  bind_of_ok (stageReceiveEsp_eq (c := c.setDec .receiveEsp) hb hlen)
    (bind_of_ok (stageLookupSa_eq hb hlen hspi)
      (bind_of_ok (stageVerifyMac_eq (c := c.setDec .verifyMac) hb hlen hmac)
        (bind_of_ok (stageDecrypt_eq (c := (c.traced (.scAuth h)).setDec .decrypt) hb hlen h16)
          (bind_of_error (stageStripHeaders_raised hlen (espPlain_length c.inst b hlen) (Memory.get_put_same c.mem h _)
            hpad)))))

end Raised

/-! ### The command -/

/-- A drop of the decapsulation keeps what was written and traced before it, whatever stage raised it (60_exceptions.md
R275, R277). -/
theorem takeDrop_setDec (c : Ctx) (st : DecState) (e : DropReason) (h : Handle) :
    takeDrop .decap e h (c.setDec st) = c.decEnded h (.drop e h) [] none := by
  simp [takeDrop, Ctx.decEnded, Ctx.setDec, Ctx.reported]

theorem Ctx.decEnded_traced (c : Ctx) (ev : Event) (h : Handle) (v : Verdict) (calls : List Event)
    (stored : Option (List Byte)) :
    (c.traced ev).decEnded h v calls stored = c.decEnded h v (ev :: calls) stored := by
  simp [Ctx.decEnded, Ctx.traced]

theorem Ctx.decEnded_put (c : Ctx) (h : Handle) (b : List Byte) (v : Verdict) (calls : List Event) :
    (c.withMem (c.mem.put h b)).decEnded h v calls none = c.decEnded h v calls (some b) := rfl

/-- Each way to end is what the run of the five stages gives, a drop being taken by `takeDrop` (R221, R275). -/
theorem conclude_decapsulate {c : Ctx} {h : Handle} {b : List Byte} {v : Verdict} {calls : List Event}
    {stored : Option (List Byte)} (hb : c.mem.get h = some b) (he : DecEnds c.inst h b v calls stored) (s : State) :
    conclude .decap s (c.decapsulate h) = .next (s.withCtx (c.decEnded h v calls stored)) := by
  cases he with
  | short hlen => simp only [decapsulate_short hb hlen, conclude, takeDrop_setDec]
  | unknownSpi hlen hspi => simp only [decapsulate_unknownSpi hb hlen hspi, conclude, takeDrop_setDec]
  | wrongMac hlen hspi hmac =>
    simp only [decapsulate_wrongMac hb hlen hspi hmac, conclude, takeDrop_setDec, Ctx.decEnded_traced]
  | partialBlock hlen hspi hmac h16 =>
    simp only [decapsulate_partialBlock hb hlen hspi hmac h16, conclude, takeDrop_setDec, Ctx.decEnded_traced]
  | badTrailer hlen hspi hmac h16 hpad =>
    simp only [decapsulate_badTrailer hb hlen hspi hmac h16 hpad, conclude, takeDrop_setDec, Ctx.decEnded_traced,
      Ctx.decEnded_put]
  | authentic ha => rw [decapsulate_of_authentic hb ha]; rfl

/-- `DEC` once its preconditions are met (R221). -/
theorem exec_dec_of_decEnds {s : State} {x : Espc} {h : Handle} {b : List Byte} {v : Verdict} {calls : List Event}
    {stored : Option (List Byte)} (hx : s.tuple? = some x) (hphase : x.phase = .ready) (hb : s.mem.get h = some b)
    (hfl : x.inFlight h = false) (he : DecEnds x h b v calls stored) :
    exec (.dec h) s = .next (s.withCtx ((⟨x, s.mem, s.active⟩ : Ctx).decEnded h v calls stored)) := by
  have hbody : body (fun w => s.workers[w]?) (.dec h) ⟨x, s.mem, s.active⟩
      = (⟨x, s.mem, s.active⟩ : Ctx).decapsulate h :=
    (requireReady_bind hphase _).trans (bind_of_ok (buffer_eq hb) (bind_of_ok (requireNotInFlight_eq hfl) rfl))
  rw [exec_eq_conclude hx, hbody]
  exact conclude_decapsulate hb he s

/-- What a `DEC` that answers a next state has done: its preconditions held, and it ended in one of the six ways. -/
theorem exec_dec_inv {s t : State} {x : Espc} {h : Handle} {b : List Byte} (hx : s.tuple? = some x)
    (hb : s.mem.get h = some b) (hexec : exec (.dec h) s = .next t) :
    x.phase = .ready ∧ x.inFlight h = false ∧ ∃ v calls stored, DecEnds x h b v calls stored ∧
      t = s.withCtx ((⟨x, s.mem, s.active⟩ : Ctx).decEnded h v calls stored) := by
  have hphase : x.phase = .ready := by
    by_contra hphase
    rw [exec_of_body_refused hx fun _ => body_wrongPhase rfl rfl hphase] at hexec
    cases hexec
  have hfl : x.inFlight h = false := by
    by_contra hfl
    rw [exec_of_body_refused hx fun _ => (requireReady_bind hphase _).trans (bind_of_ok (buffer_eq hb)
      (bind_of_error (requireNotInFlight_refused (Bool.of_not_eq_false hfl))))] at hexec
    cases hexec
  obtain ⟨v, calls, stored, he⟩ := DecEnds.total x h b
  rw [exec_dec_of_decEnds hx hphase hb hfl he] at hexec
  obtain rfl : _ = t := by simpa using hexec
  exact ⟨hphase, hfl, v, calls, stored, he, rfl⟩

/-- Settles O44: each clause is one of the five drops. -/
theorem decTestsInOrder : Obligations.DecTestsInOrder := by
  intro s x h b hx hphase hb hfl
  have ends {v : Verdict} {calls : List Event} {stored : Option (List Byte)} (he : DecEnds x h b v calls stored) :=
    exec_dec_of_decEnds hx hphase hb hfl he
  refine ⟨fun hlen => ?_, fun hlen hspi => ?_, fun hlen hspi hmac => ends (.wrongMac hlen hspi hmac),
    fun hlen hspi hmac h16 => ends (.partialBlock hlen hspi hmac h16),
    fun hlen hspi hmac h16 hpad => ends (.badTrailer hlen hspi hmac h16 hpad)⟩
  · simpa [Ctx.decEnded] using ends (.short hlen)
  · simpa [Ctx.decEnded] using ends (.unknownSpi hlen hspi)

theorem restored_length {x : Espc} {b : List Byte} (ha : Authentic x b) :
    (restored x b).length = b.length - 58 - espPadLen x b := by
  have hlong := ha.long
  have htrailer := ha.trailer
  simp [restored, espPlain_length x b hlong]
  omega

/-- Settles O45: the five hypotheses are the tests that an authentic frame passes. -/
theorem decRestoresThePacket : Obligations.DecRestoresThePacket := by
  intro s x h b hx hphase hb hfl hlen hspi hmac h16 hpad
  have ha : Authentic x b := ⟨hlen, hspi, hmac, h16, hpad⟩
  exact ⟨restored_length ha, exec_dec_of_authentic hx hphase hb hfl ha⟩

/-- A frame of full length whose MAC does not match is dropped before anything is decrypted or stored (R216). -/
theorem DecEnds.failsClosed {x : Espc} {h : Handle} {b : List Byte} {v : Verdict} {calls : List Event}
    {stored : Option (List Byte)} (he : DecEnds x h b v calls stored) (hlen : 72 ≤ b.length)
    (hmac : ¬ espMacOk x b) :
    stored = none ∧ (∀ g, Event.scDec g ∉ calls) ∧ ∃ e, v = .drop e h := by
  cases he with
  | short hshort => omega
  | unknownSpi => exact ⟨rfl, by simp, _, rfl⟩
  | wrongMac => exact ⟨rfl, by simp, _, rfl⟩
  | partialBlock _ _ hok => exact absurd hok hmac
  | badTrailer _ _ hok => exact absurd hok hmac
  | authentic ha => exact absurd ha.mac hmac

/-- Settles O46: of the six ways to end, only the two drops before `Decrypt` are left. -/
theorem decFailsClosed : Obligations.DecFailsClosed := by
  intro s t x h b hx hb hlen hmac hexec
  obtain ⟨-, -, v, calls, stored, he, rfl⟩ := exec_dec_inv hx hb hexec
  obtain ⟨rfl, hcalls, e, rfl⟩ := he.failsClosed hlen hmac
  exact ⟨rfl, _, calls, State.withCtx_tuple? _ s x hx, rfl, hcalls, e, rfl⟩

/-! ### The bytes that `DEC` does not depend on -/

/-- Two packets of one length that agree from offset `k` on. -/
structure AgreeFrom (k : Nat) (b b' : List Byte) : Prop where
  length : b.length = b'.length
  drop : b.drop k = b'.drop k

theorem AgreeFrom.mono {k n : Nat} {b b' : List Byte} (hag : AgreeFrom k b b') (hk : k ≤ n) : AgreeFrom n b b' := by
  obtain ⟨m, rfl⟩ := Nat.exists_eq_add_of_le hk
  exact ⟨hag.length, by rw [← List.drop_drop, hag.drop, List.drop_drop]⟩

theorem AgreeFrom.slice {k off : Nat} {b b' : List Byte} (hag : AgreeFrom k b b') (hk : k ≤ off) (n : Nat) :
    slice b off n = slice b' off n :=
  congrArg (List.take n) (hag.mono hk).drop

theorem AgreeFrom.splice {k off : Nat} {b b' v : List Byte} (hag : AgreeFrom k b b')
    (hoff : off + v.length ≤ b.length) : AgreeFrom k (splice b off v) (splice b' off v) := by
  have hoff' : off + v.length ≤ b'.length := hag.length ▸ hoff
  refine ⟨by rw [splice_length _ _ _ hoff, splice_length _ _ _ hoff', hag.length], List.ext_getElem? fun i => ?_⟩
  have hi : b[k + i]? = b'[k + i]? := by rw [← List.getElem?_drop, hag.drop, List.getElem?_drop]
  rw [List.getElem?_drop, List.getElem?_drop]
  by_cases hin : off ≤ k + i ∧ k + i < off + v.length
  · rw [splice_inside _ _ _ _ hoff hin.1 hin.2, splice_inside _ _ _ _ hoff' hin.1 hin.2]
  · rw [splice_outside _ _ _ _ hoff (by omega), splice_outside _ _ _ _ hoff' (by omega), hi]

section OuterHeaders

variable {x : Espc} {b b' : List Byte} (hag : AgreeFrom 34 b b')
include hag

theorem espPlain_congr : espPlain x b = espPlain x b' := by
  unfold espPlain
  rw [hag.slice (by decide), hag.slice (by decide), hag.length]

theorem espPadLen_congr : espPadLen x b = espPadLen x b' := by
  unfold espPadLen
  rw [espPlain_congr hag, hag.length]

theorem espMacOk_congr (hlen : 72 ≤ b.length) : espMacOk x b ↔ espMacOk x b' := by
  unfold espMacOk espDigest
  rw [hag.slice (le_refl 34), hag.slice (off := b.length - 12) (by omega), hag.length]

theorem Authentic.congr (ha : Authentic x b) : Authentic x b' where
  long := hag.length ▸ ha.long
  spi := hag.slice (le_refl 34) 4 ▸ ha.spi
  mac := (espMacOk_congr hag ha.long).mp ha.mac
  blocks := hag.length ▸ ha.blocks
  trailer := espPadLen_congr (x := x) hag ▸ hag.length ▸ ha.trailer

/-- The stripped packets agree behind the Ethernet header, which is all that is kept of the first 58 bytes (R219). -/
theorem restored_agree (hlen : 72 ≤ b.length) : AgreeFrom 14 (restored x b) (restored x b') := by
  have hlen' : 72 ≤ b'.length := hag.length ▸ hlen
  have h14 : (b.take 14).length = 14 := by simp; omega
  have h14' : (b'.take 14).length = 14 := by simp; omega
  unfold restored
  rw [← espPlain_congr hag, ← espPadLen_congr hag, ← hag.length]
  exact ⟨by rw [List.length_append, List.length_append, h14, h14'],
    by rw [List.drop_left' h14, List.drop_left' h14']⟩

/-- A frame that agrees with `b` from offset 34 on ends `DEC` as `b` does, and leaves a packet that agrees with the one
`b` leaves (R222). -/
theorem DecEnds.congr {h : Handle} {v : Verdict} {calls : List Event} {stored : Option (List Byte)}
    (he : DecEnds x h b v calls stored) :
    ∃ stored', DecEnds x h b' v calls stored' ∧ AgreeFrom 34 (stored.getD b) (stored'.getD b') ∧
      ((stored.getD b).length < b.length → AgreeFrom 14 (stored.getD b) (stored'.getD b')) := by
  have hspi' : be32 (slice b' 34 4) = be32 (slice b 34 4) := by rw [hag.slice (le_refl 34)]
  have unchanged {P : Prop} : b.length < b.length → P := fun hlt => absurd hlt (lt_irrefl _)
  cases he with
  | short hlen => exact ⟨none, .short (hag.length ▸ hlen), hag, unchanged⟩
  | unknownSpi hlen hspi => exact ⟨none, .unknownSpi (hag.length ▸ hlen) (hspi' ▸ hspi), hag, unchanged⟩
  | wrongMac hlen hspi hmac =>
    exact ⟨none, .wrongMac (hag.length ▸ hlen) (hspi'.trans hspi) (mt (espMacOk_congr hag hlen).mpr hmac), hag,
      unchanged⟩
  | partialBlock hlen hspi hmac h16 =>
    exact ⟨none, .partialBlock (hag.length ▸ hlen) (hspi'.trans hspi) ((espMacOk_congr hag hlen).mp hmac)
      (hag.length ▸ h16), hag, unchanged⟩
  | badTrailer hlen hspi hmac h16 hpad =>
    have hfit : 58 + (espPlain x b).length ≤ b.length := by rw [espPlain_length x b hlen]; omega
    refine ⟨_, .badTrailer (hag.length ▸ hlen) (hspi'.trans hspi) ((espMacOk_congr hag hlen).mp hmac)
      (hag.length ▸ h16) (espPadLen_congr (x := x) hag ▸ hag.length ▸ hpad), ?_, fun hlt => ?_⟩
    · exact espPlain_congr (x := x) hag ▸ hag.splice hfit
    · exact unchanged (splice_length b 58 _ hfit ▸ hlt)
  | authentic ha =>
    have hagree : AgreeFrom 14 (restored x b) (restored x b') := restored_agree hag ha.long
    exact ⟨_, .authentic (ha.congr hag), hagree.mono (by decide), fun _ => hagree⟩

end OuterHeaders

/-- The packet that `DEC` leaves. -/
theorem Ctx.decEnded_get {c : Ctx} {h : Handle} {b : List Byte} (hb : c.mem.get h = some b) (v : Verdict)
    (calls : List Event) (stored : Option (List Byte)) :
    (c.decEnded h v calls stored).mem.get h = some (stored.getD b) := by
  cases stored with
  | none => exact hb
  | some d => exact Memory.get_put_same c.mem h d

/-- Settles O47: both frames end `DEC` in the same way, and only the bytes stored differ. -/
theorem decIgnoresTheOuterHeaders : Obligations.DecIgnoresTheOuterHeaders := by
  intro s x h b b' hx hlen hdrop t hexec
  have hb : (s.mem.put h b).get h = some b := Memory.get_put_same s.mem h b
  have hb' : (s.mem.put h b').get h = some b' := Memory.get_put_same s.mem h b'
  obtain ⟨hphase, hfl, v, calls, stored, he, rfl⟩ := exec_dec_inv (s := { s with mem := s.mem.put h b }) hx hb hexec
  obtain ⟨stored', he', hagree, hstripped⟩ := he.congr ⟨hlen, hdrop⟩
  exact ⟨_, stored.getD b, stored'.getD b',
    exec_dec_of_decEnds (s := { s with mem := s.mem.put h b' }) hx hphase hb' hfl he', rfl,
    Ctx.decEnded_get hb v calls stored, Ctx.decEnded_get hb' v calls stored', hagree.length, hagree.drop,
    fun hlt => (hstripped hlt).drop⟩

end Sys2Proof.Machine

/-! ## The packet buffer provider (44_collaborators_lifecycle.md R241 to R247) -/

namespace Sys2Proof.Machine

/-! ### Outside a `require` -/

section Violations

variable {c : Ctx} {h : Handle} {n : Nat} {b : List Byte} (hb : c.mem.get h = some b)
include hb

theorem growHead_contract (hn : b.length < 14 ∨ Config.maxLen < b.length + n) :
    c.growHead h n = .error (.fault .contractViolation) := by
  have hnot : ¬ (14 ≤ b.length ∧ b.length + n ≤ Config.maxLen) := by omega
  exact bind_of_ok (buffer_eq hb) (contract_violated (decide_eq_false hnot) _)

theorem growTail_contract (hn : Config.maxLen < b.length + n) :
    c.growTail h n = .error (.fault .contractViolation) :=
  bind_of_ok (buffer_eq hb) (contract_violated (decide_eq_false (Nat.not_le.mpr hn)) _)

theorem shrinkHead_contract (hn : b.length < 14 + n) : c.shrinkHead h n = .error (.fault .contractViolation) :=
  bind_of_ok (buffer_eq hb) (contract_violated (decide_eq_false (Nat.not_le.mpr hn)) _)

theorem shrinkTail_contract (hn : b.length < n) : c.shrinkTail h n = .error (.fault .contractViolation) :=
  bind_of_ok (buffer_eq hb) (contract_violated (decide_eq_false (Nat.not_le.mpr hn)) _)

theorem byteRangeAt_eq {off : Nat} (hn : off + n ≤ b.length) : c.byteRangeAt h off n = .ok ⟨h, off, n⟩ :=
  bind_of_ok (buffer_eq hb) (by rw [decide_eq_true hn]; rfl)

theorem byteRangeAt_pastEnd {off : Nat} (hn : b.length < off + n) :
    c.byteRangeAt h off n = .error (.fault .codecBounds) :=
  bind_of_ok (buffer_eq hb) (by rw [decide_eq_false (Nat.not_le.mpr hn)]; rfl)

end Violations

/-- Settles O49. -/
theorem bufGrowInsertsFill : Obligations.BufGrowInsertsFill := by
  intro s x h n b hx hb
  refine ⟨fun h14 hmax => ?head, fun hn => ?headOutside, fun hmax => ?tail, fun hn => ?tailOutside⟩
  case head => exact runOn_of_ok hx (growHead_eq hb h14 hmax)
  case headOutside => exact exec_of_body_fault hx fun _ => growHead_contract hb hn
  case tail => exact runOn_of_ok hx (growTail_eq hb hmax)
  case tailOutside => exact exec_of_body_fault hx fun _ => growTail_contract hb hn

/-- Settles O50. -/
theorem bufShrinkRemoves : Obligations.BufShrinkRemoves := by
  intro s x h n b hx hb
  refine ⟨fun hn => ?head, fun hn => ?headOutside, fun hn => ?tail, fun hn => ?tailOutside⟩
  case head => exact runOn_of_ok hx (shrinkHead_eq hb hn)
  case headOutside => exact exec_of_body_fault hx fun _ => shrinkHead_contract hb hn
  case tail => exact runOn_of_ok hx (shrinkTail_eq hb hn)
  case tailOutside => exact exec_of_body_fault hx fun _ => shrinkTail_contract hb hn

/-- Settles O52. -/
theorem bufRangeAndLen : Obligations.BufRangeAndLen := by
  intro s x h off n b hx hb
  refine ⟨fun hn => ?range, fun hn => ?rangePastEnd, ?len⟩
  case range => exact runOn_of_ok hx (bind_of_ok (byteRangeAt_eq hb hn) rfl)
  case rangePastEnd => exact exec_of_body_fault hx fun _ => bind_of_error (byteRangeAt_pastEnd hb hn)
  case len => exact runOn_of_ok hx (bind_of_ok (len_eq hb) rfl)

/-! ### Shrinking after growing -/

/-- Taking out the bytes that were put in at offset `k` gives the packet back. -/
theorem take_drop_inserted {k : Nat} {b v : List Byte} (hk : k ≤ b.length) :
    (b.take k ++ v ++ b.drop k).take k ++ (b.take k ++ v ++ b.drop k).drop (k + v.length) = b := by
  have htake : (b.take k).length = k := List.length_take_of_le hk
  have hhead : (b.take k ++ v ++ b.drop k).take k = b.take k := by
    rw [List.append_assoc, List.take_left' htake]
  have htail : (b.take k ++ v ++ b.drop k).drop (k + v.length) = b.drop k :=
    List.drop_left' (by rw [List.length_append, htake])
  rw [hhead, htail, List.take_append_drop]

/-- Taking off the bytes that were appended gives the packet back. -/
theorem take_appended (b v : List Byte) : (b ++ v).take ((b ++ v).length - v.length) = b :=
  List.take_left' (by simp)

/-- Storing what a packet already holds changes no packet. -/
theorem Memory.get_put_held {m : Memory} {h : Handle} {b : List Byte} (hb : m.get h = some b) (g : Handle) :
    (m.put h b).get g = m.get g := by
  rw [Memory.get_put]
  split
  · next hg => rw [hg, hb]
  · rfl

/-- Wherever `grow` completes, it raises no drop, and `shrink` in the context it leaves completes with the packets that
were there at the start. -/
def Undoes (shrink grow : Ctx → Except Stop Ctx) : Prop :=
  ∀ c, Post (fun d => d.worker = c.worker ∧ ∃ e, shrink d = .ok e ∧ ∀ g, e.mem.get g = c.mem.get g)
    (fun _ _ _ => False) (grow c)

/-- The command that shrinks, run after the command that grew. -/
theorem Undoes.restores {shrink grow : Ctx → Except Stop Ctx} {s t : State} (hu : Undoes shrink grow)
    (hgrow : runOn .none s grow = .next t) :
    ∃ u, runOn .none t shrink = .next u ∧ ∀ g, u.mem.get g = s.mem.get g := by
  obtain ⟨x, d, hx, rfl, hworker, e, he, hmem⟩ :=
    runOn_post hgrow fun x _ => (hu ⟨x, s.mem, s.active⟩).mono (fun _ hd => hd) fun _ _ _ => False.elim
  have hd : shrink ⟨d.inst, d.mem, s.active⟩ = .ok e := by rwa [← show d.worker = s.active from hworker]
  exact ⟨_, runOn_of_ok (State.withCtx_tuple? d s x hx) hd, hmem⟩

theorem shrinkHead_undoes_growHead (h : Handle) (n : Nat) :
    Undoes (fun c => c.shrinkHead h n) (fun c => c.growHead h n) := by
  refine fun c => (growHead_post c h n).mono ?_ fun _ _ _ => id
  rintro _ ⟨b, hb, h14, -, rfl⟩
  have hfill : (c.fill n).length = n := fillBytes_length _ _ _
  have hback := take_drop_inserted (v := c.fill n) h14
  rw [hfill] at hback
  refine ⟨rfl, _, shrinkHead_eq (Memory.get_put_same _ _ _) (by simp [hfill]; omega), fun g => ?_⟩
  rw [hback]
  simpa using Memory.get_put_held hb g

theorem shrinkTail_undoes_growTail (h : Handle) (n : Nat) :
    Undoes (fun c => c.shrinkTail h n) (fun c => c.growTail h n) := by
  refine fun c => (growTail_post c h n).mono ?_ fun _ _ _ => id
  rintro _ ⟨b, hb, -, rfl⟩
  have hfill : (c.fill n).length = n := fillBytes_length _ _ _
  have hback := take_appended b (c.fill n)
  rw [hfill] at hback
  refine ⟨rfl, _, shrinkTail_eq (Memory.get_put_same _ _ _) (by simp [hfill]), fun g => ?_⟩
  rw [hback]
  simpa using Memory.get_put_held hb g

/-- Settles O51: a growth draws exactly `n` bytes, so the `n` bytes taken out are the ones it put in. -/
theorem shrinkUndoesGrow : Obligations.ShrinkUndoesGrow :=
  fun _ _ h n => ⟨(shrinkHead_undoes_growHead h n).restores, (shrinkTail_undoes_growTail h n).restores⟩

end Sys2Proof.Machine

/-! ## The lifecycle commands (44_collaborators_lifecycle.md R259 to R261) -/

namespace Sys2Proof.Machine

@[simp] theorem bytesOf_toList {n : Nat} (l : List Byte) (hl : l.length = n) : (bytesOf l hl).toList = l := rfl

theorem init_eq {c : Ctx} {k a : List Byte} (src dst : U32) (hphase : c.inst.phase = .unconstructed)
    (hk : k.length = 16) (ha : a.length = 20) :
    c.init k a src dst true
      = .ok { c with inst := c.inst.construct Config.spiFixed (bytesOf k hk) (bytesOf a ha) src dst } :=
  (if_pos hphase).trans (dif_pos ⟨hk, ha, rfl⟩)

theorem clone_eq {c : Ctx} {y : Espc} (hphase : c.inst.phase = .unconstructed) (hy : y.phase = .ready) :
    c.clone (some y)
      = .ok { c with inst := c.inst.construct y.saId y.encKey y.authKey y.tunSrc y.tunDst } :=
  if_pos ⟨hphase, hy⟩

theorem clone_wrongPhase {c : Ctx} {y : Espc} (h : ¬ (c.inst.phase = .unconstructed ∧ y.phase = .ready)) :
    c.clone (some y) = .error (.refused .wrongPhase) :=
  if_neg h

/-- Settles O10. -/
theorem initConstructs : Obligations.InitConstructs := by
  intro s x k a src dst hx
  refine ⟨fun hphase hk ha => ?builds, fun hphase ok => ?again⟩
  case builds =>
    exact ⟨bytesOf k hk, bytesOf a ha, bytesOf_toList k hk, bytesOf_toList a ha,
      runOn_of_ok hx (init_eq src dst hphase hk ha)⟩
  case again => exact exec_of_body_refused hx fun _ => init_refused hphase

/-- `CLONE` runs on the tuple that its source index names. -/
theorem exec_clone_eq {s : State} {x y : Espc} {w' : Nat} (hx : s.tuple? = some x) (hy : s.workers[w']? = some y) :
    exec (.clone w') s = conclude .none s ((⟨x, s.mem, s.active⟩ : Ctx).clone (some y)) := by
  rw [← hy]
  exact exec_eq_conclude hx

/-- Settles O12: the target is `Unconstructed` and the source `Ready`, so they are two instances, and writing the one
leaves the other. -/
theorem cloneCopiesConfiguration : Obligations.CloneCopiesConfiguration := by
  intro s x w' y hx hy
  rw [exec_clone_eq hx hy]
  refine ⟨fun hphase hready => ?copies, fun h => ?refused⟩
  case copies =>
    have hw : w' ≠ s.active := by
      rintro rfl
      cases hx.symm.trans hy
      cases hphase.symm.trans hready
    rw [clone_eq (c := ⟨x, s.mem, s.active⟩) hphase hready]
    exact ⟨_, rfl, rfl, (State.withCtx_other _ s w' hw).trans hy⟩
  case refused =>
    rw [clone_wrongPhase (c := ⟨x, s.mem, s.active⟩) h]
    rfl

/-- Settles O13. -/
theorem destroyChangesNothing : Obligations.DestroyChangesNothing := by
  intro s x hx
  refine ⟨fun hphase => ?ready, fun hphase => ?refused⟩
  case ready => exact (runOn_of_ok hx (requireReady_bind hphase _)).trans (congrArg _ (State.withCtx_self s x hx))
  case refused => exact exec_of_body_refused hx fun _ => body_wrongPhase rfl rfl hphase

end Sys2Proof.Machine
